-- ==== Sys2Proof/Word.lean ====
section
/-! DEFINITION. Word.lean: the one word the block moves, a byte (30_encoding R140). -/

namespace Sys2Proof

/-- A byte: bit 0 is the least significant bit (00_scope R14). -/
abbrev Byte := BitVec 8

/-- A nibble: the opcode and the logical-operation fields of a command byte (30_encoding R144). -/
abbrev Nibble := BitVec 4

end Sys2Proof
end

