-- ==== Sys2Proof/Config.lean ====
section
/-! DEFINITION. Config.lean: the parameters of 00_scope R13 as plain data, and the values the spec leaves open
as constants without a body (assumption log 1, 4, 7). -/

namespace Sys2Proof

/-- The three variants of the block (00_scope R2): baseline, enhanced, high-colour. -/
inductive Variant where
  | B
  | E
  | H
deriving DecidableEq, Repr

/-- The parameters of 00_scope R13 that a model takes as arguments. They are fixed for a machine: no step changes
them (10_state R31). -/
structure Config where
  /-- `VARIANT` (R2). -/
  variant : Variant
  /-- `UNLIMITED_SPRITES` (42_renderer R342), default false. -/
  unlimitedSprites : Bool
  /-- `WRITE_UPDATES_PREFETCH` (40_port_protocol R207), default true. -/
  writeUpdatesPrefetch : Bool
  /-- `COLLIDE_TRANSPARENT` (42_renderer R345), default false. -/
  collideTransparent : Bool
  /-- `RELOCK_ON_OTHER_57` (41_register_bank R290), default true. -/
  relockOnOther57 : Bool
  /-- `STATUS_ID_H` (40_port_protocol R213), default 0x00. -/
  statusIdH : Byte
  /-- `STATUS_ID_E` (40_port_protocol R217), open. -/
  statusIdE : Byte
  /-- `STATUS_E(s)` (10_state R49), open; the entries 2 to 15 are used. -/
  statusE : Vector Byte 16
  /-- `BUDGET` (43_command_engine R410), open. -/
  budget : Nat
  /-- `COST[op][t]` (43_command_engine R410), open: entry `4 * op + t`, the seven budgeted opcodes in the order SRCH,
  LINE, LMMV, LMMM, HMMV, HMMM, YMMM. -/
  cost : Vector Nat 28
  /-- `TOTAL_LINES` (70_reset_and_hazards R732), open. -/
  totalLines : Nat
deriving DecidableEq, Repr

/-- The constraint 43_command_engine R410 sets on `BUDGET` and `COST`: positive, and the budget above every cost. -/
abbrev Config.ok (cfg : Config) : Prop :=
  ∀ k : Fin 28, 0 < cfg.cost[k] ∧ cfg.cost[k] < cfg.budget

/-! The open values. None has a body, so nothing can be proved of one. -/

/-- The free byte of the `n`-th draw (93_implementation_defined P2, P4, P5). -/
opaque Config.drawByte : Nat → Byte

/-- The free byte of main VRAM at an index after the reset that is the `n`-th draw (P1). -/
opaque Config.drawVram : Nat → Nat → Byte

/-- The free byte of expansion VRAM at an index after the reset that is the `n`-th draw (P1). -/
opaque Config.drawExp : Nat → Nat → Byte

/-- The free entry of variant E's palette after the reset that is the `n`-th draw (P3). -/
opaque Config.drawPaletteE : Nat → Nat → BitVec 12

/-- The free entry of variant H's palette, red, green and blue, after the reset that is the `n`-th draw (P3). -/
opaque Config.drawPaletteH : Nat → Nat → BitVec 9

/-- `STATUS_ID_E` of the machine that State.reset is (P7). -/
opaque Config.openStatusIdE : Byte

/-- `STATUS_E(s)` of the machine that State.reset is (P7). -/
opaque Config.openStatusE : Nat → Byte

/-- `COST[op][t]` of the machine that State.reset is, less one (P12). -/
opaque Config.openCost : Nat → Nat

/-- How far `BUDGET` of the machine that State.reset is lies above the least value R410 allows (P12). -/
opaque Config.openBudget : Nat

/-- `TOTAL_LINES` of the machine that State.reset is (P13). -/
opaque Config.openTotalLines : Nat

/-- The cost table of the machine that State.reset is: positive, otherwise free. -/
def Config.resetCost : Vector Nat 28 := Vector.ofFn fun k => Config.openCost k.val + 1

/-- The parameters of the machine that State.reset is, for a variant: the defaults of R13 where it names one, a free
value where it names none. The budget is free among the values above every cost. -/
def Config.start (v : Variant) : Config where
  variant := v
  unlimitedSprites := false
  writeUpdatesPrefetch := true
  collideTransparent := false
  relockOnOther57 := true
  statusIdH := 0x00
  statusIdE := Config.openStatusIdE
  statusE := Vector.ofFn fun k => Config.openStatusE k.val
  budget := Config.resetCost.toList.foldr max 0 + 1 + Config.openBudget
  cost := Config.resetCost
  totalLines := Config.openTotalLines

end Sys2Proof
end

