-- ==== Sys2Proof/Machine/Chip.lean ====
section
/-! DEFINITION. Machine/Chip.lean: the state tuple of one chip instance (10_state R30 to R54) as plain data, the
per-variant sizes of 00_scope R13, its reset value (70_reset_and_hazards R700) and the relations between its fields
that the spec says always hold. -/

namespace Sys2Proof.Machine

/-- A one-bit phase flag: first or second byte of a pair (10_state R43, R45). -/
inductive Phase where
  | first
  | second
deriving DecidableEq, Repr

/-- The opcodes that can be running (10_state R51). -/
inductive Op where
  | srch
  | line
  | lmmv
  | lmmm
  | lmcm
  | lmmc
  | hmmv
  | hmmm
  | ymmm
  | hmmc
deriving DecidableEq, Repr

/-- The Command Engine's state (10_state R51). -/
inductive Engine where
  | idle
  | running (op : Op)
deriving DecidableEq, Repr

/-- The display modes (41_register_bank R270, R271). -/
inductive Mode where
  | G1
  | G2
  | MC
  | T1
  | BT
  | BMC
  | ILL
  | T2
  | G3
  | G4
  | G5
  | G6
  | G7
deriving DecidableEq, Repr

/-- The Command Unit State (10_state R52): integers are mathematical integers (00_scope R16). -/
structure Mmc where
  CM : Nibble
  LO : Nibble
  SX : Int
  SY : Int
  DX : Int
  DY : Int
  TX : Int
  TY : Int
  NX : Int
  NY : Int
  ASX : Int
  ADX : Int
  ANX : Int
  CL : Byte
  MXS : Bool
  MXD : Bool
  MX : Int
  /-- The ARG byte R460 fetches: its bit 0 is the MAJ of LINE (assumption log 10). -/
  arg : Byte
deriving DecidableEq, Repr

/-- `mmc <- 0`: every field is 0 in Idle (10_state R52). -/
def mmcZero : Mmc where
  CM := 0
  LO := 0
  SX := 0
  SY := 0
  DX := 0
  DY := 0
  TX := 0
  TY := 0
  NX := 0
  NY := 0
  ASX := 0
  ADX := 0
  ANX := 0
  CL := 0
  MXS := false
  MXD := false
  MX := 0
  arg := 0

/-- The status registers (10_state R47, R48): S#0, the flag of S#1, the flags of S#2, S#7, S#8 and S#9. -/
structure Status where
  s0 : Byte
  fh : Bool
  tr : Bool
  bd : Bool
  ce : Bool
  s7 : Byte
  s8 : Byte
  s9 : Byte
deriving DecidableEq, Repr

/-- The lock of variant E (10_state R46). -/
structure Lock where
  unlocked : Bool
  unlockCount : Fin 2
deriving DecidableEq, Repr

/-- One palette entry of variant H: three bits each (10_state R45). -/
structure Rgb where
  red : BitVec 3
  green : BitVec 3
  blue : BitVec 3
deriving DecidableEq, Repr

/-- A byte array in canonical form: the bytes that are not 0, by rising address (assumption log 5). -/
abbrev Memory := List Host.Cell

/-- The state tuple of one chip instance (10_state R30). -/
structure Chip where
  /-- Main VRAM (R32). -/
  vram : Memory
  /-- Expansion VRAM, variant H (R32). -/
  exp : Memory
  /-- The register file (R33); entries at or past `nreg` stay 0 (assumption log 14). -/
  reg : Vector Byte 64
  /-- The cursor, bits 13:0 (R42). -/
  cursor : BitVec 14
  /-- The latch phase (R43). -/
  phase : Phase
  /-- The byte of the first phase (R43). -/
  pending : Byte
  /-- The read-ahead byte (R44). -/
  prefetch : Byte
  /-- The status registers (R47, R48). -/
  status : Status
  /-- The interrupt output (R50). -/
  intLine : Bool
  /-- The lock, variant E (R46). -/
  lock : Lock
  /-- The palette of variant E (R45). -/
  paletteE : Vector (BitVec 12) 64
  /-- The palette of variant H (R45). -/
  paletteH : Vector Rgb 16
  /-- The palette phase (R45). -/
  palPhase : Phase
  /-- The first byte of a palette entry (R45). -/
  palPending : Byte
  /-- The Command Engine's state, variant H (R51). -/
  engine : Engine
  /-- The Command Unit State, variant H (R52). -/
  mmc : Mmc
  /-- The remaining budget (R53). -/
  budget : Int
  /-- `frame.collisionReported` (R54). -/
  collisionReported : Bool
deriving DecidableEq, Repr

/-! ## Sizes per variant (00_scope R13) -/

/-- `VRAM_MAIN`. -/
def vramMain : Variant → Nat
  | .B => 16384
  | .E => 16384
  | .H => 131072

/-- `VRAM_EXP`. -/
def vramExp : Variant → Nat
  | .B => 0
  | .E => 0
  | .H => 65536

/-- `NREG`. -/
def nreg : Variant → Nat
  | .B => 8
  | .E => 64
  | .H => 48

/-- `REG_SEL_MASK`, applied to the low six bits of the second address byte. -/
def regSelect : Variant → BitVec 6 → Nat
  | .B, r => (r &&& 0x07).toNat
  | .E, r => r.toNat
  | .H, r => r.toNat

/-! ## Registers -/

/-- `R[n]` (00_scope R15). -/
def Chip.R (c : Chip) (n : Nat) : Byte := c.reg[n]?.getD 0

/-- `R[n] <- v` with no side effect (00_scope R15). -/
def Chip.setR (c : Chip) (n : Nat) (v : Byte) : Chip :=
  { c with reg := c.reg.setIfInBounds n v }

/-- Register reset values: 0x00, except R48 = 0x01 in variant E (70_reset_and_hazards R701). -/
def resetRegs : Variant → Vector Byte 64
  | .B => Vector.replicate 64 0
  | .E => (Vector.replicate 64 0).setIfInBounds 48 0x01
  | .H => Vector.replicate 64 0

/-! ## Memory form -/

/-- What an unlisted address reads as (assumption log 5). -/
def unwritten : Byte := 0

/-- The canonical form of a byte array of `size` bytes: addresses strictly rising and in range, no entry equal to what
an unlisted address reads as. -/
abbrev Memory.wf (size : Nat) (m : Memory) : Prop :=
  m.Pairwise (fun x y => x.1 < y.1) ∧ ∀ cell ∈ m, cell.1 < size ∧ cell.2 ≠ unwritten

/-- The byte array of `size` bytes whose byte at index `a` is `f a`. -/
def Memory.tabulate (size : Nat) (f : Nat → Byte) : Memory :=
  (List.range size).filterMap fun a => if f a = unwritten then none else some (a, f a)

/-! ## Mode (41_register_bank R270, R271) -/

/-- Mode decoding of variants B and E from M1, M2, M3 (R270). -/
def modeBE (m1 m2 m3 : Bool) : Mode :=
  match m1, m2, m3 with
  | false, false, false => .G1
  | false, false, true => .G2
  | false, true, false => .MC
  | true, false, false => .T1
  | true, false, true => .BT
  | false, true, true => .BMC
  | true, true, _ => .ILL

/-- Mode decoding of variant H from M5, M4, M3, M2, M1 (R271). -/
def modeH (m5 m4 m3 m2 m1 : Bool) : Mode :=
  match m5, m4, m3, m2, m1 with
  | false, false, false, false, false => .G1
  | false, false, false, false, true => .T1
  | false, false, false, true, false => .MC
  | false, false, true, false, false => .G2
  | false, true, false, false, false => .G3
  | false, true, false, false, true => .T2
  | false, true, true, false, false => .G4
  | true, false, false, false, false => .G5
  | true, false, true, false, false => .G6
  | true, true, true, false, false => .G7
  | _, _, _, _, _ => .ILL

/-- The mode, a function of R0 and R1 (10_state R38). -/
def modeOf (v : Variant) (c : Chip) : Mode :=
  let m1 := (c.R 1).getLsbD 4
  let m2 := (c.R 1).getLsbD 3
  let m3 := (c.R 0).getLsbD 1
  match v with
  | .B => modeBE m1 m2 m3
  | .E => modeBE m1 m2 m3
  | .H => modeH ((c.R 0).getLsbD 3) ((c.R 0).getLsbD 2) m3 m2 m1

/-- The modes in which the Command Engine works (41_register_bank R272). -/
def commandMode (m : Mode) : Bool :=
  match m with
  | .G4 | .G5 | .G6 | .G7 => true
  | .G1 | .G2 | .MC | .T1 | .BT | .BMC | .ILL | .T2 | .G3 => false

/-! ## Running opcodes -/

/-- `op(cm)`: the running opcode of a command code 6 to 15 (43_command_engine R402, 30_encoding R150). -/
def opOf (cm : Nibble) : Option Op :=
  match cm.toNat with
  | 6 => some .srch
  | 7 => some .line
  | 8 => some .lmmv
  | 9 => some .lmmm
  | 10 => some .lmcm
  | 11 => some .lmmc
  | 12 => some .hmmv
  | 13 => some .hmmm
  | 14 => some .ymmm
  | 15 => some .hmmc
  | _ => none

/-- The opcodes that make progress only on host accesses (10_state R51). -/
def hostDriven : Op → Bool
  | .lmcm | .lmmc | .hmmc => true
  | .srch | .line | .lmmv | .lmmm | .hmmv | .hmmm | .ymmm => false

/-! ## Reset (70_reset_and_hazards R700) -/

/-- The chip after a reset, given what the reset draws: VRAM, expansion VRAM, the prefetch byte and the palettes. -/
def Chip.resetWith (v : Variant) (vram exp : Memory) (prefetch : Byte) (palE : Vector (BitVec 12) 64)
    (palH : Vector Rgb 16) : Chip where
  vram := vram
  exp := exp
  reg := resetRegs v
  cursor := 0
  phase := .first
  pending := 0
  prefetch := prefetch
  status := { s0 := 0, fh := false, tr := false, bd := false, ce := false, s7 := 0, s8 := 0, s9 := 0xFE }
  intLine := false
  lock := { unlocked := false, unlockCount := 0 }
  paletteE := palE
  paletteH := palH
  palPhase := .first
  palPending := 0
  engine := .idle
  mmc := mmcZero
  budget := 0
  collisionReported := false

/-! ## What always holds of a chip -/

/-- TR is 1 exactly while a host-driven opcode runs (43_command_engine R420). -/
def engineHost : Engine → Bool
  | .idle => false
  | .running op => hostDriven op

/-- The Command Unit State is 0 in Idle and holds the running opcode otherwise (10_state R52), and a command runs only
in variant H (R4) in one of G4 to G7 (43_command_engine R430, R453). -/
def engineFits (v : Variant) (c : Chip) : Bool :=
  match c.engine with
  | .idle => c.mmc == mmcZero
  | .running op => opOf c.mmc.CM == some op && v == .H && commandMode (modeOf v c)

/-- A state the block can be in: both byte arrays in canonical form and inside their sizes (R32), no byte past the
register bank (R33), CE as 43_command_engine R401 says, TR as R420 says, and the engine as R52 and R430 say. -/
abbrev Chip.ok (v : Variant) (c : Chip) : Prop :=
  c.vram.wf (vramMain v) ∧ c.exp.wf (vramExp v) ∧
  (∀ n : Fin 64, nreg v ≤ n.val → c.reg[n] = 0) ∧
  c.status.ce = (c.engine != .idle) ∧ c.status.tr = engineHost c.engine ∧ engineFits v c = true

end Sys2Proof.Machine
end

