-- ==== Sys2Proof/Machine/Flags.lean ====
section
/-! DEFINITION. Machine/Flags.lean: the logical operations of the Command Engine (43_command_engine R440, R441) and the
assembly and clearing of the status registers (10_state R47 to R49). -/

namespace Sys2Proof.Machine

/-! ## Logical operations

`p` is the old byte, `cls` the colour shifted to the pixel's place, `m` the mask of the other pixels' bits and `c` the
unshifted colour (R440). -/

/-- LO 0, IMP. -/
def logImp (p cls m : Byte) : Byte := (p &&& m) ||| cls

/-- LO 1, AND. -/
def logAnd (p cls m : Byte) : Byte := p &&& (cls ||| m)

/-- LO 2, OR. -/
def logOr (p cls : Byte) : Byte := p ||| cls

/-- LO 3, EOR. -/
def logEor (p cls : Byte) : Byte := p ^^^ cls

/-- LO 4, NOT. -/
def logNot (p cls m : Byte) : Byte := (p &&& m) ||| ~~~(cls ||| m)

/-- A transparent operation writes only if the colour is not 0 (R440). -/
def transparent (c result : Byte) : Option Byte := if c = 0 then none else some result

/-- `LogOp` (R440): the byte the pixel write stores, or none where nothing is written: a transparent operation with
colour 0, and the undefined operations (R441). -/
def logOp (lo : Nibble) (p cls m c : Byte) : Option Byte :=
  match lo.toNat with
  | 0 => some (logImp p cls m)
  | 1 => some (logAnd p cls m)
  | 2 => some (logOr p cls)
  | 3 => some (logEor p cls)
  | 4 => some (logNot p cls m)
  | 8 => transparent c (logImp p cls m)
  | 9 => transparent c (logAnd p cls m)
  | 10 => transparent c (logOr p cls)
  | 11 => transparent c (logEor p cls)
  | 12 => transparent c (logNot p cls m)
  | _ => none

/-! ## Status registers -/

/-- A flag as bit `k` of a byte. -/
def flagBit (b : Bool) (k : Nat) : Byte := (if b then 1 else 0) <<< k

/-- S#0 after a read: F, 5S and C cleared, the fifth-sprite number kept (40_port_protocol R212). -/
def clearedS0 (s0 : Byte) : Byte := s0 &&& 0x1F

/-- S#1 of variant H (40_port_protocol R213). -/
def statusS1H (cfg : Config) (st : Status) : Byte := ((cfg.statusIdH &&& 0x1F) <<< 1) ||| flagBit st.fh 0

/-- S#1 of variant E: `STATUS_ID_E` with bit 0 replaced by FH (40_port_protocol R217). -/
def statusS1E (cfg : Config) (st : Status) : Byte := (cfg.statusIdE &&& 0xFE) ||| flagBit st.fh 0

/-- The bits 6, 5 and 1 of S#2 (VR, HR and EO), which are draws (40_port_protocol R214). -/
def drawnBitsS2 : Byte := 0x62

/-- S#2 of variant H, with `d` a drawn byte for the bits VR, HR and EO (40_port_protocol R214). -/
def statusS2 (st : Status) (d : Byte) : Byte :=
  flagBit st.tr 7 ||| flagBit st.bd 4 ||| 0x0C ||| flagBit st.ce 0 ||| (d &&& drawnBitsS2)

/-- `Fifth(i)` (42_renderer R343): S#0 with 5S set and the number of the first sprite beyond the cap, unless 5S is
already set. -/
def fifthSprite (s0 : Byte) (i : Nat) : Byte :=
  if s0.getLsbD 6 then s0 else (s0 &&& 0xE0) ||| 0x40 ||| BitVec.ofNat 8 i

end Sys2Proof.Machine
end

