-- ==== Sys2Proof/Syntax.lean ====
section
/-! DEFINITION. Syntax.lean: the calls an agent makes (00_scope R10, 30_encoding R154) and the instructions they decode
to, one constructor per row of spec/opcode_table.json. -/

namespace Sys2Proof

open Machine (Chip)

/-- One call of an agent (00_scope R10, R11): a port access with the byte it moves (30_encoding R140, R154), a driver
call, or a byte of format CMD or LO arriving at register R46 (30_encoding R144, R151; assumption log 8). -/
inductive Call where
  /-- `WA b`: write-address. -/
  | wa (b : Byte)
  /-- `WD b`: write-data. -/
  | wd (b : Byte)
  /-- `RD`: read-data. -/
  | rd
  /-- `RS`: read-status. -/
  | rs
  /-- `WP b`: write-palette. -/
  | wp (b : Byte)
  /-- `WI b`: write-register-indirect. -/
  | wi (b : Byte)
  /-- `render(L)`. -/
  | render (l : Nat)
  /-- `update_command()`, with its refill. -/
  | update
  /-- `reset()`. -/
  | reset
  /-- `snapshot()`. -/
  | snapshot
  /-- `restore(s)`. -/
  | restore (c : Chip)
  /-- `DebugRead(a)` or, with a value, `DebugWrite(a, v)`. -/
  | debug (a : Nat) (w : Option Byte)
  /-- `DebugDump()`. -/
  | dump
  /-- The byte of format CMD written to R46 (30_encoding R144). -/
  | cmd (b : Byte)
  /-- The byte written to R46, named by its logical operation (30_encoding R151). -/
  | lo (b : Byte)
deriving DecidableEq, Repr

/-- The instructions: one constructor per row of spec/opcode_table.json. -/
inductive Instr where
  /-- WA, first phase (40_port_protocol R202). -/
  | waFirst (p : Byte)
  /-- WA, second phase, read setup (R203): address bits 13:8. -/
  | waSetrd (a : BitVec 6)
  /-- WA, second phase, write setup (R204): address bits 13:8. -/
  | waSetwr (a : BitVec 6)
  /-- WA, second phase, register write (R205): bit 6, ignored, and the register number. -/
  | waWreg (s : BitVec 1) (r : BitVec 6)
  /-- WD to VRAM (R207). -/
  | wd (d : Byte)
  /-- WD to the palette, variant E (R208). -/
  | wdPaletteE (d : Byte)
  /-- WD to the palette, variant H (R209). -/
  | wdPaletteH (d : Byte)
  /-- RD (R210). -/
  | rd
  /-- RS of S#0 (R212). -/
  | rsS0
  /-- RS of S#1, variant H (R213). -/
  | rsS1H
  /-- RS of S#2, variant H (R214). -/
  | rsS2H
  /-- RS of S#7, variant H (R215). -/
  | rsS7H
  /-- RS of S#3 to S#6 and S#8 to S#15, variant H (R216). -/
  | rsOtherH
  /-- RS of S#1 to S#15, variant E (R217). -/
  | rsE
  /-- WP (R220). -/
  | wp (d : Byte)
  /-- WI (R222). -/
  | wi (d : Byte)
  /-- RENDER (42_renderer R320). -/
  | render (l : Nat)
  /-- UPDATE (43_command_engine R410). -/
  | update
  /-- RESET (70_reset_and_hazards R700). -/
  | reset
  /-- SNAPSHOT (R710). -/
  | snapshot
  /-- RESTORE (R711). -/
  | restore (c : Chip)
  /-- DEBUG READ/WRITE (R716): the address, and the byte of a write. -/
  | debugReadWrite (a : Nat) (w : Option Byte)
  /-- DEBUG DUMP (R717). -/
  | debugDump
  /-- STOP, CM 0000 (44_command_ops R461). -/
  | stop (x : Nibble)
  /-- Undefined, CM 0001 (R463). -/
  | undefined1 (x : Nibble)
  /-- Undefined, CM 0010 (R463). -/
  | undefined2 (x : Nibble)
  /-- Undefined, CM 0011 (R463). -/
  | undefined3 (x : Nibble)
  /-- POINT, CM 0100 (R464). -/
  | point (x : Nibble)
  /-- PSET, CM 0101 (R466). -/
  | pset (l : Nibble)
  /-- SRCH, CM 0110 (R468). -/
  | srch (x : Nibble)
  /-- LINE, CM 0111 (R472). -/
  | line (l : Nibble)
  /-- LMMV, CM 1000 (R476). -/
  | lmmv (l : Nibble)
  /-- LMMM, CM 1001 (R479). -/
  | lmmm (l : Nibble)
  /-- LMCM, CM 1010 (R483). -/
  | lmcm (x : Nibble)
  /-- LMMC, CM 1011 (R486). -/
  | lmmc (l : Nibble)
  /-- HMMV, CM 1100 (R488). -/
  | hmmv (x : Nibble)
  /-- HMMM, CM 1101 (R489). -/
  | hmmm (x : Nibble)
  /-- YMMM, CM 1110 (R491). -/
  | ymmm (x : Nibble)
  /-- HMMC, CM 1111 (R490). -/
  | hmmc (x : Nibble)
  /-- LO 0000 (43_command_engine R440), with the opcode in the high nibble; so for the rows below. -/
  | loImp (cm : Nibble)
  /-- LO 0001 (R440). -/
  | loAnd (cm : Nibble)
  /-- LO 0010 (R440). -/
  | loOr (cm : Nibble)
  /-- LO 0011 (R440). -/
  | loEor (cm : Nibble)
  /-- LO 0100 (R440). -/
  | loNot (cm : Nibble)
  /-- LO 1000 (R440). -/
  | loTimp (cm : Nibble)
  /-- LO 1001 (R440). -/
  | loTand (cm : Nibble)
  /-- LO 1010 (R440). -/
  | loTor (cm : Nibble)
  /-- LO 1011 (R440). -/
  | loTeor (cm : Nibble)
  /-- LO 1100 (R440). -/
  | loTnot (cm : Nibble)
  /-- LO 0101 (R441). -/
  | loUndefined5 (cm : Nibble)
  /-- LO 0110 (R441). -/
  | loUndefined6 (cm : Nibble)
  /-- LO 0111 (R441). -/
  | loUndefined7 (cm : Nibble)
  /-- LO 1101 (R441). -/
  | loUndefined13 (cm : Nibble)
  /-- LO 1110 (R441). -/
  | loUndefined14 (cm : Nibble)
  /-- LO 1111 (R441). -/
  | loUndefined15 (cm : Nibble)
deriving DecidableEq, Repr

end Sys2Proof
end

