-- ==== Sys2Proof/WellFormed.lean ====
section
/-! DEFINITION. WellFormed.lean: which instructions exist in a machine: the variants column of
spec/opcode_table.json, the range of a line index (42_renderer R320) and what a saved state is
(70_reset_and_hazards R711). -/

namespace Sys2Proof

open Machine (Chip)

/-- The variants column of the table, for the rows that not every variant has (40_port_protocol R200, R208, R209,
R213 to R217, R220, R222; 43_command_engine's opening). The rows of R46 name a register write that every variant can
make (95_test_vectors VC35; assumption log 8). -/
def Instr.inVariant (v : Variant) : Instr → Bool
  | .wdPaletteE _ => v == .E
  | .wdPaletteH _ => v == .H
  | .rsS1H => v == .H
  | .rsS2H => v == .H
  | .rsS7H => v == .H
  | .rsOtherH => v == .H
  | .rsE => v == .E
  | .wp _ => v == .H
  | .wi _ => v == .H
  | .update => v == .H
  | .waFirst _ | .waSetrd _ | .waSetwr _ | .waWreg _ _ | .wd _ | .rd | .rsS0 | .render _ | .reset | .snapshot
  | .restore _ | .debugReadWrite _ _ | .debugDump
  | .stop _ | .undefined1 _ | .undefined2 _ | .undefined3 _ | .point _ | .pset _ | .srch _ | .line _ | .lmmv _ | .lmmm _
  | .lmcm _ | .lmmc _ | .hmmv _ | .hmmm _ | .ymmm _ | .hmmc _
  | .loImp _ | .loAnd _ | .loOr _ | .loEor _ | .loNot _ | .loTimp _ | .loTand _ | .loTor _ | .loTeor _ | .loTnot _
  | .loUndefined5 _ | .loUndefined6 _ | .loUndefined7 _ | .loUndefined13 _ | .loUndefined14 _ | .loUndefined15 _ => true

/-- `0 <= L < TOTAL_LINES` (42_renderer R320); no other instruction has a line index. -/
def Instr.lineInRange (cfg : Config) : Instr → Bool
  | .render l => l < cfg.totalLines
  | _ => true

/-- The operand of a restore is a saved state: one the block can be in (70_reset_and_hazards R710, R711; assumption
log 16). -/
def Instr.savedState (v : Variant) : Instr → Bool
  | .restore c => decide (c.ok v)
  | _ => true

/-- An instruction that exists in a machine with these parameters. -/
def Instr.wf (cfg : Config) (i : Instr) : Bool :=
  i.inVariant cfg.variant && i.lineInRange cfg && i.savedState cfg.variant

end Sys2Proof
end

