-- ==== Sys2Proof/Decode.lean ====
section
/-! DEFINITION. Decode.lean: from a call to its row of spec/opcode_table.json, and back (30_encoding R140 to R153). -/

namespace Sys2Proof

open Machine (Phase)

/-- What decoding depends on besides the call and the variant: the latch phase (30_encoding R140), R47 bit 7 (R153) and
the status select R15 bits 3:0 (40_port_protocol R211). -/
structure Ctx where
  phase : Phase
  dpm : Bool
  sel : Nibble
deriving DecidableEq, Repr

/-- Why a call is no instruction of this machine. -/
inductive Reject where
  /-- A port, palette form, status form or driver call the variant lacks (40_port_protocol R200, 00_scope R4). -/
  | absentInVariant
  /-- A line index at or past `TOTAL_LINES` (42_renderer R320). -/
  | lineOutOfRange
  /-- A restore of what is no saved state (70_reset_and_hazards R711). -/
  | notASavedState
deriving DecidableEq, Repr

/-- The row of a second write-address byte, by its bits 7:6 (30_encoding R141, R149). -/
def decodeSecond (b : Byte) : Instr :=
  if b.getLsbD 7 then .waWreg (b.extractLsb' 6 1) (b.extractLsb' 0 6)
  else if b.getLsbD 6 then .waSetwr (b.extractLsb' 0 6)
  else .waSetrd (b.extractLsb' 0 6)

/-- The row of a status read, by the selected status register (40_port_protocol R211 to R217). -/
def decodeStatus (v : Variant) (sel : Nibble) : Instr :=
  match v with
  | .B => .rsS0
  | .E => if sel = 0 then .rsS0 else .rsE
  | .H =>
    if sel = 0 then .rsS0
    else if sel = 1 then .rsS1H
    else if sel = 2 then .rsS2H
    else if sel = 7 then .rsS7H
    else .rsOtherH

/-- The row of a write-data byte: the palette data-port mode routes it (30_encoding R153, 40_port_protocol R207 to
R209). -/
def decodeData (v : Variant) (dpm : Bool) (b : Byte) : Instr :=
  match v, dpm with
  | .E, true => .wdPaletteE b
  | .H, true => .wdPaletteH b
  | .B, _ => .wd b
  | .E, false => .wd b
  | .H, false => .wd b

/-- The row of a command byte, by its high nibble (30_encoding R144, R150). -/
def decodeCommand (b : Byte) : Instr :=
  let x : Nibble := b.extractLsb' 0 4
  match (b.extractLsb' 4 4).toNat with
  | 0 => .stop x
  | 1 => .undefined1 x
  | 2 => .undefined2 x
  | 3 => .undefined3 x
  | 4 => .point x
  | 5 => .pset x
  | 6 => .srch x
  | 7 => .line x
  | 8 => .lmmv x
  | 9 => .lmmm x
  | 10 => .lmcm x
  | 11 => .lmmc x
  | 12 => .hmmv x
  | 13 => .hmmm x
  | 14 => .ymmm x
  | _ => .hmmc x

/-- The row of a command byte, by its low nibble (30_encoding R151). -/
def decodeLogical (b : Byte) : Instr :=
  let cm : Nibble := b.extractLsb' 4 4
  match (b.extractLsb' 0 4).toNat with
  | 0 => .loImp cm
  | 1 => .loAnd cm
  | 2 => .loOr cm
  | 3 => .loEor cm
  | 4 => .loNot cm
  | 5 => .loUndefined5 cm
  | 6 => .loUndefined6 cm
  | 7 => .loUndefined7 cm
  | 8 => .loTimp cm
  | 9 => .loTand cm
  | 10 => .loTor cm
  | 11 => .loTeor cm
  | 12 => .loTnot cm
  | 13 => .loUndefined13 cm
  | 14 => .loUndefined14 cm
  | _ => .loUndefined15 cm

/-- The row of a call. -/
def decodeRow (v : Variant) (ctx : Ctx) : Call → Instr
  | .wa b =>
    match ctx.phase with
    | .first => .waFirst b
    | .second => decodeSecond b
  | .wd b => decodeData v ctx.dpm b
  | .rd => .rd
  | .rs => decodeStatus v ctx.sel
  | .wp b => .wp b
  | .wi b => .wi b
  | .render l => .render l
  | .update => .update
  | .reset => .reset
  | .snapshot => .snapshot
  | .restore c => .restore c
  | .debug a w => .debugReadWrite a w
  | .dump => .debugDump
  | .cmd b => decodeCommand b
  | .lo b => decodeLogical b

/-- The instruction of a call, or why this machine has none. -/
def decode (cfg : Config) (ctx : Ctx) (call : Call) : Except Reject Instr :=
  let i := decodeRow cfg.variant ctx call
  if i.inVariant cfg.variant = false then .error .absentInVariant
  else if i.lineInRange cfg = false then .error .lineOutOfRange
  else if i.savedState cfg.variant = false then .error .notASavedState
  else .ok i

/-- The call of an instruction: its bytes as spec/opcode_table.json and 30_encoding R141, R144, R151 lay them out. -/
def encode : Instr → Call
  | .waFirst p => .wa p
  | .waSetrd a => .wa (0b00#2 ++ a)
  | .waSetwr a => .wa (0b01#2 ++ a)
  | .waWreg s r => .wa (0b1#1 ++ s ++ r)
  | .wd d => .wd d
  | .wdPaletteE d => .wd d
  | .wdPaletteH d => .wd d
  | .rd => .rd
  | .rsS0 => .rs
  | .rsS1H => .rs
  | .rsS2H => .rs
  | .rsS7H => .rs
  | .rsOtherH => .rs
  | .rsE => .rs
  | .wp d => .wp d
  | .wi d => .wi d
  | .render l => .render l
  | .update => .update
  | .reset => .reset
  | .snapshot => .snapshot
  | .restore c => .restore c
  | .debugReadWrite a w => .debug a w
  | .debugDump => .dump
  | .stop x => .cmd (0b0000#4 ++ x)
  | .undefined1 x => .cmd (0b0001#4 ++ x)
  | .undefined2 x => .cmd (0b0010#4 ++ x)
  | .undefined3 x => .cmd (0b0011#4 ++ x)
  | .point x => .cmd (0b0100#4 ++ x)
  | .pset l => .cmd (0b0101#4 ++ l)
  | .srch x => .cmd (0b0110#4 ++ x)
  | .line l => .cmd (0b0111#4 ++ l)
  | .lmmv l => .cmd (0b1000#4 ++ l)
  | .lmmm l => .cmd (0b1001#4 ++ l)
  | .lmcm x => .cmd (0b1010#4 ++ x)
  | .lmmc l => .cmd (0b1011#4 ++ l)
  | .hmmv x => .cmd (0b1100#4 ++ x)
  | .hmmm x => .cmd (0b1101#4 ++ x)
  | .ymmm x => .cmd (0b1110#4 ++ x)
  | .hmmc x => .cmd (0b1111#4 ++ x)
  | .loImp cm => .lo (cm ++ 0b0000#4)
  | .loAnd cm => .lo (cm ++ 0b0001#4)
  | .loOr cm => .lo (cm ++ 0b0010#4)
  | .loEor cm => .lo (cm ++ 0b0011#4)
  | .loNot cm => .lo (cm ++ 0b0100#4)
  | .loTimp cm => .lo (cm ++ 0b1000#4)
  | .loTand cm => .lo (cm ++ 0b1001#4)
  | .loTor cm => .lo (cm ++ 0b1010#4)
  | .loTeor cm => .lo (cm ++ 0b1011#4)
  | .loTnot cm => .lo (cm ++ 0b1100#4)
  | .loUndefined5 cm => .lo (cm ++ 0b0101#4)
  | .loUndefined6 cm => .lo (cm ++ 0b0110#4)
  | .loUndefined7 cm => .lo (cm ++ 0b0111#4)
  | .loUndefined13 cm => .lo (cm ++ 0b1101#4)
  | .loUndefined14 cm => .lo (cm ++ 0b1110#4)
  | .loUndefined15 cm => .lo (cm ++ 0b1111#4)

/-- The condition column of spec/opcode_table.json: the phase, the palette data-port mode and the status select under
which a call is this row. -/
def Instr.fits (v : Variant) (ctx : Ctx) : Instr → Bool
  | .waFirst _ => ctx.phase == .first
  | .waSetrd _ => ctx.phase == .second
  | .waSetwr _ => ctx.phase == .second
  | .waWreg _ _ => ctx.phase == .second
  | .wd _ => v == .B || !ctx.dpm
  | .wdPaletteE _ => ctx.dpm
  | .wdPaletteH _ => ctx.dpm
  | .rsS0 => v == .B || ctx.sel == 0
  | .rsS1H => ctx.sel == 1
  | .rsS2H => ctx.sel == 2
  | .rsS7H => ctx.sel == 7
  | .rsOtherH => ctx.sel != 0 && ctx.sel != 1 && ctx.sel != 2 && ctx.sel != 7
  | .rsE => ctx.sel != 0
  | .rd | .wp _ | .wi _ | .render _ | .update | .reset | .snapshot | .restore _ | .debugReadWrite _ _ | .debugDump
  | .stop _ | .undefined1 _ | .undefined2 _ | .undefined3 _ | .point _ | .pset _ | .srch _ | .line _ | .lmmv _ | .lmmm _
  | .lmcm _ | .lmmc _ | .hmmv _ | .hmmm _ | .ymmm _ | .hmmc _
  | .loImp _ | .loAnd _ | .loOr _ | .loEor _ | .loNot _ | .loTimp _ | .loTand _ | .loTor _ | .loTeor _ | .loTnot _
  | .loUndefined5 _ | .loUndefined6 _ | .loUndefined7 _ | .loUndefined13 _ | .loUndefined14 _ | .loUndefined15 _ => true

/-! ## A bare table word

A word of the table is one byte and does not say on which port it moves, so rows of different formats share words
(assumption log 9). A bare byte is read as the byte written to R46, the one format whose rows name every byte; the
fifteen words whose high nibble is 0 and whose low nibble is not are read by the low nibble, which names the logical
operation. Either reading is the same register write. -/

/-- The call of a bare table word. -/
def tableCall (w : Nat) : Option Call :=
  if w < 256 then
    if w / 16 = 0 ∧ w % 16 ≠ 0 then some (.lo (BitVec.ofNat 8 w)) else some (.cmd (BitVec.ofNat 8 w))
  else none

/-- The instruction of a bare table word; no row of the table is longer than a byte. -/
def decodeTableWord (nbits w : Nat) : Option Instr :=
  if nbits ≤ 8 then
    match tableCall w with
    | some call =>
      match decode (Config.start .H) { phase := .first, dpm := false, sel := 0 } call with
      | .ok i => some i
      | .error _ => none
    | none => none
  else none

end Sys2Proof
end

