-- ==== Sys2Proof/Machine/State.lean ====
section
/-! DEFINITION. Machine/State.lean: the whole state of the model: the chip (10_state R30), the parameters (00_scope
R13), the calls still to come, what the last call returned and the count of free values drawn. -/

namespace Sys2Proof.Machine

/-- The table geometry and the values derived from the registers (41_register_bank R275 to R283), as the dump shows
them (70_reset_and_hazards R717). -/
structure Geometry where
  mode : Mode
  NT : Nat
  CT : Nat
  CTM : Nat
  PG : Nat
  PGM : Nat
  SA : Nat
  SG : Nat
  NP : Nat
  TC : Byte
  BD : Byte
  SZ : Nat
  MG : Nat
deriving DecidableEq, Repr

/-- What a call returns. -/
inductive Output where
  /-- Nothing. -/
  | none
  /-- The byte of a read. -/
  | byte (v : Byte)
  /-- The colour indices of a rendered line (42_renderer R320). -/
  | line (px : List Byte)
  /-- A saved state (70_reset_and_hazards R710). -/
  | saved (c : Chip)
  /-- The registers of the bank, the status registers and the geometry (R717). -/
  | dump (regs : List Byte) (status : Status) (geometry : Geometry)
deriving DecidableEq, Repr

/-- No constructor: the block raises no exception and nothing stops it (60_exceptions R600, R603). Safe: no run ends in
a fault. -/
inductive Fault where
deriving DecidableEq, Repr

/-- Why a step has no meaning. Each is safe: the run stops, nothing is claimed of it. -/
inductive Refusal where
  /-- An instruction that has no meaning yet, raised by `exec`'s arm. Safe. -/
  | notModelled (mnemonic : String)
  /-- A call on a port, palette form, status form or driver call the variant lacks, raised by decoding and by the
  meaning (40_port_protocol R200, 00_scope R4). Safe. -/
  | absentInVariant
  /-- `render(L)` with `L` at or past `TOTAL_LINES`, raised by decoding and by the meaning (42_renderer R320). Safe. -/
  | lineOutOfRange
  /-- A restore of what is no saved state, raised by decoding and by the meaning (70_reset_and_hazards R711). Safe. -/
  | notASavedState
  /-- `render` in variant E with a register of the enhanced chip's own rendering features not 0 (42_renderer R398). Safe. -/
  | extendedRendering
  /-- `render` of a visible line in variant H in mode G3 or T2 (42_renderer R399). Safe. -/
  | modeNotDescribed
  /-- `render` of a visible line in variant H that would show sprite mode 2 (R399). Safe. -/
  | spriteMode2
  /-- `render` of a visible line in variant H with R23 not 0 (R399). Safe. -/
  | verticalOffset
  /-- `render` of a visible line in variant H with R9 bit 3 (R399). Safe. -/
  | interlace
  /-- `render` of a visible line in variant H with R9 bit 2 (R399). Safe. -/
  | evenOddPages
deriving DecidableEq, Repr

/-- The state of the model. -/
structure State where
  /-- The parameters; no step changes them (10_state R31; assumption log 1). -/
  cfg : Config
  /-- The state tuple of the block (10_state R30). -/
  chip : Chip
  /-- The calls still to come, the next one first (00_scope R11; assumption log 2). -/
  input : List Call
  /-- What the last call returned (assumption log 3). -/
  out : Output
  /-- How many free values have been drawn (assumption log 4). -/
  draws : Nat
deriving DecidableEq, Repr

/-- The chip right after a reset whose draws take the values the model names: VRAM all unwritten, the prefetch byte and
the palettes 0 (70_reset_and_hazards R700; assumption log 5, 6). -/
def Chip.start (v : Variant) : Chip :=
  Chip.resetWith v [] [] 0 (Vector.replicate 64 0) (Vector.replicate 16 { red := 0, green := 0, blue := 0 })

/-- The machine of a variant right after reset (R700). -/
def State.start (v : Variant) : State where
  cfg := Config.start v
  chip := Chip.start v
  input := []
  out := .none
  draws := 0

/-- The machine right after reset: variant H, which has every port, register and call of the table that one variant can
have (assumption log 1). -/
def State.reset : State := State.start .H

end Sys2Proof.Machine
end

