-- ==== Sys2Proof/Machine/Operands.lean ====
section
/-! DEFINITION. Machine/Operands.lean: operand assembly (30_encoding R148), the derived geometry (41_register_bank R272 to
R283), the per-mode engine parameters and the byte address of a pixel (43_command_engine R430 to R433). -/

namespace Sys2Proof.Machine

/-! ## Integers (00_scope R16)

`&` on a possibly negative integer is two's complement; for a mask of low ones it is the remainder, for one bit it is
the parity of the floor quotient. -/

/-- `x & (2^k - 1)` as a number. -/
def lowBits (x : Int) (k : Nat) : Nat := (x % (2 ^ k : Int)).toNat

/-- `(x & mx) ≠ 0` for `mx` a power of two: the X border test of 44_command_ops. -/
def crosses (x mx : Int) : Bool := (x / mx) % 2 != 0

/-! ## Register operands -/

/-- A register pair: the lower-numbered register holds bits 7:0 (20_memory R104), of which the low `k` bits count. -/
def pair (c : Chip) (n k : Nat) : Nat := ((c.R n).toNat + 256 * (c.R (n + 1)).toNat) % 2 ^ k

/-- The configured increment as 14-bit arithmetic: `sext_8(R[48])` in E, one in B and H (40_port_protocol R201). -/
def increment (v : Variant) (c : Chip) : BitVec 14 :=
  match v with
  | .B => 1
  | .E => (c.R 48).signExtend 14
  | .H => 1

/-- The status select: R15 bits 3:0 in E and H, 0 in B (40_port_protocol R211). -/
def statusSelect (v : Variant) (c : Chip) : Nibble :=
  match v with
  | .B => 0
  | .E => (c.R 15).extractLsb' 0 4
  | .H => (c.R 15).extractLsb' 0 4

/-- The palette data-port mode: R47 bit 7 in E and H (30_encoding R153). -/
def palettePort (v : Variant) (c : Chip) : Bool :=
  match v with
  | .B => false
  | .E => (c.R 47).getLsbD 7
  | .H => (c.R 47).getLsbD 7

/-- What the decoding of the next call depends on. -/
def decodeCtx (v : Variant) (c : Chip) : Ctx where
  phase := c.phase
  dpm := palettePort v c
  sel := statusSelect v c

/-! ## Mode properties (41_register_bank R272) -/

/-- The bitmap modes, whose colour and pattern tables are masked. -/
def bitmapMode (m : Mode) : Bool :=
  match m with
  | .G2 | .BT | .BMC => true
  | .G1 | .MC | .T1 | .ILL | .T2 | .G3 | .G4 | .G5 | .G6 | .G7 => false

/-- The modes with sprite mode 1. -/
def spriteMode (m : Mode) : Bool :=
  match m with
  | .G1 | .G2 | .MC | .BMC => true
  | .T1 | .BT | .ILL | .T2 | .G3 | .G4 | .G5 | .G6 | .G7 => false

/-! ## Derived geometry (41_register_bank R275 to R283) -/

/-- `ADDR_MASK + 1`: the number of addresses of the renderer's address width (00_scope R13). -/
def addrSize : Variant → Nat
  | .B => 0x4000
  | .E => 0x4000
  | .H => 0x20000

/-- `NT` (R275). -/
def nameBase (v : Variant) (c : Chip) : Nat :=
  match v with
  | .B => (c.R 2 &&& 0x0F).toNat <<< 10
  | .E => (c.R 2 &&& 0x0F).toNat <<< 10
  | .H => (c.R 2 &&& 0x7F).toNat <<< 10

/-- `CThi` (R276). -/
def colourHigh (v : Variant) (c : Chip) : Nat :=
  match v with
  | .B => 0
  | .E => 0
  | .H => (c.R 10 &&& 0x07).toNat <<< 14

/-- `CT` (R276). -/
def colourBase (v : Variant) (c : Chip) : Nat :=
  if bitmapMode (modeOf v c) then colourHigh v c ||| ((c.R 3 &&& 0x80).toNat <<< 6)
  else colourHigh v c ||| ((c.R 3).toNat <<< 6)

/-- `CTM` (R276), used in the bitmap modes; what the dump shows elsewhere: `geometry`. -/
def colourMask (c : Chip) : Nat := ((c.R 3 &&& 0x7F).toNat <<< 6) ||| 0x3F

/-- `PG` (R277). -/
def patternBase (v : Variant) (c : Chip) : Nat :=
  if bitmapMode (modeOf v c) then
    match v with
    | .B => (c.R 4 &&& 0x04).toNat <<< 11
    | .E => (c.R 4 &&& 0x04).toNat <<< 11
    | .H => (c.R 4 &&& 0x3C).toNat <<< 11
  else
    match v with
    | .B => (c.R 4 &&& 0x07).toNat <<< 11
    | .E => (c.R 4 &&& 0x07).toNat <<< 11
    | .H => (c.R 4 &&& 0x3F).toNat <<< 11

/-- `PGM` (R277), used in the bitmap modes; what the dump shows elsewhere: `geometry`. -/
def patternMask (c : Chip) : Nat := ((c.R 4 &&& 0x03).toNat <<< 11) ||| (colourMask c &&& 0x7FF)

/-- `SA` (R278). -/
def spriteBase (v : Variant) (c : Chip) : Nat :=
  match v with
  | .B => (c.R 5 &&& 0x7F).toNat <<< 7
  | .E => (c.R 5 &&& 0x7F).toNat <<< 7
  | .H => ((c.R 11 &&& 0x03).toNat <<< 15) ||| ((c.R 5).toNat <<< 7)

/-- `SG` (R279). -/
def spritePatternBase (v : Variant) (c : Chip) : Nat :=
  match v with
  | .B => (c.R 6 &&& 0x07).toNat <<< 11
  | .E => (c.R 6 &&& 0x07).toNat <<< 11
  | .H => (c.R 6 &&& 0x3F).toNat <<< 11

/-- `NP` (R280), the page of the pixel modes: G4 and G5, or G6 and G7. R280 gives no value for the other modes: there the model
takes the formula of G4 and G5 (DESIGN CHOICE, assumption log 28), which only the dump shows. -/
def pageBase (v : Variant) (c : Chip) : Nat :=
  match modeOf v c with
  | .G6 | .G7 => (c.R 2 &&& 0x20).toNat <<< 11
  | .G1 | .G2 | .MC | .T1 | .BT | .BMC | .ILL | .T2 | .G3 | .G4 | .G5 => (c.R 2 &&& 0x60).toNat <<< 10

/-- `TC` (R282). -/
def textColour (c : Chip) : Byte := c.R 7 >>> 4

/-- The backdrop: R7 bits 3:0, in G7 all of R7 (R282, 42_renderer R325). -/
def backdrop (v : Variant) (c : Chip) : Byte :=
  if modeOf v c = .G7 then c.R 7 else c.R 7 &&& 0x0F

/-- `SZ` (R283). -/
def spriteSize (c : Chip) : Nat := if (c.R 1).getLsbD 1 then 16 else 8

/-- `MG` (R283). -/
def spriteMag (c : Chip) : Nat := if (c.R 1).getLsbD 0 then 2 else 1

/-- All derived values (70_reset_and_hazards R717). In the modes other than G2, BT and BMC, R276 and R277 say that there is no mask: CTM
and PGM show the value of the bitmap modes' formulas there, in every variant (DESIGN CHOICE, assumption log 29; in G1 after a reset it
is the 0x003F of R702). For NP outside G4 to G7 see `pageBase` (assumption log 28). -/
def geometry (v : Variant) (c : Chip) : Geometry where
  mode := modeOf v c
  NT := nameBase v c
  CT := colourBase v c
  CTM := colourMask c
  PG := patternBase v c
  PGM := patternMask c
  SA := spriteBase v c
  SG := spritePatternBase v c
  NP := pageBase v c
  TC := textColour c
  BD := backdrop v c
  SZ := spriteSize c
  MG := spriteMag c

/-- `VISIBLE_LINES` (70_reset_and_hazards R732). -/
def visibleLines (v : Variant) (c : Chip) : Nat :=
  match v with
  | .B => 192
  | .E => 192
  | .H => if (c.R 9).getLsbD 7 then 212 else 192

/-! ## Engine parameters per mode (43_command_engine R430)

No command runs outside G4 to G7; the other modes take the values of G7 (assumption log 12). -/

/-- `PPB`, pixels per byte. -/
def pixelsPerByte (m : Mode) : Int :=
  match m with
  | .G4 => 2
  | .G5 => 4
  | .G6 => 2
  | .G7 | .G1 | .G2 | .MC | .T1 | .BT | .BMC | .ILL | .T2 | .G3 => 1

/-- `MX`, the X border. -/
def borderX (m : Mode) : Int :=
  match m with
  | .G4 => 256
  | .G5 => 512
  | .G6 => 512
  | .G7 | .G1 | .G2 | .MC | .T1 | .BT | .BMC | .ILL | .T2 | .G3 => 256

/-- `Mask`, the colour mask. -/
def colourBits (m : Mode) : Byte :=
  match m with
  | .G4 => 0x0F
  | .G5 => 0x03
  | .G6 => 0x0F
  | .G7 | .G1 | .G2 | .MC | .T1 | .BT | .BMC | .ILL | .T2 | .G3 => 0xFF

/-- How far pixel X lies from bit 0 of its byte (R434): `(~X & 1) << 2` in G4 and G6, `(~X & 3) << 1` in G5. -/
def pixelShift (m : Mode) (x : Int) : Nat :=
  match m with
  | .G4 => (1 - lowBits x 1) * 4
  | .G5 => (3 - lowBits x 2) * 2
  | .G6 => (1 - lowBits x 1) * 4
  | .G7 | .G1 | .G2 | .MC | .T1 | .BT | .BMC | .ILL | .T2 | .G3 => 0

/-- `VAddr(X, Y)` (R431 to R433). -/
def vaddr (m : Mode) (x y : Int) : Nat :=
  match m with
  | .G4 => lowBits y 10 * 128 + lowBits x 8 / 2
  | .G5 => lowBits y 10 * 128 + lowBits x 9 / 4
  | .G6 => lowBits (x / 2) 1 * 65536 + lowBits y 9 * 128 + lowBits x 9 / 4
  | .G7 | .G1 | .G2 | .MC | .T1 | .BT | .BMC | .ILL | .T2 | .G3 =>
    lowBits x 1 * 65536 + lowBits y 9 * 128 + lowBits (x / 2) 7

end Sys2Proof.Machine
end

