-- ==== Sys2Proof/Machine/Ops.lean ====
section
/-! DEFINITION. Machine/Ops.lean: the named operations over memory, the cursor, the palette, the pixels and the interrupt
output. -/

namespace Sys2Proof.Machine

/-! ## Byte arrays -/

/-- The byte at an index. -/
def Memory.read : Memory → Nat → Byte
  | [], _ => unwritten
  | (k, w) :: m, a => if k = a then w else Memory.read m a

/-- The array with the byte at an index replaced, in canonical form again. -/
def Memory.write : Memory → Nat → Byte → Memory
  | [], a, v => if v = unwritten then [] else [(a, v)]
  | (k, w) :: m, a, v =>
    if a < k then (if v = unwritten then (k, w) :: m else (a, v) :: (k, w) :: m)
    else if a = k then (if v = unwritten then m else (a, v) :: m)
    else (k, w) :: Memory.write m a v

/-- A physical byte: in main or in expansion VRAM (20_memory R100). -/
inductive Place where
  | main (a : Nat)
  | exp (a : Nat)
deriving DecidableEq, Repr

/-- The byte at a place. -/
def Chip.readAt (c : Chip) : Place → Byte
  | .main a => Memory.read c.vram a
  | .exp a => Memory.read c.exp a

/-- The chip with the byte at a place replaced. -/
def Chip.writeAt (c : Chip) (p : Place) (v : Byte) : Chip :=
  match p with
  | .main a => { c with vram := Memory.write c.vram a v }
  | .exp a => { c with exp := Memory.write c.exp a v }

/-! ## The port path (20_memory R102, 40_port_protocol R201) -/

/-- The 17-bit port address of variant H: R14 bits 2:0 over the cursor (20_memory R102). -/
def portAddress (c : Chip) : Nat := (c.R 14 &&& 0x07).toNat * 16384 + c.cursor.toNat

/-- The byte the interleave of G6 and G7 maps a port address to (20_memory R102). -/
def interleave (a : Nat) : Nat := (a % 2) * 65536 + a / 2

/-- `PortPhys(cursor)` (20_memory R102). -/
def portPlace (v : Variant) (c : Chip) : Place :=
  match v with
  | .B => .main c.cursor.toNat
  | .E => .main c.cursor.toNat
  | .H =>
    if (c.R 45).getLsbD 6 then .exp (portAddress c % 65536)
    else
      match modeOf .H c with
      | .G6 | .G7 => .main (interleave (portAddress c))
      | .G1 | .G2 | .MC | .T1 | .BT | .BMC | .ILL | .T2 | .G3 | .G4 | .G5 => .main (portAddress c)

/-- `PortRead()`. -/
def portRead (v : Variant) (c : Chip) : Byte := c.readAt (portPlace v c)

/-- `PortWrite(b)`. -/
def portWrite (v : Variant) (c : Chip) (b : Byte) : Chip := c.writeAt (portPlace v c) b

/-- The carry of variant H's cursor into R14, in G4 to G7 (40_port_protocol R201). -/
def carryR14 (c : Chip) : Chip :=
  if commandMode (modeOf .H c) then c.setR 14 ((c.R 14 &&& 0x07) + 1 &&& 0x07) else c

/-- `Advance()` (40_port_protocol R201). -/
def advance (v : Variant) (c : Chip) : Chip :=
  match v with
  | .B => { c with cursor := c.cursor + increment .B c }
  | .E => { c with cursor := c.cursor + increment .E c }
  | .H =>
    let c' := if c.cursor = 0x3FFF then carryR14 c else c
    { c' with cursor := c.cursor + increment .H c }

/-! ## The palette (40_port_protocol R208, R209, R220) -/

/-- The entry two bytes of variant H's format make (30_encoding R146). -/
def rgbOf (b1 b2 : Byte) : Rgb where
  red := b1.extractLsb' 4 3
  green := b2.extractLsb' 0 3
  blue := b1.extractLsb' 0 3

/-- One byte of a variant H palette entry, by either port (R209, R220). -/
def paletteByteH (c : Chip) (b : Byte) : Chip :=
  match c.palPhase with
  | .first => { c with palPending := b, palPhase := .second }
  | .second =>
    let i := (c.R 16 &&& 0x0F).toNat
    { c.setR 16 ((c.R 16 &&& 0xF0) ||| ((c.R 16 &&& 0x0F) + 1 &&& 0x0F)) with
      paletteH := c.paletteH.setIfInBounds i (rgbOf c.palPending b), palPhase := .first }

/-- R47 after an entry of variant E: the next index, or the end of the data-port mode (R208). -/
def nextR47 (r : Byte) : Byte :=
  if r.getLsbD 6 then (r &&& 0xC0) ||| ((r &&& 0x3F) + 1 &&& 0x3F) else r &&& 0x7F

/-- The 12-bit entry two bytes of variant E's format make (30_encoding R147). -/
def entryOf (b1 b2 : Byte) : BitVec 12 := b1.extractLsb' 0 4 ++ b2

/-- One byte of a variant E palette entry (R208). -/
def paletteByteE (c : Chip) (b : Byte) : Chip :=
  match c.palPhase with
  | .first => { c with palPending := b, palPhase := .second }
  | .second =>
    let i := (c.R 47 &&& 0x3F).toNat
    { c.setR 47 (nextR47 (c.R 47)) with
      paletteE := c.paletteE.setIfInBounds i (entryOf c.palPending b), palPhase := .first }

/-! ## The interrupt output (60_exceptions R610, R611)

The block takes no exception; an event sets a flag and, where its enable is 1, the one latch `intLine`. -/

/-- `FrameEvent()` (R610). -/
def frameEvent (c : Chip) : Chip :=
  { c with status := { c.status with s0 := c.status.s0 ||| 0x80 }, intLine := c.intLine || (c.R 1).getLsbD 5 }

/-- `LineEvent()` (R610). -/
def lineEvent (c : Chip) : Chip :=
  { c with status := { c.status with fh := true }, intLine := c.intLine || (c.R 0).getLsbD 4 }

/-- The acknowledgement by a read of S#0 (R611, 40_port_protocol R212). -/
def acknowledge (c : Chip) : Chip :=
  { c with status := { c.status with s0 := clearedS0 c.status.s0 }, intLine := false }

/-! ## Pixels (43_command_engine R434) -/

/-- `Mem(a, MXf)`: the place of a byte address, by the expansion flag. -/
def enginePlace (mxf : Bool) (a : Nat) : Place := if mxf then .exp (a % 65536) else .main (a % 131072)

/-- The place of the byte that holds pixel (X, Y) in the current mode of variant H. -/
def pixelPlace (c : Chip) (mxf : Bool) (x y : Int) : Place := enginePlace mxf (vaddr (modeOf .H c) x y)

/-- `PointAt(X, Y, MXf)`. -/
def pointAt (c : Chip) (mxf : Bool) (x y : Int) : Byte :=
  (c.readAt (pixelPlace c mxf x y) >>> pixelShift (modeOf .H c) x) &&& colourBits (modeOf .H c)

/-- What `PsetAt` stores in a byte whose old value is `p`, or none where it writes nothing (R434, R440, R441). -/
def psetByte (m : Mode) (x : Int) (p col : Byte) (lo : Nibble) : Option Byte :=
  logOp lo p (col <<< pixelShift m x) (~~~(colourBits m <<< pixelShift m x)) col

/-- `PsetAt(X, Y, MXf, C, LO)`. -/
def psetAt (c : Chip) (mxf : Bool) (x y : Int) (col : Byte) (lo : Nibble) : Chip :=
  match psetByte (modeOf .H c) x (c.readAt (pixelPlace c mxf x y)) col lo with
  | some b => c.writeAt (pixelPlace c mxf x y) b
  | none => c

/-! ## The debug path (70_reset_and_hazards R716) -/

/-- The place of an absolute address, taken modulo the total size. -/
def debugPlace (v : Variant) (a : Nat) : Place :=
  let k := a % (vramMain v + vramExp v)
  if k < vramMain v then .main k else .exp (k - vramMain v)

end Sys2Proof.Machine
end

