-- ==== Sys2Proof/Machine/Engine.lean ====
section
/-! DEFINITION. Machine/Engine.lean: the Command Engine of variant H: parameter fetch, the row-end macros, each opcode's
start and step, issue and the budgeted loop (43_command_engine, 44_command_ops). -/

namespace Sys2Proof.Machine

/-! ## Parameter fetch and completion -/

/-- The command codes that move whole bytes: CM bits 3:2 = 11 (30_encoding R150). -/
def byteOpcode (cm : Nibble) : Bool := 12 ≤ cm.toNat

/-- `Load(cm, lo)` (44_command_ops R460). -/
def loadParams (c : Chip) (cm lo : Nibble) : Mmc :=
  let m := modeOf .H c
  let arg := c.R 45
  let sx : Int := pair c 32 9
  let dx : Int := pair c 36 9
  let nx : Int := if byteOpcode cm then (pair c 40 10 : Int) / pixelsPerByte m else pair c 40 10
  let dix : Int := if arg.getLsbD 2 then -1 else 1
  { CM := cm
    LO := lo
    SX := sx
    SY := pair c 34 10
    DX := dx
    DY := pair c 38 10
    TX := if byteOpcode cm then dix * pixelsPerByte m else dix
    TY := if arg.getLsbD 3 then -1 else 1
    NX := nx
    NY := pair c 42 10
    ASX := if cm = 7 then (nx - 1) / 2 else sx
    ADX := if cm = 7 then 0 else dx
    ANX := if cm = 6 then (if arg.getLsbD 1 then 1 else 0) else nx
    CL := if byteOpcode cm then c.R 44 else c.R 44 &&& colourBits m
    MXS := arg.getLsbD 4
    MXD := arg.getLsbD 5
    MX := borderX m
    arg := arg }

/-- `engine <- Idle; mmc <- 0; CE <- 0; TR <- 0`: `Finish()` (44_command_ops R533) and every abort (43_command_engine
R452). -/
def finish (c : Chip) : Chip :=
  { c with engine := .idle, mmc := mmcZero, status := { c.status with ce := false, tr := false } }

/-- `WB(r, v)` (44_command_ops R533). -/
def writeBack (r : Nat) (v : Int) (c : Chip) : Chip :=
  (c.setR r (BitVec.ofNat 8 (lowBits v 8))).setR (r + 1) (BitVec.ofNat 8 (lowBits (v / 256) 2))

/-- `EndD()` (R533). -/
def endD (c : Chip) : Chip :=
  let dy := if c.mmc.NY = 0 then c.mmc.DY + c.mmc.TY else c.mmc.DY
  finish (writeBack 42 c.mmc.NY (writeBack 38 dy c))

/-- `EndSD()` (R533). -/
def endSD (c : Chip) : Chip :=
  let sy := if c.mmc.NY = 0 then c.mmc.SY + c.mmc.TY else c.mmc.SY
  let dy := if c.mmc.NY = 0 then c.mmc.DY + c.mmc.TY else if c.mmc.SY = -1 then c.mmc.DY + c.mmc.TY else c.mmc.DY
  finish (writeBack 42 c.mmc.NY (writeBack 38 dy (writeBack 34 sy c)))

/-- `EndLMCM()` (R485). -/
def endLMCM (c : Chip) : Chip :=
  let sy := if c.mmc.NY = 0 then c.mmc.SY + c.mmc.TY else c.mmc.SY
  finish (writeBack 42 c.mmc.NY (writeBack 34 sy c))

/-- `EndSRCH()` (R469). -/
def endSRCH (c : Chip) : Chip :=
  finish { c with status := { c.status with
    s8 := BitVec.ofNat 8 (lowBits c.mmc.ASX 8)
    s9 := 0xFE ||| BitVec.ofNat 8 (lowBits (c.mmc.ASX / 256) 1) } }

/-- `EndLINE()` (R473). -/
def endLINE (c : Chip) : Chip := finish (writeBack 38 c.mmc.DY c)

/-! ## Row ends -/

/-- The chip with its Command Unit State replaced. -/
def Chip.setMmc (c : Chip) (m : Mmc) : Chip := { c with mmc := m }

/-- `RowEndD()` (44_command_ops R530). -/
def rowEndD (c : Chip) : Chip :=
  let m := c.mmc
  let anx := m.ANX - 1
  let adx := if anx = 0 then m.ADX else m.ADX + m.TX
  let rowEnd := anx = 0 ∨ crosses adx m.MX = true
  if rowEnd then
    let ny := m.NY - 1
    let dy := m.DY + m.TY
    if ny % 1024 = 0 then endD (c.setMmc { m with ANX := anx, ADX := adx, NY := ny })
    else if dy = -1 then endD (c.setMmc { m with ANX := anx, ADX := adx, NY := ny, DY := dy })
    else c.setMmc { m with ANX := m.NX, ADX := m.DX, NY := ny, DY := dy }
  else c.setMmc { m with ANX := anx, ADX := adx }

/-- `RowEndSD()` (R531). -/
def rowEndSD (c : Chip) : Chip :=
  let m := c.mmc
  let anx := m.ANX - 1
  let asx := if anx = 0 then m.ASX else m.ASX + m.TX
  let adx := if anx = 0 ∨ crosses asx m.MX = true then m.ADX else m.ADX + m.TX
  let rowEnd := anx = 0 ∨ crosses asx m.MX = true ∨ crosses adx m.MX = true
  if rowEnd then
    let ny := m.NY - 1
    let sy := m.SY + m.TY
    let dy := m.DY + m.TY
    if ny % 1024 = 0 then endSD (c.setMmc { m with ANX := anx, ASX := asx, ADX := adx, NY := ny })
    else if sy = -1 then endSD (c.setMmc { m with ANX := anx, ASX := asx, ADX := adx, NY := ny, SY := sy })
    else if dy = -1 then endSD (c.setMmc { m with ANX := anx, ASX := asx, ADX := adx, NY := ny, SY := sy, DY := dy })
    else c.setMmc { m with ANX := m.NX, ASX := m.SX, ADX := m.DX, NY := ny, SY := sy, DY := dy }
  else c.setMmc { m with ANX := anx, ASX := asx, ADX := adx }

/-- `RowEndY()` (R532). -/
def rowEndY (c : Chip) : Chip :=
  let m := c.mmc
  let adx := m.ADX + m.TX
  if crosses adx m.MX then
    let ny := m.NY - 1
    let sy := m.SY + m.TY
    let dy := m.DY + m.TY
    if ny % 1024 = 0 then endSD (c.setMmc { m with ADX := adx, NY := ny })
    else if sy = -1 then endSD (c.setMmc { m with ADX := adx, NY := ny, SY := sy })
    else if dy = -1 then endSD (c.setMmc { m with ADX := adx, NY := ny, SY := sy, DY := dy })
    else c.setMmc { m with ADX := m.DX, NY := ny, SY := sy, DY := dy }
  else c.setMmc { m with ADX := adx }

/-! ## Steps of the budgeted opcodes -/

/-- `StepSRCH()` (44_command_ops R468). -/
def stepSRCH (c : Chip) : Chip :=
  let m := c.mmc
  let hit := xor (pointAt c m.MXS m.ASX m.SY == m.CL) (m.ANX == 1)
  if hit then endSRCH { c with status := { c.status with bd := true } }
  else
    let asx := m.ASX + m.TX
    if crosses asx m.MX then endSRCH { c with mmc := { m with ASX := asx }, status := { c.status with bd := false } }
    else c.setMmc { m with ASX := asx }

/-- The counters of LINE after one pixel (R472): MAJ is bit 0 of the ARG byte. -/
def lineCounters (m : Mmc) : Mmc :=
  let asx := m.ASX - m.NY
  let minor := asx < 0
  let asx' := if minor then asx + m.NX else asx
  let dx := if m.arg.getLsbD 0 then (if minor then m.DX + m.TX else m.DX) else m.DX + m.TX
  let dy := if m.arg.getLsbD 0 then m.DY + m.TY else (if minor then m.DY + m.TY else m.DY)
  { m with DX := dx, DY := dy, ASX := lowBits asx' 10, ADX := m.ADX + 1 }

/-- `StepLINE()` (R472). -/
def stepLINE (c : Chip) : Chip :=
  let m := c.mmc
  let m' := lineCounters m
  let c' := (psetAt c m.MXD m.DX m.DY m.CL m.LO).setMmc m'
  if m.ADX = m.NX ∨ crosses m'.DX m'.MX = true then endLINE c' else c'

/-- `StepLMMV()` (R476). -/
def stepLMMV (c : Chip) : Chip :=
  rowEndD (psetAt c c.mmc.MXD c.mmc.ADX c.mmc.DY c.mmc.CL c.mmc.LO)

/-- `StepLMMM()` (R479). -/
def stepLMMM (c : Chip) : Chip :=
  rowEndSD (psetAt c c.mmc.MXD c.mmc.ADX c.mmc.DY (pointAt c c.mmc.MXS c.mmc.ASX c.mmc.SY) c.mmc.LO)

/-- `StepHMMV()` (R488). -/
def stepHMMV (c : Chip) : Chip :=
  rowEndD (c.writeAt (pixelPlace c c.mmc.MXD c.mmc.ADX c.mmc.DY) c.mmc.CL)

/-- `StepHMMM()` (R489). -/
def stepHMMM (c : Chip) : Chip :=
  rowEndSD (c.writeAt (pixelPlace c c.mmc.MXD c.mmc.ADX c.mmc.DY)
    (c.readAt (pixelPlace c c.mmc.MXS c.mmc.ASX c.mmc.SY)))

/-- `StepYMMM()` (R491). -/
def stepYMMM (c : Chip) : Chip :=
  rowEndY (c.writeAt (pixelPlace c c.mmc.MXD c.mmc.ADX c.mmc.DY)
    (c.readAt (pixelPlace c c.mmc.MXS c.mmc.ADX c.mmc.SY)))

/-! ## Transfers of the host-driven opcodes -/

/-- Load the pixel at (ASX, SY) into S#7 and R44 (R483, R484). -/
def loadPixelLMCM (c : Chip) : Chip :=
  let p := pointAt c c.mmc.MXS c.mmc.ASX c.mmc.SY
  { c.setR 44 p with status := { c.status with s7 := p } }

/-- `TransferLMCM()` (R484). -/
def transferLMCM (c : Chip) : Chip :=
  let m := c.mmc
  let anx := m.ANX - 1
  let asx := if anx = 0 then m.ASX else m.ASX + m.TX
  let rowEnd := anx = 0 ∨ crosses asx m.MX = true
  if rowEnd then
    let ny := m.NY - 1
    let sy := m.SY + m.TY
    if ny % 1024 = 0 then endLMCM (c.setMmc { m with ANX := anx, ASX := asx, NY := ny })
    else if sy = -1 then endLMCM (c.setMmc { m with ANX := anx, ASX := asx, NY := ny, SY := sy })
    else loadPixelLMCM (c.setMmc { m with ANX := m.NX, ASX := m.SX, NY := ny, SY := sy })
  else loadPixelLMCM (c.setMmc { m with ANX := anx, ASX := asx })

/-- `TransferLMMC()` (R487). -/
def transferLMMC (c : Chip) : Chip :=
  rowEndD (psetAt c c.mmc.MXD c.mmc.ADX c.mmc.DY (c.R 44 &&& colourBits (modeOf .H c)) c.mmc.LO)

/-- `TransferHMMC()` (R490). -/
def transferHMMC (c : Chip) : Chip :=
  rowEndD (c.writeAt (pixelPlace c c.mmc.MXD c.mmc.ADX c.mmc.DY) (c.R 44))

/-! ## Start of each opcode -/

/-- A running command is discarded with no write-back when another takes over (43_command_engine R403, R452;
assumption log 11). -/
def discard (c : Chip) : Chip := if c.engine = .idle then c else finish c

/-- `Start` up to the opcode's own part (43_command_engine R402): load, Running, CE. -/
def enter (cm lo : Nibble) (op : Op) (c : Chip) : Chip :=
  let c' := discard c
  { c' with mmc := loadParams c' cm lo, engine := .running op, status := { c'.status with ce := true } }

/-- TR after the first transfer of a command that still runs (R420, 44_command_ops R486, R490). -/
def readyIfRunning (c : Chip) : Chip :=
  if c.engine = .idle then c else { c with status := { c.status with tr := true } }

/-- `Stop()` (44_command_ops R461): the logical-operation bits are ignored (R462). -/
def issueSTOP (c : Chip) : Chip := finish c

/-- Undefined opcode 0001 (R463): nothing. -/
def issueUndefined1 (c : Chip) : Chip := c

/-- Undefined opcode 0010 (R463): nothing. -/
def issueUndefined2 (c : Chip) : Chip := c

/-- Undefined opcode 0011 (R463): nothing. -/
def issueUndefined3 (c : Chip) : Chip := c

/-- `Point()` (R464). -/
def issuePOINT (lo : Nibble) (c : Chip) : Chip :=
  let c' := { c with mmc := loadParams c 4 lo }
  let p := pointAt c' c'.mmc.MXS c'.mmc.SX c'.mmc.SY
  finish { c'.setR 44 p with status := { c'.status with s7 := p } }

/-- `Pset()` (R466). -/
def issuePSET (lo : Nibble) (c : Chip) : Chip :=
  let c' := { c with mmc := loadParams c 5 lo }
  finish (psetAt c' c'.mmc.MXD c'.mmc.DX c'.mmc.DY c'.mmc.CL c'.mmc.LO)

/-- The start of SRCH (R468): BD is left as it is. -/
def issueSRCH (lo : Nibble) (c : Chip) : Chip := enter 6 lo .srch c

/-- The start of LINE (R472). -/
def issueLINE (lo : Nibble) (c : Chip) : Chip := enter 7 lo .line c

/-- The start of LMMV (R476). -/
def issueLMMV (lo : Nibble) (c : Chip) : Chip := enter 8 lo .lmmv c

/-- The start of LMMM (R479). -/
def issueLMMM (lo : Nibble) (c : Chip) : Chip := enter 9 lo .lmmm c

/-- The start of LMCM (R483): the first pixel goes to S#7 and R44, TR is set. -/
def issueLMCM (lo : Nibble) (c : Chip) : Chip :=
  let c' := loadPixelLMCM (enter 10 lo .lmcm c)
  { c' with status := { c'.status with tr := true } }

/-- The start of LMMC (R486): the value in R44 is the first pixel. -/
def issueLMMC (lo : Nibble) (c : Chip) : Chip := readyIfRunning (transferLMMC (enter 11 lo .lmmc c))

/-- The start of HMMV (R488). -/
def issueHMMV (lo : Nibble) (c : Chip) : Chip := enter 12 lo .hmmv c

/-- The start of HMMM (R489). -/
def issueHMMM (lo : Nibble) (c : Chip) : Chip := enter 13 lo .hmmm c

/-- The start of YMMM (R491). -/
def issueYMMM (lo : Nibble) (c : Chip) : Chip := enter 14 lo .ymmm c

/-- The start of HMMC (R490): the value in R44 is the first byte. -/
def issueHMMC (lo : Nibble) (c : Chip) : Chip := readyIfRunning (transferHMMC (enter 15 lo .hmmc c))

/-- `Issue(v)` (43_command_engine R402, R403, R453), with `v` already stored in R46. -/
def issue (v : Byte) (c : Chip) : Chip :=
  let lo : Nibble := v.extractLsb' 0 4
  if commandMode (modeOf .H c) = false then c
  else
    match (v.extractLsb' 4 4).toNat with
    | 0 => issueSTOP c
    | 1 => issueUndefined1 c
    | 2 => issueUndefined2 c
    | 3 => issueUndefined3 c
    | 4 => issuePOINT lo c
    | 5 => issuePSET lo c
    | 6 => issueSRCH lo c
    | 7 => issueLINE lo c
    | 8 => issueLMMV lo c
    | 9 => issueLMMM lo c
    | 10 => issueLMCM lo c
    | 11 => issueLMMC lo c
    | 12 => issueHMMV lo c
    | 13 => issueHMMM lo c
    | 14 => issueYMMM lo c
    | _ => issueHMMC lo c

/-- A write of R44, already stored (43_command_engine R421): one transfer of a running LMMC or HMMC. -/
def writeR44 (c : Chip) : Chip :=
  match c.engine with
  | .running .lmmc => transferLMMC c
  | .running .hmmc => transferHMMC c
  | .idle | .running .srch | .running .line | .running .lmmv | .running .lmmm | .running .lmcm | .running .hmmv
  | .running .hmmm | .running .ymmm => c

/-- What follows a read of S#7 (43_command_engine R422). -/
def afterReadS7 (c : Chip) : Chip :=
  if c.engine = .running .lmcm then transferLMCM c else c

/-! ## The budget (43_command_engine R410) -/

/-- The place of a budgeted opcode in the cost table; the host-driven ones spend no budget (R411). -/
def costRow : Op → Option Nat
  | .srch => some 0
  | .line => some 1
  | .lmmv => some 2
  | .lmmm => some 3
  | .hmmv => some 4
  | .hmmm => some 5
  | .ymmm => some 6
  | .lmcm | .lmmc | .hmmc => none

/-- The display timing class `t = 2 * BL + (1 - SPD)` (R410). -/
def timingClass (c : Chip) : Nat :=
  (if (c.R 1).getLsbD 6 then 2 else 0) + (if (c.R 8).getLsbD 1 then 0 else 1)

/-- `Step(op)` (R410); a host-driven opcode has no budgeted step (R411). -/
def stepOp (op : Op) (c : Chip) : Chip :=
  match op with
  | .srch => stepSRCH c
  | .line => stepLINE c
  | .lmmv => stepLMMV c
  | .lmmm => stepLMMM c
  | .hmmv => stepHMMV c
  | .hmmm => stepHMMM c
  | .ymmm => stepYMMM c
  | .lmcm | .lmmc | .hmmc => c

/-- The loop of R410 for an opcode with a given cost. `fuel` bounds the rounds: the cost is at least 1, so the loop ends
before it has made as many rounds as the budget has units (assumption log 13). -/
def budgetLoop (op : Op) (cost : Nat) : Nat → Chip → Chip
  | 0, c => c
  | fuel + 1, c =>
    let c1 := { c with budget := c.budget - cost }
    if c1.budget ≤ 0 then c1
    else
      let c2 := stepOp op c1
      if c2.engine = .idle then c2 else budgetLoop op cost fuel c2

/-- `UpdateCommand()` (R410): the refill overwrites the budget, then a budgeted command runs. -/
def updateCommand (cfg : Config) (c : Chip) : Chip :=
  let c0 := { c with budget := cfg.budget }
  match c0.engine with
  | .idle => c0
  | .running op =>
    match costRow op with
    | none => c0
    | some row => budgetLoop op (cfg.cost[4 * row + timingClass c0]?.getD 1) cfg.budget c0

end Sys2Proof.Machine
end

