-- ==== Sys2Proof/Machine/Registers.lean ====
section
/-! DEFINITION. Machine/Registers.lean: the register write with its side effects (41_register_bank R260 to R292). -/

namespace Sys2Proof.Machine

/-- The register a write of variant E reaches, by the lock (41_register_bank R290). -/
def lockTarget (c : Chip) (n : Nat) : Nat :=
  if n = 57 then 57 else if c.lock.unlocked = false ∧ 8 ≤ n then n % 8 else n

/-- The lock of variant E after a register write (R290). -/
def lockAfter (cfg : Config) (l : Lock) (n : Nat) (v : Byte) : Lock :=
  if n = 57 then
    if v = 0x1C then
      if l.unlockCount = 1 then { unlocked := true, unlockCount := 0 } else { l with unlockCount := 1 }
    else { unlocked := l.unlocked && !cfg.relockOnOther57, unlockCount := 0 }
  else { l with unlockCount := 0 }

/-- The bank reset of variant E (R292). -/
def bankReset (c : Chip) : Chip :=
  { c with reg := resetRegs .E, lock := { unlocked := false, unlockCount := 0 } }

/-- `AbortOnModeChange()` (R267). -/
def abortOnModeChange (c : Chip) : Chip := finish c

/-- The side effects of a write to an E register (R269, R292), the value already stored. -/
def sideEffectE (c : Chip) (n : Nat) (v : Byte) : Chip :=
  if n = 50 ∧ v.getLsbD 7 = true then bankReset c else c

/-- The side effects of a write to an H register (R266, R268), the value already stored. -/
def sideEffectH (c : Chip) (n : Nat) (v : Byte) : Chip :=
  if n = 16 then { c with palPhase := .first }
  else if n = 44 then writeR44 c
  else if n = 46 then issue v c
  else c

/-- `RegWrite(n, v)` in variant B (R260, R261). -/
def regWriteB (c : Chip) (n : Nat) (v : Byte) : Chip :=
  if nreg .B ≤ n then c else c.setR n v

/-- `RegWrite(n, v)` in variant E (R260, R290). -/
def regWriteE (cfg : Config) (c : Chip) (n : Nat) (v : Byte) : Chip :=
  let k := lockTarget c n
  let c1 := { c with lock := lockAfter cfg c.lock n v }
  if nreg .E ≤ k then c1 else sideEffectE (c1.setR k v) k v

/-- `RegWrite(n, v)` in variant H (R260, R262, R267). -/
def regWriteH (c : Chip) (n : Nat) (v : Byte) : Chip :=
  if nreg .H ≤ n then c
  else
    let c1 := sideEffectH (c.setR n v) n v
    if modeOf .H c1 ≠ modeOf .H c ∧ c1.engine ≠ .idle then abortOnModeChange c1 else c1

/-- `RegWrite(n, v)` (41_register_bank R260). -/
def regWrite (cfg : Config) (c : Chip) (n : Nat) (v : Byte) : Chip :=
  match cfg.variant with
  | .B => regWriteB c n v
  | .E => regWriteE cfg c n v
  | .H => regWriteH c n v

/-- The register write of a command byte: `WREG 46, v` without the address port's own phase (30_encoding R155; R46 is R6
in B, and goes through the lock in E, 95_test_vectors VC35; assumption log 8). -/
def writeR46 (cfg : Config) (c : Chip) (v : Byte) : Chip := regWrite cfg c (regSelect cfg.variant 46) v

end Sys2Proof.Machine
end

