-- ==== Sys2Proof/Machine/Ports.lean ====
section
/-! DEFINITION. Machine/Ports.lean: the meanings of the port transactions (40_port_protocol). -/

namespace Sys2Proof.Machine

/-- A next state: the chip after the call and what the call returned. -/
def State.done (s : State) (c : Chip) (out : Output) : Host.Outcome State Fault Refusal :=
  .next { s with chip := c, out := out }

/-- A next state of a call that took one free value. -/
def State.doneDrawn (s : State) (c : Chip) (out : Output) : Host.Outcome State Fault Refusal :=
  .next { s with chip := c, out := out, draws := s.draws + 1 }

/-- A row that not every variant has: refused where the variant lacks it (R200). -/
def State.only (s : State) (v : Variant) (k : Host.Outcome State Fault Refusal) : Host.Outcome State Fault Refusal :=
  if s.cfg.variant = v then k else .refused .absentInVariant

/-- The chip with the latch phase first, as every data-port and status access leaves it (R224). -/
def Chip.latchFirst (c : Chip) : Chip := { c with phase := .first }

/-! ## write-address -/

/-- WA, first phase (R202). -/
def execWaFirst (p : Byte) (s : State) : Host.Outcome State Fault Refusal :=
  s.done { s.chip with pending := p, phase := .second } .none

/-- The chip with the cursor loaded from the field and the pending byte (R203, R204). -/
def Chip.setCursor (c : Chip) (a : BitVec 6) : Chip := { c with cursor := a ++ c.pending }

/-- Read the byte at the cursor into the prefetch and advance (R203, R210). -/
def prefetchNext (v : Variant) (c : Chip) : Chip := advance v { c with prefetch := portRead v c }

/-- WA, second phase, read setup (R203). -/
def execWaSetrd (a : BitVec 6) (s : State) : Host.Outcome State Fault Refusal :=
  s.done (prefetchNext s.cfg.variant (s.chip.setCursor a)).latchFirst .none

/-- WA, second phase, write setup (R204). -/
def execWaSetwr (a : BitVec 6) (s : State) : Host.Outcome State Fault Refusal :=
  s.done (s.chip.setCursor a).latchFirst .none

/-- WA, second phase, register write (R205): bit 6 is ignored. -/
def execWaWreg (_sub : BitVec 1) (r : BitVec 6) (s : State) : Host.Outcome State Fault Refusal :=
  s.done (regWrite s.cfg s.chip (regSelect s.cfg.variant r) s.chip.pending).latchFirst .none

/-! ## write-data -/

/-- WD to VRAM (R207). -/
def execWd (d : Byte) (s : State) : Host.Outcome State Fault Refusal :=
  let c1 := portWrite s.cfg.variant s.chip d
  let c2 := if s.cfg.writeUpdatesPrefetch then { c1 with prefetch := d } else c1
  s.done (advance s.cfg.variant c2).latchFirst .none

/-- WD to the palette, variant E (R208). -/
def execWdPaletteE (d : Byte) (s : State) : Host.Outcome State Fault Refusal :=
  s.only .E (s.done (paletteByteE s.chip d).latchFirst .none)

/-- WD to the palette, variant H (R209). -/
def execWdPaletteH (d : Byte) (s : State) : Host.Outcome State Fault Refusal :=
  s.only .H (s.done (paletteByteH s.chip d).latchFirst .none)

/-! ## read-data -/

/-- RD (R210). -/
def execRd (s : State) : Host.Outcome State Fault Refusal :=
  s.done (prefetchNext s.cfg.variant s.chip).latchFirst (.byte s.chip.prefetch)

/-! ## read-status -/

/-- RS of S#0 (R212). -/
def execRsS0 (s : State) : Host.Outcome State Fault Refusal :=
  s.done (acknowledge s.chip).latchFirst (.byte s.chip.status.s0)

/-- The chip with FH cleared (R213, R217). -/
def clearFH (c : Chip) : Chip := { c with status := { c.status with fh := false } }

/-- RS of S#1, variant H (R213). -/
def execRsS1H (s : State) : Host.Outcome State Fault Refusal :=
  s.only .H (s.done (clearFH s.chip).latchFirst (.byte (statusS1H s.cfg s.chip.status)))

/-- RS of S#2, variant H (R214): VR, HR and EO are drawn. -/
def execRsS2H (s : State) : Host.Outcome State Fault Refusal :=
  s.only .H (s.doneDrawn s.chip.latchFirst (.byte (statusS2 s.chip.status (Config.drawByte s.draws))))

/-- RS of S#7, variant H (R215): the hand-shake of LMCM follows. -/
def execRsS7H (s : State) : Host.Outcome State Fault Refusal :=
  s.only .H (s.done (afterReadS7 s.chip).latchFirst (.byte s.chip.status.s7))

/-- RS of the other status registers, variant H (R216): S#8 and S#9, or a drawn byte. -/
def execRsOtherH (s : State) : Host.Outcome State Fault Refusal :=
  s.only .H <|
    if statusSelect .H s.chip = 8 then s.done s.chip.latchFirst (.byte s.chip.status.s8)
    else if statusSelect .H s.chip = 9 then s.done s.chip.latchFirst (.byte s.chip.status.s9)
    else s.doneDrawn s.chip.latchFirst (.byte (Config.drawByte s.draws))

/-- RS of S#1 to S#15, variant E (R217). -/
def execRsE (s : State) : Host.Outcome State Fault Refusal :=
  s.only .E <|
    if statusSelect .E s.chip = 1 then
      s.done (clearFH s.chip).latchFirst (.byte (statusS1E s.cfg s.chip.status))
    else s.done s.chip.latchFirst (.byte (s.cfg.statusE[(statusSelect .E s.chip).toNat]?.getD 0))

/-! ## write-palette and write-register-indirect -/

/-- WP (R220): the address latch is not touched. -/
def execWp (d : Byte) (s : State) : Host.Outcome State Fault Refusal :=
  s.only .H (s.done (paletteByteH s.chip d) .none)

/-- R17 after an indirect write: the pointer advances unless bit 7 inhibits it (R222). -/
def nextR17 (r : Byte) : Byte := if r.getLsbD 7 then r else (r &&& 0xC0) ||| ((r &&& 0x3F) + 1 &&& 0x3F)

/-- WI (R222): the address latch is not touched. -/
def execWi (d : Byte) (s : State) : Host.Outcome State Fault Refusal :=
  let r := (s.chip.R 17 &&& 0x3F).toNat
  let c := if r = 17 then s.chip else regWrite s.cfg s.chip r d
  s.only .H (s.done (c.setR 17 (nextR17 (c.R 17))) .none)

end Sys2Proof.Machine
end

