-- ==== Sys2Proof/Machine/Commands.lean ====
section
/-! DEFINITION. Machine/Commands.lean: the meanings of the command rows and of the logical-operation rows: the register
write of R46 with the byte the row names (30_encoding R144, R150, R151; assumption log 8). In variant H and in G4 to G7
that write issues the command: `issue` of Machine/Engine.lean, with one definition per opcode. -/

namespace Sys2Proof.Machine

/-- The write of a command byte as a whole call. -/
def State.command (s : State) (v : Byte) : Host.Outcome State Fault Refusal :=
  s.done (writeR46 s.cfg s.chip v) .none

/-! ## Command opcodes (44_command_ops) -/

/-- The write of R46 that issues STOP (R461, R462). -/
def execStop (x : Nibble) (s : State) : Host.Outcome State Fault Refusal := s.command (0b0000#4 ++ x)

/-- The write of R46 that issues the undefined opcode 0001 (R463). -/
def execUndefined1 (x : Nibble) (s : State) : Host.Outcome State Fault Refusal := s.command (0b0001#4 ++ x)

/-- The write of R46 that issues the undefined opcode 0010 (R463). -/
def execUndefined2 (x : Nibble) (s : State) : Host.Outcome State Fault Refusal := s.command (0b0010#4 ++ x)

/-- The write of R46 that issues the undefined opcode 0011 (R463). -/
def execUndefined3 (x : Nibble) (s : State) : Host.Outcome State Fault Refusal := s.command (0b0011#4 ++ x)

/-- The write of R46 that issues POINT (R464). -/
def execPoint (x : Nibble) (s : State) : Host.Outcome State Fault Refusal := s.command (0b0100#4 ++ x)

/-- The write of R46 that issues PSET (R466). -/
def execPset (l : Nibble) (s : State) : Host.Outcome State Fault Refusal := s.command (0b0101#4 ++ l)

/-- The write of R46 that issues SRCH (R468). -/
def execSrch (x : Nibble) (s : State) : Host.Outcome State Fault Refusal := s.command (0b0110#4 ++ x)

/-- The write of R46 that issues LINE (R472). -/
def execLine (l : Nibble) (s : State) : Host.Outcome State Fault Refusal := s.command (0b0111#4 ++ l)

/-- The write of R46 that issues LMMV (R476). -/
def execLmmv (l : Nibble) (s : State) : Host.Outcome State Fault Refusal := s.command (0b1000#4 ++ l)

/-- The write of R46 that issues LMMM (R479). -/
def execLmmm (l : Nibble) (s : State) : Host.Outcome State Fault Refusal := s.command (0b1001#4 ++ l)

/-- The write of R46 that issues LMCM (R483). -/
def execLmcm (x : Nibble) (s : State) : Host.Outcome State Fault Refusal := s.command (0b1010#4 ++ x)

/-- The write of R46 that issues LMMC (R486). -/
def execLmmc (l : Nibble) (s : State) : Host.Outcome State Fault Refusal := s.command (0b1011#4 ++ l)

/-- The write of R46 that issues HMMV (R488). -/
def execHmmv (x : Nibble) (s : State) : Host.Outcome State Fault Refusal := s.command (0b1100#4 ++ x)

/-- The write of R46 that issues HMMM (R489). -/
def execHmmm (x : Nibble) (s : State) : Host.Outcome State Fault Refusal := s.command (0b1101#4 ++ x)

/-- The write of R46 that issues YMMM (R491). -/
def execYmmm (x : Nibble) (s : State) : Host.Outcome State Fault Refusal := s.command (0b1110#4 ++ x)

/-- The write of R46 that issues HMMC (R490). -/
def execHmmc (x : Nibble) (s : State) : Host.Outcome State Fault Refusal := s.command (0b1111#4 ++ x)

/-! ## Logical operations (43_command_engine R440, R441) -/

/-- The write of R46 with the logical operation IMP (R440) and the opcode `cm`. -/
def execLoImp (cm : Nibble) (s : State) : Host.Outcome State Fault Refusal := s.command (cm ++ 0b0000#4)

/-- The write of R46 with the logical operation AND (R440) and the opcode `cm`. -/
def execLoAnd (cm : Nibble) (s : State) : Host.Outcome State Fault Refusal := s.command (cm ++ 0b0001#4)

/-- The write of R46 with the logical operation OR (R440) and the opcode `cm`. -/
def execLoOr (cm : Nibble) (s : State) : Host.Outcome State Fault Refusal := s.command (cm ++ 0b0010#4)

/-- The write of R46 with the logical operation EOR (R440) and the opcode `cm`. -/
def execLoEor (cm : Nibble) (s : State) : Host.Outcome State Fault Refusal := s.command (cm ++ 0b0011#4)

/-- The write of R46 with the logical operation NOT (R440) and the opcode `cm`. -/
def execLoNot (cm : Nibble) (s : State) : Host.Outcome State Fault Refusal := s.command (cm ++ 0b0100#4)

/-- The write of R46 with the logical operation TIMP (R440) and the opcode `cm`. -/
def execLoTimp (cm : Nibble) (s : State) : Host.Outcome State Fault Refusal := s.command (cm ++ 0b1000#4)

/-- The write of R46 with the logical operation TAND (R440) and the opcode `cm`. -/
def execLoTand (cm : Nibble) (s : State) : Host.Outcome State Fault Refusal := s.command (cm ++ 0b1001#4)

/-- The write of R46 with the logical operation TOR (R440) and the opcode `cm`. -/
def execLoTor (cm : Nibble) (s : State) : Host.Outcome State Fault Refusal := s.command (cm ++ 0b1010#4)

/-- The write of R46 with the logical operation TEOR (R440) and the opcode `cm`. -/
def execLoTeor (cm : Nibble) (s : State) : Host.Outcome State Fault Refusal := s.command (cm ++ 0b1011#4)

/-- The write of R46 with the logical operation TNOT (R440) and the opcode `cm`. -/
def execLoTnot (cm : Nibble) (s : State) : Host.Outcome State Fault Refusal := s.command (cm ++ 0b1100#4)

/-- The write of R46 with the undefined logical operation 5 (R441) and the opcode `cm`. -/
def execLoUndefined5 (cm : Nibble) (s : State) : Host.Outcome State Fault Refusal := s.command (cm ++ 0b0101#4)

/-- The write of R46 with the undefined logical operation 6 (R441) and the opcode `cm`. -/
def execLoUndefined6 (cm : Nibble) (s : State) : Host.Outcome State Fault Refusal := s.command (cm ++ 0b0110#4)

/-- The write of R46 with the undefined logical operation 7 (R441) and the opcode `cm`. -/
def execLoUndefined7 (cm : Nibble) (s : State) : Host.Outcome State Fault Refusal := s.command (cm ++ 0b0111#4)

/-- The write of R46 with the undefined logical operation 13 (R441) and the opcode `cm`. -/
def execLoUndefined13 (cm : Nibble) (s : State) : Host.Outcome State Fault Refusal := s.command (cm ++ 0b1101#4)

/-- The write of R46 with the undefined logical operation 14 (R441) and the opcode `cm`. -/
def execLoUndefined14 (cm : Nibble) (s : State) : Host.Outcome State Fault Refusal := s.command (cm ++ 0b1110#4)

/-- The write of R46 with the undefined logical operation 15 (R441) and the opcode `cm`. -/
def execLoUndefined15 (cm : Nibble) (s : State) : Host.Outcome State Fault Refusal := s.command (cm ++ 0b1111#4)

end Sys2Proof.Machine
end

