-- ==== Sys2Proof/Machine/Renderer.lean ====
section
/-! DEFINITION. Machine/Renderer.lean: the scanline renderer: backgrounds, sprites, status and refused configurations
(42_renderer). -/

namespace Sys2Proof.Machine

/-! ## Colours and table reads -/

/-- `VRAM[a]`: the address truncated to the address width (00_scope R15, 41_register_bank R281). -/
def tableByte (v : Variant) (c : Chip) (a : Nat) : Byte := Memory.read c.vram (a % addrSize v)

/-- Colour 0 is transparent in B and E, and in H while R8 bit 5 (TP) is 0 (R325). -/
def colourZeroTransparent (v : Variant) (c : Chip) : Bool :=
  match v with
  | .B => true
  | .E => true
  | .H => !(c.R 8).getLsbD 5

/-- `Vis(c)` (R325). -/
def vis (v : Variant) (c : Chip) (col : Byte) : Byte :=
  if col = 0 ∧ colourZeroTransparent v c = true then backdrop v c else col

/-- The high nibble of a byte. -/
def highNibble (b : Byte) : Byte := b >>> 4

/-- The low nibble of a byte. -/
def lowNibble (b : Byte) : Byte := b &&& 0x0F

/-- The leftmost `n` pixels of a pattern byte: `fg` where the bit is set, `bg` elsewhere, bit 7 first. -/
def patternPixels (n : Nat) (pat fg bg : Byte) : List Byte :=
  (List.range n).map fun i => if pat.getLsbD (7 - i) then fg else bg

/-! ## Backgrounds -/

/-- The name at column `k` of the row of line `l`, `perRow` names a row. -/
def nameAt (v : Variant) (c : Chip) (l perRow k : Nat) : Nat :=
  (tableByte v c (nameBase v c + l / 8 * perRow + k)).toNat

/-- The offset of a pattern row in the tables of the bitmap modes (R327). -/
def bitmapOffset (l name row : Nat) : Nat := (l &&& 0xC0) * 32 + name * 8 + row

/-- G1, graphics (R326). -/
def backgroundG1 (v : Variant) (c : Chip) (l : Nat) : List Byte :=
  (List.range 32).flatMap fun k =>
    let name := nameAt v c l 32 k
    let pat := tableByte v c (patternBase v c + name * 8 + l % 8)
    let col := tableByte v c (colourBase v c + name / 8)
    patternPixels 8 pat (vis v c (highNibble col)) (vis v c (lowNibble col))

/-- G2, bitmap (R327). -/
def backgroundG2 (v : Variant) (c : Chip) (l : Nat) : List Byte :=
  (List.range 32).flatMap fun k =>
    let off := bitmapOffset l (nameAt v c l 32 k) (l % 8)
    let pat := tableByte v c (patternBase v c ||| (off &&& patternMask c))
    let col := tableByte v c (colourBase v c ||| (off &&& colourMask c))
    patternPixels 8 pat (vis v c (highNibble col)) (vis v c (lowNibble col))

/-- The eight pixels of a multicolour byte: four of each nibble (R328). -/
def multicolorPixels (v : Variant) (c : Chip) (b : Byte) : List Byte :=
  List.replicate 4 (vis v c (highNibble b)) ++ List.replicate 4 (vis v c (lowNibble b))

/-- MC, multicolour (R328). -/
def backgroundMC (v : Variant) (c : Chip) (l : Nat) : List Byte :=
  (List.range 32).flatMap fun k =>
    multicolorPixels v c (tableByte v c (patternBase v c + nameAt v c l 32 k * 8 + l / 4 % 8))

/-- A line of 240 pixels between the eight border columns on each side (R329). -/
def withBorder (v : Variant) (c : Chip) (px : List Byte) : List Byte :=
  List.replicate 8 (backdrop v c) ++ px ++ List.replicate 8 (backdrop v c)

/-- The six pixels of a text pattern byte (R329). -/
def textPixels (v : Variant) (c : Chip) (pat : Byte) : List Byte :=
  patternPixels 6 pat (vis v c (textColour c)) (vis v c (backdrop v c))

/-- T1, text (R329). -/
def backgroundT1 (v : Variant) (c : Chip) (l : Nat) : List Byte :=
  withBorder v c <| (List.range 40).flatMap fun k =>
    textPixels v c (tableByte v c (patternBase v c + nameAt v c l 40 k * 8 + l % 8))

/-- BT, bitmap text (R330). -/
def backgroundBT (v : Variant) (c : Chip) (l : Nat) : List Byte :=
  withBorder v c <| (List.range 40).flatMap fun k =>
    textPixels v c
      (tableByte v c (patternBase v c ||| (bitmapOffset l (nameAt v c l 40 k) (l % 8) &&& patternMask c)))

/-- BMC, bitmap multicolour (R331). -/
def backgroundBMC (v : Variant) (c : Chip) (l : Nat) : List Byte :=
  (List.range 32).flatMap fun k =>
    multicolorPixels v c
      (tableByte v c (patternBase v c ||| (bitmapOffset l (nameAt v c l 32 k) (l / 4 % 8) &&& patternMask c)))

/-- ILL, the fill of the illegal modes (R332). -/
def backgroundILL (v : Variant) (c : Chip) : List Byte :=
  withBorder v c <| (List.range 40).flatMap fun _ =>
    List.replicate 4 (vis v c (textColour c)) ++ List.replicate 2 (backdrop v c)

/-- G4 (R333). -/
def backgroundG4 (v : Variant) (c : Chip) (l : Nat) : List Byte :=
  (List.range 256).map fun x =>
    let b := Memory.read c.vram (pageBase v c + l * 128 + x / 2)
    vis v c (if x % 2 = 0 then highNibble b else lowNibble b)

/-- G5 (R334). -/
def backgroundG5 (v : Variant) (c : Chip) (l : Nat) : List Byte :=
  (List.range 512).map fun x =>
    vis v c ((Memory.read c.vram (pageBase v c + l * 128 + x / 4) >>> (6 - 2 * (x % 4))) &&& 3)

/-- G6 (R335). -/
def backgroundG6 (v : Variant) (c : Chip) (l : Nat) : List Byte :=
  (List.range 512).map fun x =>
    let b := Memory.read c.vram (interleave (pageBase v c + l * 256 + x / 2))
    vis v c (if x % 2 = 0 then highNibble b else lowNibble b)

/-- G7 (R336). -/
def backgroundG7 (v : Variant) (c : Chip) (l : Nat) : List Byte :=
  (List.range 256).map fun x => vis v c (Memory.read c.vram (interleave (pageBase v c + l * 256 + x)))

/-- The line width `W` (R320). -/
def lineWidth (m : Mode) : Nat :=
  match m with
  | .G5 | .G6 => 512
  | .G1 | .G2 | .MC | .T1 | .BT | .BMC | .ILL | .T2 | .G3 | .G4 | .G7 => 256

/-- A blanked line (R324). -/
def blankLine (v : Variant) (c : Chip) : List Byte := List.replicate (lineWidth (modeOf v c)) (backdrop v c)

/-- The background of a mode (R323). T2 and G3 have no rule; a visible line of theirs is refused (R399), and this
gives them the blank line. -/
def background (v : Variant) (c : Chip) (l : Nat) : List Byte :=
  match modeOf v c with
  | .G1 => backgroundG1 v c l
  | .G2 => backgroundG2 v c l
  | .MC => backgroundMC v c l
  | .T1 => backgroundT1 v c l
  | .BT => backgroundBT v c l
  | .BMC => backgroundBMC v c l
  | .ILL => backgroundILL v c
  | .G4 => backgroundG4 v c l
  | .G5 => backgroundG5 v c l
  | .G6 => backgroundG6 v c l
  | .G7 => backgroundG7 v c l
  | .T2 | .G3 => blankLine v c

/-! ## Sprites (sprite mode 1) -/

/-- `SPRITE_CAP` (R342). -/
def spriteCap : Nat := 4

/-- `MAX_SPRITES` (R342). -/
def maxSprites : Nat := 32

/-- A byte of the attribute entry of sprite `i` (R341). -/
def spriteEntry (v : Variant) (c : Chip) (i k : Nat) : Byte := tableByte v c (spriteBase v c + 4 * i + k)

/-- `SpriteTop(i)` (R341). -/
def spriteTop (v : Variant) (c : Chip) (i : Nat) : Int :=
  let y := (spriteEntry v c i 0).toNat
  (if 0xD0 < y then (y : Int) - 256 else y) + 1

/-- Sprite `i` covers line `l` (R341). -/
def onLine (v : Variant) (c : Chip) (l i : Nat) : Bool :=
  spriteTop v c i ≤ l && l < spriteTop v c i + (spriteSize c * spriteMag c : Nat)

/-- What the scan of the attribute table has found: how many sprites cover the line, those that take part, and S#0. -/
structure Scan where
  count : Nat
  list : List Nat
  s0 : Byte
deriving DecidableEq, Repr

/-- Pass 1, the scan of the attribute table over the entries still to come (R341, R343). -/
def scanSprites (cfg : Config) (c : Chip) (l : Nat) : List Nat → Scan → Scan
  | [], a => a
  | i :: rest, a =>
    if spriteEntry cfg.variant c i 0 = 0xD0 then a
    else if onLine cfg.variant c l i then
      let s0 := if a.count = spriteCap then fifthSprite a.s0 i else a.s0
      if a.count = spriteCap ∧ cfg.unlimitedSprites = false then { a with s0 := s0 }
      else
        scanSprites cfg c l rest
          { count := a.count + 1
            list := if a.count < spriteCap ∨ cfg.unlimitedSprites = true then a.list ++ [i] else a.list
            s0 := s0 }
    else scanSprites cfg c l rest a

/-- The composite buffer of a line (R345): the columns taken, the colours shown (0 = none), with S#0 and the frame's
collision latch. -/
structure Composite where
  taken : Vector Bool 256
  buf : Vector Byte 256
  s0 : Byte
  reported : Bool
deriving DecidableEq, Repr

/-- `Plot(col, color)` (R345). -/
def plot (cfg : Config) (m : Composite) (col : Nat) (color : Byte) : Composite :=
  let counts := color ≠ 0 ∨ cfg.collideTransparent = true
  let taken := m.taken[col]?.getD false
  let collides := counts ∧ taken = true ∧ m.reported = false
  { taken := if counts then m.taken.setIfInBounds col true else m.taken
    buf := if color ≠ 0 ∧ m.buf[col]?.getD 0 = 0 then m.buf.setIfInBounds col color else m.buf
    s0 := if collides then m.s0 ||| 0x20 else m.s0
    reported := if collides then true else m.reported }

/-- The left and right pattern bytes of sprite `i` on line `l` (R344). -/
def spriteRow (v : Variant) (c : Chip) (l i : Nat) : Byte × Byte :=
  let big := (c.R 1).getLsbD 1
  let name := (if big then spriteEntry v c i 2 &&& 0xFC else spriteEntry v c i 2).toNat
  let r := ((l - spriteTop v c i) / (spriteMag c : Int)).toNat
  let left := tableByte v c (spritePatternBase v c + name * 8 + r)
  (left, if big then tableByte v c (spritePatternBase v c + name * 8 + 16 + r) else 0)

/-- The left edge of sprite `i`: attribute bit 7 is the early clock (R344). -/
def spriteLeft (v : Variant) (c : Chip) (i : Nat) : Int :=
  let x : Int := (spriteEntry v c i 1).toNat
  if (spriteEntry v c i 3).getLsbD 7 then x - 32 else x

/-- Pixel `p` of a sprite's row is set (R344). -/
def spriteBit (mag : Nat) (row : Byte × Byte) (p : Nat) : Bool :=
  let k := p / mag
  if k < 8 then row.1.getLsbD (7 - k) else row.2.getLsbD (15 - k)

/-- Pass 2 for sprite `i`: shift out its pattern row (R344, R347). -/
def drawSprite (cfg : Config) (c : Chip) (l : Nat) (m : Composite) (i : Nat) : Composite :=
  let v := cfg.variant
  let row := spriteRow v c l i
  let x := spriteLeft v c i
  let color := lowNibble (spriteEntry v c i 3)
  (List.range (spriteSize c * spriteMag c)).foldl
    (fun (m : Composite) (p : Nat) =>
      let col := x + (p : Int)
      if 0 ≤ col ∧ col ≤ 255 ∧ spriteBit (spriteMag c) row p = true then plot cfg m col.toNat color else m)
    m

/-- The composite of a line: both passes (R341 to R345). -/
def composeSprites (cfg : Config) (c : Chip) (l : Nat) : Composite :=
  let scan := scanSprites cfg c l (List.range maxSprites) { count := 0, list := [], s0 := c.status.s0 }
  scan.list.foldl (drawSprite cfg c l)
    { taken := Vector.replicate 256 false
      buf := Vector.replicate 256 0
      s0 := scan.s0
      reported := c.collisionReported }

/-- The line with the sprites' colours over the background (R346). -/
def overlay (bg : List Byte) (buf : List Byte) : List Byte :=
  List.zipWith (fun b s => if s = 0 then b else s) bg buf

/-- Sprites are composited (R340). -/
def spritesShown (v : Variant) (c : Chip) : Bool :=
  spriteMode (modeOf v c) && !(v == .H && (c.R 8).getLsbD 1)

/-- A visible line: the pixels and the sprite flags (R323, R324, R340). -/
def drawLine (cfg : Config) (c : Chip) (l : Nat) : Chip × List Byte :=
  let v := cfg.variant
  if (c.R 1).getLsbD 6 = false then (c, blankLine v c)
  else if spritesShown v c then
    let m := composeSprites cfg c l
    ({ c with status := { c.status with s0 := m.s0 }, collisionReported := m.reported },
      overlay (background v c l) m.buf.toList)
  else (c, background v c l)

/-! ## The call -/

/-- The registers of variant E that have a function in the spec (10_state R41), R0 to R7 among them: the others refuse a
render (R398). -/
def describedE (n : Nat) : Bool :=
  n < 8 || n == 15 || n == 19 || n == 47 || n == 48 || n == 50 || n == 57

/-- A register of variant E that R398 names differs from its reset value. -/
def extendedInUse (c : Chip) : Bool :=
  (List.range 64).any fun n => !describedE n && c.R n != 0

/-- The refused configurations (R398, R399). -/
def renderRefusal (v : Variant) (c : Chip) (l : Nat) : Option Refusal :=
  match v with
  | .B => none
  | .E => if extendedInUse c then some .extendedRendering else none
  | .H =>
    if visibleLines .H c ≤ l then none
    else if modeOf .H c = .G3 ∨ modeOf .H c = .T2 then some .modeNotDescribed
    else if commandMode (modeOf .H c) = true ∧ (c.R 1).getLsbD 6 = true ∧ (c.R 8).getLsbD 1 = false then
      some .spriteMode2
    else if c.R 23 ≠ 0 then some .verticalOffset
    else if (c.R 9).getLsbD 3 = true then some .interlace
    else if (c.R 9).getLsbD 2 = true then some .evenOddPages
    else none

/-- Frame start (R322) and the line event (R353), in the order of 60_exceptions R615. -/
def beginLine (v : Variant) (c : Chip) (l : Nat) : Chip :=
  let c1 := if l = 0 then { c with collisionReported := false } else c
  if v ≠ .B ∧ l = (c.R 19).toNat then lineEvent c1 else c1

/-- `render(L)` where it is not refused (R320, R352, 60_exceptions R615). -/
def renderLine (cfg : Config) (c : Chip) (l : Nat) : Chip × Output :=
  let c1 := beginLine cfg.variant c l
  if l < visibleLines cfg.variant c then
    let d := drawLine cfg c1 l
    (if l + 1 = visibleLines cfg.variant c then frameEvent d.1 else d.1, .line d.2)
  else (c1, .none)

end Sys2Proof.Machine
end

