-- ==== Sys2Proof/Machine/Driver.lean ====
section
/-! DEFINITION. Machine/Driver.lean: the meanings of the driver, persistence and debug calls (42_renderer R320,
43_command_engine R410, 70_reset_and_hazards R700 to R717). -/

namespace Sys2Proof.Machine

/-- RENDER (42_renderer R320, R398, R399). -/
def execRender (l : Nat) (s : State) : Host.Outcome State Fault Refusal :=
  if s.cfg.totalLines ≤ l then .refused .lineOutOfRange
  else
    match renderRefusal s.cfg.variant s.chip l with
    | some r => .refused r
    | none => s.done (renderLine s.cfg s.chip l).1 (renderLine s.cfg s.chip l).2

/-- UPDATE (43_command_engine R410); variant H only. -/
def execUpdate (s : State) : Host.Outcome State Fault Refusal :=
  s.only .H (s.done (updateCommand s.cfg s.chip) .none)

/-- The entry of variant H's palette that nine drawn bits make. -/
def rgbOfBits (b : BitVec 9) : Rgb where
  red := b.extractLsb' 6 3
  green := b.extractLsb' 3 3
  blue := b.extractLsb' 0 3

/-- The chip after the reset call that is the `n`-th draw: VRAM, the prefetch byte and the palettes are free
(70_reset_and_hazards R700, R703). -/
def resetDrawn (v : Variant) (n : Nat) : Chip :=
  Chip.resetWith v (Memory.tabulate (vramMain v) (Config.drawVram n)) (Memory.tabulate (vramExp v) (Config.drawExp n))
    (Config.drawByte n) (Vector.ofFn fun k => Config.drawPaletteE n k.val)
    (Vector.ofFn fun k => rgbOfBits (Config.drawPaletteH n k.val))

/-- RESET (R700). -/
def execReset (s : State) : Host.Outcome State Fault Refusal :=
  s.doneDrawn (resetDrawn s.cfg.variant s.draws) .none

/-- SNAPSHOT (R710): the whole state tuple, no change. -/
def execSnapshot (s : State) : Host.Outcome State Fault Refusal := s.done s.chip (.saved s.chip)

/-- The running opcode of a restored command is derived from the saved opcode (R711). -/
def rederive (c : Chip) : Chip :=
  match c.engine with
  | .idle => c
  | .running op => { c with engine := .running ((opOf c.mmc.CM).getD op) }

/-- RESTORE (R711). -/
def execRestore (c : Chip) (s : State) : Host.Outcome State Fault Refusal :=
  if c.ok s.cfg.variant then s.done (rederive c) .none else .refused .notASavedState

/-- DEBUG READ/WRITE (R716). -/
def execDebugReadWrite (a : Nat) (w : Option Byte) (s : State) : Host.Outcome State Fault Refusal :=
  match w with
  | none => s.done s.chip (.byte (s.chip.readAt (debugPlace s.cfg.variant a)))
  | some b => s.done (s.chip.writeAt (debugPlace s.cfg.variant a) b) .none

/-- DEBUG DUMP (R717): the registers of the bank, the status registers, the mode and the derived values. -/
def execDebugDump (s : State) : Host.Outcome State Fault Refusal :=
  s.done s.chip
    (.dump (s.chip.reg.toList.take (nreg s.cfg.variant)) s.chip.status (geometry s.cfg.variant s.chip))

end Sys2Proof.Machine
end

