-- ==== Sys2Proof/Machine/Dispatch.lean ====
section
/-! DEFINITION. Machine/Dispatch.lean: one arm per instruction. -/

namespace Sys2Proof.Machine

def exec (i : Instr) (s : State) : Host.Outcome State Fault Refusal :=
  match i with
  | .waFirst p => Sys2Proof.Machine.execWaFirst p s
  | .waSetrd a => Sys2Proof.Machine.execWaSetrd a s
  | .waSetwr a => Sys2Proof.Machine.execWaSetwr a s
  | .waWreg sub r => Sys2Proof.Machine.execWaWreg sub r s
  | .wd d => Sys2Proof.Machine.execWd d s
  | .wdPaletteE d => Sys2Proof.Machine.execWdPaletteE d s
  | .wdPaletteH d => Sys2Proof.Machine.execWdPaletteH d s
  | .rd => Sys2Proof.Machine.execRd s
  | .rsS0 => Sys2Proof.Machine.execRsS0 s
  | .rsS1H => Sys2Proof.Machine.execRsS1H s
  | .rsS2H => Sys2Proof.Machine.execRsS2H s
  | .rsS7H => Sys2Proof.Machine.execRsS7H s
  | .rsOtherH => Sys2Proof.Machine.execRsOtherH s
  | .rsE => Sys2Proof.Machine.execRsE s
  | .wp d => Sys2Proof.Machine.execWp d s
  | .wi d => Sys2Proof.Machine.execWi d s
  | .render l => Sys2Proof.Machine.execRender l s
  | .update => Sys2Proof.Machine.execUpdate s
  | .reset => Sys2Proof.Machine.execReset s
  | .snapshot => Sys2Proof.Machine.execSnapshot s
  | .restore c => Sys2Proof.Machine.execRestore c s
  | .debugReadWrite a w => Sys2Proof.Machine.execDebugReadWrite a w s
  | .debugDump => Sys2Proof.Machine.execDebugDump s
  | .stop x => Sys2Proof.Machine.execStop x s
  | .undefined1 x => Sys2Proof.Machine.execUndefined1 x s
  | .undefined2 x => Sys2Proof.Machine.execUndefined2 x s
  | .undefined3 x => Sys2Proof.Machine.execUndefined3 x s
  | .point x => Sys2Proof.Machine.execPoint x s
  | .pset l => Sys2Proof.Machine.execPset l s
  | .srch x => Sys2Proof.Machine.execSrch x s
  | .line l => Sys2Proof.Machine.execLine l s
  | .lmmv l => Sys2Proof.Machine.execLmmv l s
  | .lmmm l => Sys2Proof.Machine.execLmmm l s
  | .lmcm x => Sys2Proof.Machine.execLmcm x s
  | .lmmc l => Sys2Proof.Machine.execLmmc l s
  | .hmmv x => Sys2Proof.Machine.execHmmv x s
  | .hmmm x => Sys2Proof.Machine.execHmmm x s
  | .ymmm x => Sys2Proof.Machine.execYmmm x s
  | .hmmc x => Sys2Proof.Machine.execHmmc x s
  | .loImp cm => Sys2Proof.Machine.execLoImp cm s
  | .loAnd cm => Sys2Proof.Machine.execLoAnd cm s
  | .loOr cm => Sys2Proof.Machine.execLoOr cm s
  | .loEor cm => Sys2Proof.Machine.execLoEor cm s
  | .loNot cm => Sys2Proof.Machine.execLoNot cm s
  | .loTimp cm => Sys2Proof.Machine.execLoTimp cm s
  | .loTand cm => Sys2Proof.Machine.execLoTand cm s
  | .loTor cm => Sys2Proof.Machine.execLoTor cm s
  | .loTeor cm => Sys2Proof.Machine.execLoTeor cm s
  | .loTnot cm => Sys2Proof.Machine.execLoTnot cm s
  | .loUndefined5 cm => Sys2Proof.Machine.execLoUndefined5 cm s
  | .loUndefined6 cm => Sys2Proof.Machine.execLoUndefined6 cm s
  | .loUndefined7 cm => Sys2Proof.Machine.execLoUndefined7 cm s
  | .loUndefined13 cm => Sys2Proof.Machine.execLoUndefined13 cm s
  | .loUndefined14 cm => Sys2Proof.Machine.execLoUndefined14 cm s
  | .loUndefined15 cm => Sys2Proof.Machine.execLoUndefined15 cm s

end Sys2Proof.Machine
end

