-- ==== Sys2Proof/Machine/Step.lean ====
section
/-! DEFINITION. Machine/Step.lean: one step serves the next call (00_scope R10, R11; assumption log 2). -/

namespace Sys2Proof.Machine

/-- The refusal of a call that is no instruction of this machine. -/
def refusalOf : Reject → Refusal
  | .absentInVariant => .absentInVariant
  | .lineOutOfRange => .lineOutOfRange
  | .notASavedState => .notASavedState

/-- What the decoding of the next call depends on. -/
def State.ctx (s : State) : Ctx := decodeCtx s.cfg.variant s.chip

/-- The next call decoded. -/
def State.fetch (s : State) (call : Call) : Except Reject Instr := decode s.cfg s.ctx call

/-- One step: the next call is taken from the input, decoded and carried out, whole (R10, 20_memory R106). With no call
to come nothing happens: the block has no thread of its own (R11). -/
def step (s : State) : Host.Outcome State Fault Refusal :=
  match s.input with
  | [] => .next s
  | call :: rest =>
    match s.fetch call with
    | .ok i => exec i { s with input := rest }
    | .error r => .refused (refusalOf r)

/-- The state with a bare table word's call put in front of the input (assumption log 9). -/
def State.withFetchWord (s : State) (_nbits w : Nat) : State :=
  match tableCall w with
  | some call => { s with input := call :: s.input }
  | none => s

end Sys2Proof.Machine
end

