-- ==== Sys2Proof/Safety.lean ====
section
/-! DEFINITION. Safety.lean: the terms in which claims speak of runs. -/

namespace Sys2Proof.Machine

/-- The invariant of the block: the chip is in a state it can be in (10_state R32, R33, R52; 43_command_engine R401,
R420, R430). -/
abbrev State.Inv (s : State) : Prop := s.chip.ok s.cfg.variant

/-- The bytes of both arrays that the port protocol, the engine, the renderer and the debug path read. -/
def State.byteAt (s : State) (p : Place) : Byte := s.chip.readAt p

/-- The next state of a call that ends with a given chip and returns a given value. -/
def State.after (s : State) (c : Chip) (o : Output) : Host.Outcome State Fault Refusal :=
  .next { s with chip := c, out := o }

/-- The instructions after which a byte of memory may differ (20_memory R101): the data write, a reset, a restore, a debug
write, and in variant H whatever starts or steps the Command Engine (43_command_engine R400). -/
def mayWriteMemory (v : Variant) : Instr → Bool
  | .wd _ | .reset | .restore _ | .debugReadWrite _ (some _) => true
  | .waWreg _ _ | .wi _ | .update
  | .stop _ | .undefined1 _ | .undefined2 _ | .undefined3 _ | .point _ | .pset _ | .srch _ | .line _ | .lmmv _ | .lmmm _
  | .lmcm _ | .lmmc _ | .hmmv _ | .hmmm _ | .ymmm _ | .hmmc _
  | .loImp _ | .loAnd _ | .loOr _ | .loEor _ | .loNot _ | .loTimp _ | .loTand _ | .loTor _ | .loTeor _ | .loTnot _
  | .loUndefined5 _ | .loUndefined6 _ | .loUndefined7 _ | .loUndefined13 _ | .loUndefined14 _ | .loUndefined15 _ => v == .H
  | .waFirst _ | .waSetrd _ | .waSetwr _ | .wdPaletteE _ | .wdPaletteH _ | .rd | .rsS0 | .rsS1H | .rsS2H | .rsS7H
  | .rsOtherH | .rsE | .wp _ | .render _ | .snapshot | .debugReadWrite _ none | .debugDump => false

/-- The latch phase after an instruction, from the phase before it (40_port_protocol R202 to R224, 70_reset_and_hazards R700,
R711). -/
def phaseAfter (p : Phase) : Instr → Phase
  | .waFirst _ => .second
  | .waSetrd _ | .waSetwr _ | .waWreg _ _ | .wd _ | .wdPaletteE _ | .wdPaletteH _ | .rd | .rsS0 | .rsS1H | .rsS2H
  | .rsS7H | .rsOtherH | .rsE | .reset => .first
  | .restore c => c.phase
  | .wp _ | .wi _ | .render _ | .update | .snapshot | .debugReadWrite _ _ | .debugDump
  | .stop _ | .undefined1 _ | .undefined2 _ | .undefined3 _ | .point _ | .pset _ | .srch _ | .line _ | .lmmv _ | .lmmm _
  | .lmcm _ | .lmmc _ | .hmmv _ | .hmmm _ | .ymmm _ | .hmmc _
  | .loImp _ | .loAnd _ | .loOr _ | .loEor _ | .loNot _ | .loTimp _ | .loTand _ | .loTor _ | .loTeor _ | .loTnot _
  | .loUndefined5 _ | .loUndefined6 _ | .loUndefined7 _ | .loUndefined13 _ | .loUndefined14 _ | .loUndefined15 _ => p

/-- The place the next step of a running opcode writes, where it writes one (44_command_ops R472, R476, R479, R488, R489,
R491): LINE its point (DX, DY), the block opcodes (ADX, DY). -/
def Chip.target (c : Chip) : Op → Option Place
  | .srch | .lmcm => none
  | .line => some (pixelPlace c c.mmc.MXD c.mmc.DX c.mmc.DY)
  | .lmmv | .lmmm | .lmmc | .hmmv | .hmmm | .ymmm | .hmmc => some (pixelPlace c c.mmc.MXD c.mmc.ADX c.mmc.DY)

/-- The place of the pixel the registers name as the destination (44_command_ops R460, R466). -/
def Chip.destination (c : Chip) : Place := pixelPlace c ((c.R 45).getLsbD 5) (pair c 36 9) (pair c 38 10)

/-- The chip after PSET, given the byte of R46 and what is written to the destination, if anything (44_command_ops R466). -/
def Chip.afterPset (c : Chip) (b : Byte) (w : Option Byte) : Chip :=
  finish (match w with
    | some x => (c.setR 46 b).writeAt c.destination x
    | none => c.setR 46 b)

/-- The configurations of variant H in which a visible line is refused (42_renderer R399). -/
def Chip.refusedH (c : Chip) : Prop :=
  modeOf .H c = .G3 ∨ modeOf .H c = .T2 ∨
  (commandMode (modeOf .H c) = true ∧ (c.R 1).getLsbD 6 = true ∧ (c.R 8).getLsbD 1 = false) ∨
  c.R 23 ≠ 0 ∨ (c.R 9).getLsbD 3 = true ∨ (c.R 9).getLsbD 2 = true

/-- The configurations of variant E in which a render is refused (42_renderer R398). -/
def Chip.refusedE (c : Chip) : Prop :=
  ∃ n, 8 ≤ n ∧ n < 64 ∧ n ≠ 15 ∧ n ≠ 19 ∧ n ≠ 47 ∧ n ≠ 48 ∧ n ≠ 50 ∧ n ≠ 57 ∧ c.R n ≠ 0

/-- A call `render(l)` that is not refused (42_renderer R320, R398, R399). -/
def State.renders (s : State) (l : Nat) : Prop :=
  l < s.cfg.totalLines ∧ (s.cfg.variant = .E → ¬ s.chip.refusedE) ∧
  (s.cfg.variant = .H → l < visibleLines .H s.chip → ¬ s.chip.refusedH)

/-! ### Sprites in numbers

What 42_renderer R341 and R344 say of a sprite, from bytes of main VRAM alone. -/

/-- A byte of main VRAM, the address truncated to 14 bits in B and E and to 17 in H (00_scope R15). -/
def tableRead (v : Variant) (c : Chip) (a : Nat) : Byte := c.readAt (.main (a % if v = .H then 131072 else 16384))

/-- Byte `k` of the attribute entry of sprite `i`: Y, X, name, attribute (R341, R344). -/
def attributeByte (v : Variant) (c : Chip) (i k : Nat) : Byte := tableRead v c (spriteBase v c + 4 * i + k)

/-- The first line of sprite `i`: one below Y, where a Y above 0xD0 stands for Y - 256 (R341). -/
def firstLine (v : Variant) (c : Chip) (i : Nat) : Int :=
  let y : Int := (attributeByte v c i 0).toNat
  if 208 < y then y - 255 else y + 1

/-- The first column of sprite `i`: X, or X - 32 with the early clock, attribute bit 7 (R344). -/
def firstColumn (v : Variant) (c : Chip) (i : Nat) : Int :=
  let x : Int := (attributeByte v c i 1).toNat
  if 128 ≤ (attributeByte v c i 3).toNat then x - 32 else x

/-- How many lines and columns a sprite takes: 8 or 16 by R1 bit 1, doubled by R1 bit 0 (41_register_bank R283). -/
def spriteExtent (c : Chip) : Nat := (if (c.R 1).getLsbD 1 then 16 else 8) * (if (c.R 1).getLsbD 0 then 2 else 1)

/-- The pattern bit of sprite `i` at column `k` and row `r` of its pattern, before magnification: the byte of the row, 16 bytes on
for columns 8 to 15, bit 7 leftmost; a sprite of size 16 takes its name without bits 1:0 (R344). -/
def patternBit (v : Variant) (c : Chip) (i k r : Nat) : Bool :=
  let name := (attributeByte v c i 2).toNat
  let first := if (c.R 1).getLsbD 1 then name / 4 * 4 else name
  (tableRead v c (spritePatternBase v c + first * 8 + k / 8 * 16 + r)).getLsbD (7 - k % 8)

/-- Sprite `i` has a set pattern bit at column `x` of line `l` (R344): the offsets into the sprite, divided by the
magnification, are the column and the row of its pattern. -/
def spriteCovers (v : Variant) (c : Chip) (l x i : Nat) : Bool :=
  let dx : Int := x - firstColumn v c i
  let dy : Int := l - firstLine v c i
  let mag : Int := if (c.R 1).getLsbD 0 then 2 else 1
  decide (0 ≤ dx ∧ dx < spriteExtent c) && patternBit v c i (dx / mag).toNat (dy / mag).toNat

/-- The colour of sprite `i`, attribute bits 3:0 (R344). -/
def spriteColour (v : Variant) (c : Chip) (i : Nat) : Byte := attributeByte v c i 3 &&& 0x0F

/-- The sprites on line `l` before the end of the attribute table, lowest number first (R341). -/
def spritesOn (v : Variant) (c : Chip) (l : Nat) : List Nat :=
  ((List.range 32).takeWhile fun i => (attributeByte v c i 0).toNat != 208).filter fun i =>
    decide (firstLine v c i ≤ l ∧ (l : Int) < firstLine v c i + spriteExtent c)

/-- The sprites that take part in line `l`: the first four of those on it, or all where the cap is raised (R342). -/
def spritesDrawn (cfg : Config) (c : Chip) (l : Nat) : List Nat :=
  if cfg.unlimitedSprites then spritesOn cfg.variant c l else (spritesOn cfg.variant c l).take 4

/-- A pixel of sprite `i` counts for collision: its colour is not 0, or `COLLIDE_TRANSPARENT` holds (R345). -/
def countsForCollision (cfg : Config) (c : Chip) (i : Nat) : Prop :=
  spriteColour cfg.variant c i ≠ 0 ∨ cfg.collideTransparent = true

/-- Two sprites that take part in line `l` have counting pixels at one column of the screen (R345). -/
def spritesCollide (cfg : Config) (c : Chip) (l : Nat) : Prop :=
  ∃ x < 256, ∃ i ∈ spritesDrawn cfg c l, ∃ j ∈ spritesDrawn cfg c l, i ≠ j ∧
    countsForCollision cfg c i ∧ countsForCollision cfg c j ∧
    spriteCovers cfg.variant c l x i = true ∧ spriteCovers cfg.variant c l x j = true

end Sys2Proof.Machine
end

