-- ==== Sys2Proof/Certificates/Slice0/Obligations.lean ====
section
/-! DEFINITION. Certificates/Slice0/Obligations.lean: the statements for the provers. `s.after c o` is the next state in which
the chip is `c`, the call returned `o`, and everything else is as in `s`: an equation with it is a result, a completion and a
frame at once. -/

open Sys2Proof Sys2Proof.Machine

/-! ## Encoding and fetching -/

/-- A step serves the next call: it runs the instruction the call decodes to, on the state without that call; a call that is
no instruction is refused by name; with no call to come nothing happens. Decoding sees the latch phase and, in E and H, R47 bit 7
and R15 bits 3:0 (00_scope R10, R11; 30_encoding R140, R153; 40_port_protocol R211). -/
def Obligations.StepRunsDecoded : Prop :=
  ∀ s : State, (s.input = [] → step s = .next s) ∧
    (∀ (call : Call) (rest : List Call), s.input = call :: rest →
      (∀ i, decode s.cfg s.ctx call = .ok i → step s = exec i { s with input := rest }) ∧
      (∀ r, decode s.cfg s.ctx call = .error r → step s = .refused (refusalOf r))) ∧
    s.ctx.phase = s.chip.phase ∧ s.ctx.sel = statusSelect s.cfg.variant s.chip ∧
    (s.cfg.variant ≠ .B → s.ctx.dpm = (s.chip.R 47).getLsbD 7 ∧ s.ctx.sel.toNat = (s.chip.R 15).toNat % 16)

/-- Decoding the call of an instruction that exists gives the instruction back, in every context that selects its row. -/
def Obligations.DecodeEncode : Prop :=
  ∀ (cfg : Config) (ctx : Ctx) (i : Instr), i.wf cfg = true → i.fits cfg.variant ctx = true →
    decode cfg ctx (encode i) = .ok i

/-- What decoding answers exists in the machine, fits the context, and its call is the call decoded. -/
def Obligations.EncodeDecode : Prop :=
  ∀ (cfg : Config) (ctx : Ctx) (call : Call) (i : Instr), decode cfg ctx call = .ok i →
    encode i = call ∧ i.wf cfg = true ∧ i.fits cfg.variant ctx = true

/-- The calls decoding turns away, each with its reason: the ports that only variant H has (40_port_protocol R200), and three that
the model adds: UPDATE outside variant H (assumption log 17), a render at or past the end of the frame, for which 42_renderer R320
gives only the range of the line (assumption log 18), and a restore of what is no state of the block (assumption log 16). -/
def Obligations.DecodeRejects : Prop :=
  ∀ (cfg : Config) (ctx : Ctx) (call : Call),
    (decode cfg ctx call = .error .absentInVariant ↔
      cfg.variant ≠ .H ∧ ((∃ b, call = .wp b) ∨ (∃ b, call = .wi b) ∨ call = .update)) ∧
    (decode cfg ctx call = .error .lineOutOfRange ↔ ∃ l, call = .render l ∧ cfg.totalLines ≤ l) ∧
    (decode cfg ctx call = .error .notASavedState ↔ ∃ c, call = .restore c ∧ ¬ c.ok cfg.variant)

/-- A few bytes written out from 30_encoding R141, R144, R151 and 40_port_protocol R211, R153 decode to their rows. -/
def Obligations.DecodeWords : Prop :=
  decodeRow .B ⟨.first, false, 0⟩ (.wa 0b01010011) = .waFirst 0b01010011 ∧
  decodeRow .B ⟨.second, false, 0⟩ (.wa 0b00010010) = .waSetrd 0b010010 ∧
  decodeRow .E ⟨.second, false, 0⟩ (.wa 0b01010010) = .waSetwr 0b010010 ∧
  decodeRow .H ⟨.second, false, 0⟩ (.wa 0b10101110) = .waWreg 0 0b101110 ∧
  decodeRow .H ⟨.second, false, 0⟩ (.wa 0b11101110) = .waWreg 1 0b101110 ∧
  decodeRow .E ⟨.first, true, 0⟩ (.wd 0x0F) = .wdPaletteE 0x0F ∧
  decodeRow .H ⟨.first, false, 7⟩ .rs = .rsS7H ∧
  decodeRow .H ⟨.first, false, 0⟩ (.cmd 0b10000011) = .lmmv 0b0011 ∧
  decodeRow .H ⟨.first, false, 0⟩ (.lo 0b10001010) = .loTor 0b1000

/-- The rows of command bytes and the rows of logical operations are, in every variant, the register write `WREG 46` of
30_encoding R155 with the byte the row names, without the address port's own phase (that the rows are called so is the model's
choice: assumption log 8). -/
def Obligations.CommandRowsAreRegisterWrites : Prop :=
  ∀ (b : Byte) (s : State),
    exec (decodeCommand b) s = s.after (regWrite s.cfg s.chip (regSelect s.cfg.variant 46) b) .none ∧
    exec (decodeLogical b) s = s.after (regWrite s.cfg s.chip (regSelect s.cfg.variant 46) b) .none

/-! ## The port protocol -/

/-- The write-address port: the first byte is kept and the phase turns; the second byte sets up a read (and prefetches), sets up
a write, or writes a register with the pending byte, and turns the phase back (40_port_protocol R202 to R206). -/
def Obligations.WriteAddress : Prop :=
  ∀ s : State,
    (∀ p, exec (.waFirst p) s = s.after { s.chip with pending := p, phase := .second } .none) ∧
    (∀ (a : BitVec 6) (x : BitVec 14), x.toNat = a.toNat * 256 + s.chip.pending.toNat →
      exec (.waSetrd a) s = s.after
        { advance s.cfg.variant { s.chip with
            cursor := x, prefetch := portRead s.cfg.variant { s.chip with cursor := x } } with phase := .first } .none ∧
      exec (.waSetwr a) s = s.after { s.chip with cursor := x, phase := .first } .none) ∧
    (∀ (sub : BitVec 1) (r : BitVec 6), exec (.waWreg sub r) s = s.after
      { regWrite s.cfg s.chip (if s.cfg.variant = .B then r.toNat % 8 else r.toNat) s.chip.pending with phase := .first }
      .none)

/-- Write-data outside the palette mode stores its byte at the cursor's place and nowhere else, replaces the prefetch byte where
`WRITE_UPDATES_PREFETCH` holds, advances and turns the phase back (40_port_protocol R207). -/
def Obligations.WriteData : Prop :=
  ∀ (d : Byte) (s : State), s.Inv → ∃ t, exec (.wd d) s = .next t ∧
    t.byteAt (portPlace s.cfg.variant s.chip) = d ∧
    (∀ p, p ≠ portPlace s.cfg.variant s.chip → t.byteAt p = s.byteAt p) ∧
    t = { s with
      chip := { s.chip with
        vram := t.chip.vram
        exp := t.chip.exp
        prefetch := if s.cfg.writeUpdatesPrefetch then d else s.chip.prefetch
        cursor := (advance s.cfg.variant s.chip).cursor
        reg := (advance s.cfg.variant s.chip).reg
        phase := .first }
      out := .none }

/-- Variant E's palette data port pairs two bytes into a 12-bit entry, and its second byte moves or ends the mode
(40_port_protocol R208). -/
def Obligations.PalettePortE : Prop :=
  ∀ (d : Byte) (s : State), s.cfg.variant = .E →
    (s.chip.palPhase = .first → exec (.wdPaletteE d) s =
      s.after { s.chip with palPending := d, palPhase := .second, phase := .first } .none) ∧
    (s.chip.palPhase = .second → ∀ e : BitVec 12, e.toNat = s.chip.palPending.toNat % 16 * 256 + d.toNat →
      exec (.wdPaletteE d) s = s.after
        { s.chip.setR 47 (if (s.chip.R 47).getLsbD 6
              then (s.chip.R 47 &&& 0xC0) ||| BitVec.ofNat 8 (((s.chip.R 47).toNat % 64 + 1) % 64)
              else s.chip.R 47 &&& 0x7F) with
          paletteE := s.chip.paletteE.setIfInBounds ((s.chip.R 47).toNat % 64) e
          palPhase := .first
          phase := .first } .none)

/-- Variant H's palette takes two bytes per entry, by the write-palette port, which leaves the address latch alone, or by the
data port in palette mode, which resets it; the second byte stores the entry and moves the palette pointer
(40_port_protocol R209, R220). -/
def Obligations.PalettePortsH : Prop :=
  ∀ (d : Byte) (s : State), s.cfg.variant = .H →
    (s.chip.palPhase = .first →
      exec (.wp d) s = s.after { s.chip with palPending := d, palPhase := .second } .none ∧
      exec (.wdPaletteH d) s = s.after { s.chip with palPending := d, palPhase := .second, phase := .first } .none) ∧
    (s.chip.palPhase = .second → ∀ e : Rgb, e.red.toNat = s.chip.palPending.toNat / 16 % 8 →
      e.green.toNat = d.toNat % 8 → e.blue.toNat = s.chip.palPending.toNat % 8 → ∀ c : Chip,
      c = { s.chip.setR 16 ((s.chip.R 16 &&& 0xF0) ||| BitVec.ofNat 8 (((s.chip.R 16).toNat % 16 + 1) % 16)) with
        paletteH := s.chip.paletteH.setIfInBounds ((s.chip.R 16).toNat % 16) e
        palPhase := .first } →
      exec (.wp d) s = s.after c .none ∧ exec (.wdPaletteH d) s = s.after { c with phase := .first } .none)

/-- Read-data returns the prefetch byte, then reads ahead at the cursor and advances; so the first read after a read setup returns the
byte as it was at the setup, whatever is written to memory in between (40_port_protocol R210). -/
def Obligations.ReadData : Prop :=
  (∀ s : State, exec .rd s = s.after
    { advance s.cfg.variant { s.chip with prefetch := portRead s.cfg.variant s.chip } with phase := .first }
    (.byte s.chip.prefetch)) ∧
  ∀ (s : State) (a : BitVec 6) (x : Nat) (b : Byte), ∃ t u w,
    exec (.waSetrd a) s = .next t ∧ exec (.debugReadWrite x (some b)) t = .next u ∧ exec .rd u = .next w ∧
    w.out = .byte (s.byteAt (portPlace s.cfg.variant { s.chip with cursor := a ++ s.chip.pending }))

/-- A read of S#0 returns it, clears F, 5S and C and keeps the sprite number, deasserts the interrupt output and resets the
latch phase (40_port_protocol R212). -/
def Obligations.StatusZero : Prop :=
  ∀ s : State, exec .rsS0 s = s.after
    { s.chip with
      status := { s.chip.status with s0 := s.chip.status.s0 &&& 0x1F }
      intLine := false
      phase := .first }
    (.byte s.chip.status.s0)

/-- The status reads of variant H past S#0: S#1 returns the identification and FH and clears FH; S#2 returns TR, BD, two ones and CE,
with VR, HR and EO free; S#7 returns itself, and the hand-shake of a running LMCM follows; S#8 and S#9 return themselves; S#3 to S#6 and
S#10 to S#15 return a free byte; but for S#1 nothing is cleared (40_port_protocol R213 to R216). -/
def Obligations.StatusH : Prop :=
  ∀ s : State, s.cfg.variant = .H →
    (∃ b : Byte, exec .rsS1H s = s.after
        { s.chip with status := { s.chip.status with fh := false }, phase := .first } (.byte b) ∧
      b.getLsbD 7 = false ∧ b.getLsbD 6 = false ∧ b.toNat / 2 % 32 = s.cfg.statusIdH.toNat % 32 ∧
      b.getLsbD 0 = s.chip.status.fh) ∧
    (∃ b : Byte, exec .rsS2H s = .next { s with
        chip := { s.chip with phase := .first }, out := .byte b, draws := s.draws + 1 } ∧
      b.getLsbD 7 = s.chip.status.tr ∧ b.getLsbD 4 = s.chip.status.bd ∧ b.getLsbD 3 = true ∧ b.getLsbD 2 = true ∧
      b.getLsbD 0 = s.chip.status.ce) ∧
    (exec .rsS7H s = s.after
      { (if s.chip.engine = .running .lmcm then transferLMCM s.chip else s.chip) with phase := .first }
      (.byte s.chip.status.s7)) ∧
    (statusSelect .H s.chip = 8 → exec .rsOtherH s = s.after { s.chip with phase := .first } (.byte s.chip.status.s8)) ∧
    (statusSelect .H s.chip = 9 → exec .rsOtherH s = s.after { s.chip with phase := .first } (.byte s.chip.status.s9)) ∧
    (statusSelect .H s.chip ≠ 8 → statusSelect .H s.chip ≠ 9 → ∃ b : Byte, exec .rsOtherH s = .next { s with
      chip := { s.chip with phase := .first }, out := .byte b, draws := s.draws + 1 })

/-- Variant E: a read of S#1 returns `STATUS_ID_E` with bit 0 replaced by FH and clears FH; a read of any other status register
but S#0 returns its parameter (40_port_protocol R217). -/
def Obligations.StatusE : Prop :=
  ∀ s : State, s.cfg.variant = .E →
    (statusSelect .E s.chip = 1 → ∃ b : Byte, exec .rsE s = s.after
        { s.chip with status := { s.chip.status with fh := false }, phase := .first } (.byte b) ∧
      b.toNat / 2 = s.cfg.statusIdE.toNat / 2 ∧ b.getLsbD 0 = s.chip.status.fh) ∧
    (∀ k : Fin 16, 2 ≤ k.val → (statusSelect .E s.chip).toNat = k.val →
      exec .rsE s = s.after { s.chip with phase := .first } (.byte s.cfg.statusE[k]))

/-- Variant H's indirect port writes the register R17 points to, but never R17, and moves the pointer unless R17 bit 7 is 1; the
address latch is not touched (40_port_protocol R222). -/
def Obligations.WriteIndirect : Prop :=
  ∀ (d : Byte) (s : State) (r : Nat) (c : Chip), s.cfg.variant = .H → r = (s.chip.R 17).toNat % 64 →
    c = (if r ≠ 17 then regWrite s.cfg s.chip r d else s.chip) →
    exec (.wi d) s = s.after
      (if (c.R 17).getLsbD 7 = false then c.setR 17 ((c.R 17 &&& 0xC0) ||| BitVec.ofNat 8 ((r + 1) % 64)) else c) .none

/-- A transaction on a port, a palette form or a status form the variant lacks gets no step (40_port_protocol R200). -/
def Obligations.AbsentPortsRefused : Prop :=
  ∀ (s : State) (d : Byte) (rest : List Call),
    (s.cfg.variant ≠ .H → s.input = .wp d :: rest ∨ s.input = .wi d :: rest ∨ s.input = .update :: rest →
      step s = .refused .absentInVariant) ∧
    (s.cfg.variant ≠ .H → ∀ i ∈ [Instr.wp d, .wi d, .update, .wdPaletteH d, .rsS1H, .rsS2H, .rsS7H, .rsOtherH],
      exec i s = .refused .absentInVariant) ∧
    (s.cfg.variant ≠ .E → ∀ i ∈ [Instr.wdPaletteE d, .rsE], exec i s = .refused .absentInVariant)

/-- The address latch: only a first write-address byte turns the phase to second; the second byte, every data-port access, every
status read and a reset turn it to first; a restore loads it; nothing else touches it (40_port_protocol R202, R206, R211, R224;
70_reset_and_hazards R700, R711). That the command rows and the logical-operation rows leave it alone is the model's reading:
assumption log 8. -/
def Obligations.LatchPhase : Prop :=
  ∀ (i : Instr) (s t : State), exec i s = .next t → t.chip.phase = phaseAfter s.chip.phase i

/-- N data writes in a row in variant B, from any cursor, end with the cursor N further on modulo the address range and with the
N bytes stored in order, every other byte as before (40_port_protocol R201, R207). -/
def Obligations.DataPortWrites : Prop :=
  ∀ (s : State) (bs : List Byte) (rest : List Call), s.Inv → s.cfg.variant = .B → s.input = bs.map Call.wd ++ rest →
    ∃ t, Host.Core.run Sys2Proof.core bs.length s = .next t ∧ t.input = rest ∧
      t.chip.cursor.toNat = (s.chip.cursor.toNat + bs.length) % 16384 ∧
      (bs.length ≤ 16384 →
        (∀ i, ∀ h : i < bs.length, t.byteAt (.main ((s.chip.cursor.toNat + i) % 16384)) = bs[i]) ∧
        ∀ p, (∀ i < bs.length, p ≠ .main ((s.chip.cursor.toNat + i) % 16384)) → t.byteAt p = s.byteAt p)

/-! ## Memory -/

/-- The byte a port address reaches: the cursor in B and E; in H the 17-bit address of R14 and the cursor, in the expansion bank
while MXC is 1, and interleaved in G6 and G7 (20_memory R102). -/
def Obligations.PortAddress : Prop :=
  ∀ c : Chip,
    portPlace .B c = .main c.cursor.toNat ∧ portPlace .E c = .main c.cursor.toNat ∧
    ∀ a : Nat, a = ((c.R 14).toNat % 8) <<< 14 ||| c.cursor.toNat →
      portPlace .H c =
        if (c.R 45).getLsbD 6 then .exp (a % 65536)
        else if modeOf .H c = .G6 ∨ modeOf .H c = .G7 then .main (((a &&& 1) <<< 16) ||| (a >>> 1))
        else .main a

/-- The port primitives: a read and a write at the cursor's place, and the advance, by one modulo 16384, in E by the signed
increment of R48, in H with the carry into R14 in G4 to G7 (40_port_protocol R201). -/
def Obligations.PortPrimitives : Prop :=
  ∀ (v : Variant) (c : Chip) (b : Byte), c.ok v →
    portRead v c = c.readAt (portPlace v c) ∧
    (portWrite v c b).readAt (portPlace v c) = b ∧
    (∀ p, p ≠ portPlace v c → (portWrite v c b).readAt p = c.readAt p) ∧
    portWrite v c b = { c with vram := (portWrite v c b).vram, exp := (portWrite v c b).exp } ∧
    advance v c = { c with cursor := (advance v c).cursor, reg := (advance v c).reg } ∧
    ((advance v c).cursor.toNat : Int) =
      ((c.cursor.toNat : Int) + (if v = .E then (c.R 48).toInt else 1)) % 16384 ∧
    (∀ n, n ≠ 14 → (advance v c).R n = c.R n) ∧
    (advance v c).R 14 =
      if v = .H ∧ c.cursor.toNat = 16383 ∧ commandMode (modeOf .H c) = true
      then BitVec.ofNat 8 (((c.R 14).toNat % 8 + 1) % 8) else c.R 14

/-- The engine's byte of a pixel in G6 and G7 is the byte the port reaches at the same row and byte of the line (20_memory R103,
43_command_engine R432, R433). -/
def Obligations.InterleaveAgrees : Prop :=
  ∀ x y : Nat, y < 512 →
    (x < 512 → vaddr .G6 x y = interleave (y * 256 + x / 2)) ∧ (x < 256 → vaddr .G7 x y = interleave (y * 256 + x))

/-- Only the data write, a reset, a restore, a debug write and, in variant H, what starts or steps the Command Engine can change a
byte of memory (20_memory R101, 42_renderer R320). -/
def Obligations.OnlyTheseWriteMemory : Prop :=
  ∀ (i : Instr) (s t : State), exec i s = .next t → mayWriteMemory s.cfg.variant i = false →
    ∀ p, t.byteAt p = s.byteAt p

/-! ## The register bank -/

/-- Register numbers and plain stores. B reaches R0 to R7; in H a number past the bank changes nothing, and a register without a
side effect is only stored, R44 too unless LMMC or HMMC runs, and a write of R16 resets the palette phase (41_register_bank R261,
R262, R266, R268). -/
def Obligations.RegisterStores : Prop :=
  ∀ (cfg : Config) (c : Chip) (n : Nat) (b : Byte),
    (cfg.variant = .B → n < 8 → regWrite cfg c n b = c.setR n b) ∧
    (cfg.variant = .H → 48 ≤ n → regWrite cfg c n b = c) ∧
    (cfg.variant = .H → 2 ≤ n → n < 48 → n ≠ 16 → n ≠ 44 → n ≠ 46 → regWrite cfg c n b = c.setR n b) ∧
    (cfg.variant = .H → n = 16 → regWrite cfg c n b = { c.setR 16 b with palPhase := .first }) ∧
    (cfg.variant = .H → n = 44 → c.engine ≠ .running .lmmc → c.engine ≠ .running .hmmc →
      regWrite cfg c n b = c.setR 44 b)

/-- The lock of variant E: what a write of R57 does to it, where a write of a locked machine lands, and what a write of an unlocked
one does (41_register_bank R290). -/
def Obligations.LockFilter : Prop :=
  ∀ (cfg : Config) (c : Chip) (n : Nat) (b : Byte), cfg.variant = .E →
    (regWrite cfg c 57 b = { c.setR 57 b with lock :=
      if b = 0x1C then
        if c.lock.unlockCount = 1 then { unlocked := true, unlockCount := 0 }
        else { unlocked := c.lock.unlocked, unlockCount := 1 }
      else { unlocked := c.lock.unlocked && !cfg.relockOnOther57, unlockCount := 0 } }) ∧
    (n < 64 → n ≠ 57 → c.lock.unlocked = false →
      regWrite cfg c n b = { c.setR (n % 8) b with lock := { unlocked := false, unlockCount := 0 } }) ∧
    (n < 64 → n ≠ 57 → c.lock.unlocked = true → ¬ (n = 50 ∧ b.getLsbD 7 = true) →
      regWrite cfg c n b = { c.setR n b with lock := { unlocked := true, unlockCount := 0 } })

/-- The bank reset of variant E: every register at its reset value and the machine locked, nothing else changed; while it is locked
the write lands in R2 and resets nothing (41_register_bank R292). -/
def Obligations.BankReset : Prop :=
  ∀ (cfg : Config) (c : Chip) (b : Byte), cfg.variant = .E → b.getLsbD 7 = true →
    (c.lock.unlocked = true → ∃ d, regWrite cfg c 50 b = d ∧
      d = { c with reg := d.reg, lock := { unlocked := false, unlockCount := 0 } } ∧
      ∀ n, n < 64 → d.R n = if n = 48 then 0x01 else 0x00) ∧
    (c.lock.unlocked = false →
      regWrite cfg c 50 b = { c.setR 2 b with lock := { unlocked := false, unlockCount := 0 } })

/-- The unlock sequence of variant E: two successive register writes of 0x1C to R57, with a data access between them, leave the
machine unlocked from any state of the lock (41_register_bank R290; 70_reset_and_hazards R728). -/
def Obligations.UnlockSequence : Prop :=
  ∀ (s : State) (d : Byte) (rest : List Call), s.cfg.variant = .E → s.chip.phase = .first →
    s.input = [Call.wa 0x1C, .wa 0xB9, .wd d, .wa 0x1C, .wa 0xB9] ++ rest →
    ∃ t, Host.Core.run Sys2Proof.core 5 s = .next t ∧ t.chip.lock.unlocked = true ∧ t.chip.R 57 = 0x1C ∧ t.input = rest

/-- A write of R0 or R1 in variant H that changes the mode while a command runs stops the command with no write-back; any other write
of them only stores (41_register_bank R267). -/
def Obligations.AbortOnModeChange : Prop :=
  ∀ (cfg : Config) (c : Chip) (n : Nat) (b : Byte), cfg.variant = .H → n < 2 →
    (modeOf .H (c.setR n b) ≠ modeOf .H c → c.engine ≠ .idle → regWrite cfg c n b =
      { c.setR n b with engine := .idle, mmc := mmcZero, status := { c.status with ce := false, tr := false } }) ∧
    (modeOf .H (c.setR n b) = modeOf .H c ∨ c.engine = .idle → regWrite cfg c n b = c.setR n b)

/-- No register write changes the interrupt output or the event flags (60_exceptions R612, 41_register_bank R265). -/
def Obligations.RegisterWritesKeepInterrupt : Prop :=
  ∀ (cfg : Config) (c : Chip) (n : Nat) (b : Byte),
    (regWrite cfg c n b).intLine = c.intLine ∧ (regWrite cfg c n b).status.s0 = c.status.s0 ∧
    (regWrite cfg c n b).status.fh = c.status.fh

/-- The two mode tables (41_register_bank R270, R271): M1, M2, M3 in B and E; M5, M4, M3, M2, M1 in H, every other combination
illegal. -/
def Obligations.ModeDecoding : Prop :=
  ∀ (c : Chip) (m1 m2 m3 m4 m5 : Bool), m1 = (c.R 1).getLsbD 4 → m2 = (c.R 1).getLsbD 3 → m3 = (c.R 0).getLsbD 1 →
    m4 = (c.R 0).getLsbD 2 → m5 = (c.R 0).getLsbD 3 →
    (∀ v, v ≠ .H → some (modeOf v c) = List.lookup (m1, m2, m3)
      [((false, false, false), Mode.G1), ((false, false, true), .G2), ((false, true, false), .MC),
        ((true, false, false), .T1), ((true, false, true), .BT), ((false, true, true), .BMC),
        ((true, true, false), .ILL), ((true, true, true), .ILL)]) ∧
    modeOf .H c = (List.lookup (m5, m4, m3, m2, m1)
      [((false, false, false, false, false), Mode.G1), ((false, false, false, false, true), .T1),
        ((false, false, false, true, false), .MC), ((false, false, true, false, false), .G2),
        ((false, true, false, false, false), .G3), ((false, true, false, false, true), .T2),
        ((false, true, true, false, false), .G4), ((true, false, false, false, false), .G5),
        ((true, false, true, false, false), .G6), ((true, true, true, false, false), .G7)]).getD .ILL

/-- The derived geometry as numbers (41_register_bank R275 to R280, R282, R283), and that in the bitmap modes base and mask bits never
overlap, so a masked address is a sum inside the address range (R281). -/
def Obligations.DerivedGeometry : Prop :=
  ∀ (v : Variant) (c : Chip) (r : Nat → Nat), (∀ n, r n = (c.R n).toNat) →
    nameBase v c = (if v = .H then r 2 % 128 else r 2 % 16) * 1024 ∧
    colourMask c = r 3 % 128 * 64 + 63 ∧
    patternMask c = r 4 % 4 * 2048 + (r 3 % 128 * 64 + 63) % 2048 ∧
    (bitmapMode (modeOf v c) = false →
      colourBase v c = (if v = .H then r 10 % 8 * 16384 else 0) + r 3 * 64 ∧
      patternBase v c = (if v = .H then r 4 % 64 else r 4 % 8) * 2048) ∧
    (bitmapMode (modeOf v c) = true →
      colourBase v c = (if v = .H then r 10 % 8 * 16384 else 0) + r 3 / 128 * 8192 ∧
      patternBase v c = (if v = .H then r 4 / 4 % 16 else r 4 / 4 % 2) * 8192 ∧
      ∀ off : Nat,
        (colourBase v c ||| (off &&& colourMask c)) = colourBase v c + (off &&& colourMask c) ∧
        colourBase v c + (off &&& colourMask c) < addrSize v ∧
        (patternBase v c ||| (off &&& patternMask c)) = patternBase v c + (off &&& patternMask c) ∧
        patternBase v c + (off &&& patternMask c) < addrSize v) ∧
    spriteBase v c = (if v = .H then r 11 % 4 * 32768 + r 5 * 128 else r 5 % 128 * 128) ∧
    spritePatternBase v c = (if v = .H then r 6 % 64 else r 6 % 8) * 2048 ∧
    (modeOf v c = .G4 ∨ modeOf v c = .G5 → pageBase v c = r 2 / 32 % 4 * 32768) ∧
    (modeOf v c = .G6 ∨ modeOf v c = .G7 → pageBase v c = r 2 / 32 % 2 * 65536) ∧
    (textColour c).toNat = r 7 / 16 ∧
    (backdrop v c).toNat = (if modeOf v c = .G7 then r 7 else r 7 % 16) ∧
    spriteSize c = (if r 1 / 2 % 2 = 1 then 16 else 8) ∧ spriteMag c = (if r 1 % 2 = 1 then 2 else 1)

/-! ## Whole-machine rules -/

/-- Every step keeps the block in a state it can be in: both byte arrays in canonical form and inside their sizes, nothing past the
register bank, CE exactly while a command runs, TR exactly while a host-driven one does, the Command Unit State 0 in Idle, and a
command only in variant H and in G4 to G7 (43_command_engine R401, R420; 10_state R32, R33, R52). -/
def Obligations.InvKept : Prop :=
  ∀ s t : State, s.Inv → step s = .next t → t.Inv

/-- The machine of every variant right after reset is in a state it can be in, with the values the spec gives: the registers, the
latch, the status registers, the lock, the interrupt output, the engine, the budget and the frame state (70_reset_and_hazards R700,
R701). What the spec leaves open (VRAM, prefetch, palettes) is not stated. -/
def Obligations.ResetState : Prop :=
  State.reset = State.start .H ∧ ∀ v : Variant, (State.start v).Inv ∧ ∀ c : Chip, c = (State.start v).chip →
    (∀ n : Fin 64, c.reg[n] = if v = .E ∧ n = 48 then 0x01 else 0x00) ∧
    c.cursor = 0 ∧ c.phase = .first ∧ c.pending = 0 ∧ c.palPhase = .first ∧ c.palPending = 0 ∧
    c.status = { s0 := 0, fh := false, tr := false, bd := false, ce := false, s7 := 0, s8 := 0, s9 := 0xFE } ∧
    c.intLine = false ∧ c.lock = { unlocked := false, unlockCount := 0 } ∧ c.engine = .idle ∧ c.mmc = mmcZero ∧
    c.budget = 0 ∧ c.collisionReported = false

/-- No step changes a parameter (10_state R31), and a step serves one call: what is left to come is what came after it. -/
def Obligations.ConfigFixed : Prop :=
  ∀ s t : State, step s = .next t → t.cfg = s.cfg ∧ t.input = s.input.tail

/-- The interrupt output changes only at the two events of a render, each under its enable, at a read of S#0, a reset or a restore
(60_exceptions R610, R611). -/
def Obligations.InterruptLine : Prop :=
  ∀ (i : Instr) (s t : State), exec i s = .next t → t.chip.intLine ≠ s.chip.intLine →
    (t.chip.intLine = true ∧ ∃ l, i = .render l ∧
      ((s.cfg.variant ≠ .B ∧ l = (s.chip.R 19).toNat ∧ (s.chip.R 0).getLsbD 4 = true) ∨
        (l + 1 = visibleLines s.cfg.variant s.chip ∧ (s.chip.R 1).getLsbD 5 = true))) ∨
    (t.chip.intLine = false ∧ (i = .rsS0 ∨ i = .reset)) ∨
    (∃ c, i = .restore c ∧ t.chip.intLine = c.intLine)

/-! ## The driver calls -/

/-- The reset call leaves the values the spec gives in every field but those it leaves open, and a state the block can be in; a running
command is gone (70_reset_and_hazards R700, R701). -/
def Obligations.ResetCall : Prop :=
  ∀ s : State, ∃ t, exec .reset s = .next t ∧ t.Inv ∧ t.cfg = s.cfg ∧ t.input = s.input ∧ t.out = .none ∧
    (∀ n : Fin 64, t.chip.reg[n] = if s.cfg.variant = .E ∧ n = 48 then 0x01 else 0x00) ∧
    t.chip.cursor = 0 ∧ t.chip.phase = .first ∧ t.chip.pending = 0 ∧ t.chip.palPhase = .first ∧ t.chip.palPending = 0 ∧
    t.chip.status = { s0 := 0, fh := false, tr := false, bd := false, ce := false, s7 := 0, s8 := 0, s9 := 0xFE } ∧
    t.chip.intLine = false ∧ t.chip.lock = { unlocked := false, unlockCount := 0 } ∧ t.chip.engine = .idle ∧
    t.chip.mmc = mmcZero ∧ t.chip.budget = 0 ∧ t.chip.collisionReported = false

/-- A snapshot returns the whole state tuple and changes nothing; restoring it, on any machine of the variant in any state, leaves
exactly that tuple (70_reset_and_hazards R710, R713). What is no state of the block is not restored (assumption log 16). -/
def Obligations.SnapshotRestore : Prop :=
  ∀ s : State, exec .snapshot s = s.after s.chip (.saved s.chip) ∧
    ∀ u : State, u.cfg.variant = s.cfg.variant →
      (s.Inv → exec (.restore s.chip) u = u.after s.chip .none) ∧
      (¬ s.Inv → exec (.restore s.chip) u = .refused .notASavedState)

/-- The debug path: a read returns the byte at the physical address, main VRAM first and the expansion bank after it, taken modulo their
total size, and changes nothing; a write stores that byte and nothing else; the dump returns the registers, the status and the geometry
and changes nothing (70_reset_and_hazards R716, R717). The dump's form, what NP it shows outside G4 to G7, and
what CTM and PGM it shows outside G2, BT and BMC, are the model's choices: assumption log 21, 28 and 29. -/
def Obligations.DebugAccess : Prop :=
  ∀ (s : State) (a k : Nat) (p : Place) (b : Byte), s.Inv →
    k = a % (vramMain s.cfg.variant + vramExp s.cfg.variant) →
    p = (if k < vramMain s.cfg.variant then .main k else .exp (k - vramMain s.cfg.variant)) →
    exec (.debugReadWrite a none) s = s.after s.chip (.byte (s.byteAt p)) ∧
    (∃ t, exec (.debugReadWrite a (some b)) s = .next t ∧ t.byteAt p = b ∧ (∀ q, q ≠ p → t.byteAt q = s.byteAt q) ∧
      t = { s with chip := { s.chip with vram := t.chip.vram, exp := t.chip.exp }, out := .none }) ∧
    exec .debugDump s = s.after s.chip (.dump (s.chip.reg.toList.take (nreg s.cfg.variant)) s.chip.status
      (geometry s.cfg.variant s.chip))

/-! ## The Command Engine: issue -/

/-- Outside G4 to G7 a write of R46 in variant H only stores it, whatever the command; in G4 to G7 STOP clears the engine with no
write-back, and the undefined opcodes store R46 and leave a running command running (43_command_engine R453; 44_command_ops R461,
R463). -/
def Obligations.StopAndIgnored : Prop :=
  ∀ s : State, s.cfg.variant = .H →
    (commandMode (modeOf .H s.chip) = false → ∀ b,
      exec (decodeCommand b) s = s.after (s.chip.setR 46 b) .none ∧
      exec (decodeLogical b) s = s.after (s.chip.setR 46 b) .none) ∧
    (commandMode (modeOf .H s.chip) = true → ∀ x : Nibble,
      exec (.stop x) s = s.after { s.chip.setR 46 (0x0#4 ++ x) with
        engine := .idle, mmc := mmcZero, status := { s.chip.status with ce := false, tr := false } } .none ∧
      exec (.undefined1 x) s = s.after (s.chip.setR 46 (0x1#4 ++ x)) .none ∧
      exec (.undefined2 x) s = s.after (s.chip.setR 46 (0x2#4 ++ x)) .none ∧
      exec (.undefined3 x) s = s.after (s.chip.setR 46 (0x3#4 ++ x)) .none)

/-- The parameter fetch of a command (44_command_ops R460), for every opcode code and mode. -/
def Obligations.ParameterFetch : Prop :=
  ∀ (c : Chip) (cm lo : Nibble) (r : Nat → Int) (m : Mmc) (byteOp : Bool), (∀ n, r n = (c.R n).toNat) →
    m = loadParams c cm lo → byteOp = decide (12 ≤ cm.toNat) →
    m.CM = cm ∧ m.LO = lo ∧
    m.SX = (r 32 + 256 * r 33) % 512 ∧ m.SY = (r 34 + 256 * r 35) % 1024 ∧
    m.DX = (r 36 + 256 * r 37) % 512 ∧ m.DY = (r 38 + 256 * r 39) % 1024 ∧
    m.NX = (r 40 + 256 * r 41) % 1024 / (if byteOp then pixelsPerByte (modeOf .H c) else 1) ∧
    m.NY = (r 42 + 256 * r 43) % 1024 ∧
    m.MXS = (c.R 45).getLsbD 4 ∧ m.MXD = (c.R 45).getLsbD 5 ∧
    m.TX = (if (c.R 45).getLsbD 2 then -1 else 1) * (if byteOp then pixelsPerByte (modeOf .H c) else 1) ∧
    m.TY = (if (c.R 45).getLsbD 3 then -1 else 1) ∧
    m.MX = borderX (modeOf .H c) ∧ m.arg = c.R 45 ∧
    m.CL = (if byteOp then c.R 44 else c.R 44 &&& colourBits (modeOf .H c)) ∧
    m.ASX = (if cm = 7 then (m.NX - 1) / 2 else m.SX) ∧ m.ADX = (if cm = 7 then 0 else m.DX) ∧
    m.ANX = (if cm = 6 then (if (c.R 45).getLsbD 1 then 1 else 0) else m.NX)

/-- POINT in G4 to G7: the colour at (SX, SY) goes to S#7 and R44, and the engine is left Idle (44_command_ops R464). -/
def Obligations.PointReads : Prop :=
  ∀ (s : State) (x : Nibble) (p : Byte), s.cfg.variant = .H → commandMode (modeOf .H s.chip) = true →
    p = pointAt s.chip ((s.chip.R 45).getLsbD 4) (pair s.chip 32 9) (pair s.chip 34 10) →
    exec (.point x) s = s.after { (s.chip.setR 46 (0x4#4 ++ x)).setR 44 p with
      engine := .idle, mmc := mmcZero, status := { s.chip.status with s7 := p, ce := false, tr := false } } .none

/-- PSET in G4 to G7, under each logical operation: with P the old byte of the destination, C the colour of R44 masked, K that colour at
the pixel's place and M the mask of the other pixels, the destination byte becomes what the table gives, or is not written where the
operation is transparent and C is 0 or is undefined; nothing else of memory changes (43_command_engine R440, R441; 44_command_ops R466). -/
def Obligations.LogicalOperations : Prop :=
  ∀ (s : State) (P C K M : Byte), s.cfg.variant = .H → commandMode (modeOf .H s.chip) = true →
    P = s.byteAt s.chip.destination → C = s.chip.R 44 &&& colourBits (modeOf .H s.chip) →
    K = C <<< pixelShift (modeOf .H s.chip) (pair s.chip 36 9) →
    M = ~~~(colourBits (modeOf .H s.chip) <<< pixelShift (modeOf .H s.chip) (pair s.chip 36 9)) →
    exec (.loImp 5) s = s.after (s.chip.afterPset 0x50 (some ((P &&& M) ||| K))) .none ∧
    exec (.loAnd 5) s = s.after (s.chip.afterPset 0x51 (some (P &&& (K ||| M)))) .none ∧
    exec (.loOr 5) s = s.after (s.chip.afterPset 0x52 (some (P ||| K))) .none ∧
    exec (.loEor 5) s = s.after (s.chip.afterPset 0x53 (some (P ^^^ K))) .none ∧
    exec (.loNot 5) s = s.after (s.chip.afterPset 0x54 (some ((P &&& M) ||| ~~~(K ||| M)))) .none ∧
    exec (.loTimp 5) s = s.after (s.chip.afterPset 0x58 (if C = 0 then none else some ((P &&& M) ||| K))) .none ∧
    exec (.loTand 5) s = s.after (s.chip.afterPset 0x59 (if C = 0 then none else some (P &&& (K ||| M)))) .none ∧
    exec (.loTor 5) s = s.after (s.chip.afterPset 0x5A (if C = 0 then none else some (P ||| K))) .none ∧
    exec (.loTeor 5) s = s.after (s.chip.afterPset 0x5B (if C = 0 then none else some (P ^^^ K))) .none ∧
    exec (.loTnot 5) s = s.after (s.chip.afterPset 0x5C (if C = 0 then none else some ((P &&& M) ||| ~~~(K ||| M)))) .none ∧
    exec (.loUndefined5 5) s = s.after (s.chip.afterPset 0x55 none) .none ∧
    exec (.loUndefined6 5) s = s.after (s.chip.afterPset 0x56 none) .none ∧
    exec (.loUndefined7 5) s = s.after (s.chip.afterPset 0x57 none) .none ∧
    exec (.loUndefined13 5) s = s.after (s.chip.afterPset 0x5D none) .none ∧
    exec (.loUndefined14 5) s = s.after (s.chip.afterPset 0x5E none) .none ∧
    exec (.loUndefined15 5) s = s.after (s.chip.afterPset 0x5F none) .none

/-- PSET changes the destination byte only: every other byte of memory, and every register but R46, is as before, and the engine is left
Idle (44_command_ops R466). -/
def Obligations.PsetFrame : Prop :=
  ∀ (s : State) (l : Nibble), s.cfg.variant = .H → commandMode (modeOf .H s.chip) = true →
    ∃ t, exec (.pset l) s = .next t ∧ (∀ p, p ≠ s.chip.destination → t.byteAt p = s.byteAt p) ∧
      t = { s with
        chip := { s.chip.setR 46 (0x5#4 ++ l) with
          vram := t.chip.vram, exp := t.chip.exp, engine := .idle, mmc := mmcZero
          status := { s.chip.status with ce := false, tr := false } }
        out := .none }

/-- The budgeted opcodes in G4 to G7: the issue stores R46, fetches the parameters, sets the engine running and CE, drops a command
that was running with no write-back, and makes no step (43_command_engine R402, R403). -/
def Obligations.BudgetedStarts : Prop :=
  ∀ (s : State) (x : Nibble) (start : Nibble → Op → Chip), s.Inv → s.cfg.variant = .H →
    commandMode (modeOf .H s.chip) = true →
    (∀ cm op, start cm op = { s.chip.setR 46 (cm ++ x) with
      mmc := loadParams s.chip cm x, engine := .running op, status := { s.chip.status with ce := true, tr := false } }) →
    exec (.srch x) s = s.after (start 6 .srch) .none ∧ exec (.line x) s = s.after (start 7 .line) .none ∧
    exec (.lmmv x) s = s.after (start 8 .lmmv) .none ∧ exec (.lmmm x) s = s.after (start 9 .lmmm) .none ∧
    exec (.hmmv x) s = s.after (start 12 .hmmv) .none ∧ exec (.hmmm x) s = s.after (start 13 .hmmm) .none ∧
    exec (.ymmm x) s = s.after (start 14 .ymmm) .none

/-- The host-driven opcodes in G4 to G7: the issue starts the command as for the others and makes the first transfer: LMCM loads the
pixel at (SX, SY) into S#7 and R44; LMMC writes the masked colour of R44 at (DX, DY) and HMMC the byte of R44; TR is set while the
command still runs (44_command_ops R483, R486, R490). -/
def Obligations.HostDrivenStarts : Prop :=
  ∀ (s : State) (x : Nibble) (start : Nibble → Op → Chip) (ready : Chip → Chip) (p : Byte), s.Inv → s.cfg.variant = .H →
    commandMode (modeOf .H s.chip) = true →
    (∀ cm op, start cm op = { s.chip.setR 46 (cm ++ x) with
      mmc := loadParams s.chip cm x, engine := .running op, status := { s.chip.status with ce := true, tr := false } }) →
    (∀ c, ready c = if c.engine = .idle then c else { c with status := { c.status with tr := true } }) →
    p = pointAt s.chip ((s.chip.R 45).getLsbD 4) (pair s.chip 32 9) (pair s.chip 34 10) →
    exec (.lmcm x) s = s.after
      { (start 10 .lmcm).setR 44 p with status := { s.chip.status with s7 := p, ce := true, tr := true } } .none ∧
    exec (.lmmc x) s = s.after
      (ready (rowEndD (psetAt (start 11 .lmmc) ((s.chip.R 45).getLsbD 5) (pair s.chip 36 9) (pair s.chip 38 10)
        (s.chip.R 44 &&& colourBits (modeOf .H s.chip)) x))) .none ∧
    exec (.hmmc x) s = s.after
      (ready (rowEndD ((start 15 .hmmc).writeAt s.chip.destination (s.chip.R 44)))) .none

/-! ## The Command Engine: transfers and steps -/

/-- The hand-shakes: a write of R44 while LMMC or HMMC runs stores it and makes one transfer with it; a read of S#7 while LMCM runs
steps the counters and loads the next pixel, or ends the command where the extents or a border say so, writing back SY and NY
(43_command_engine R421, R422; 44_command_ops R484, R485, R487, R490). -/
def Obligations.HostTransfers : Prop :=
  ∀ (cfg : Config) (c : Chip) (b : Byte) (m : Mmc), cfg.variant = .H → m = c.mmc →
    (c.engine = .running .lmmc → regWrite cfg c 44 b =
      rowEndD (psetAt (c.setR 44 b) m.MXD m.ADX m.DY (b &&& colourBits (modeOf .H c)) m.LO)) ∧
    (c.engine = .running .hmmc → regWrite cfg c 44 b =
      rowEndD ((c.setR 44 b).writeAt (pixelPlace c m.MXD m.ADX m.DY) b)) ∧
    (∀ load : Mmc → Chip, (∀ n, load n =
        { (c.setMmc n).setR 44 (pointAt c n.MXS n.ASX n.SY) with
          status := { c.status with s7 := pointAt c n.MXS n.ASX n.SY } }) →
      (m.ANX ≠ 1 → crosses (m.ASX + m.TX) m.MX = false →
        transferLMCM c = load { m with ANX := m.ANX - 1, ASX := m.ASX + m.TX }) ∧
      (m.ANX = 1 ∨ crosses (m.ASX + m.TX) m.MX = true →
        ((m.NY - 1) % 1024 ≠ 0 → m.SY + m.TY ≠ -1 →
          transferLMCM c = load { m with ANX := m.NX, ASX := m.SX, NY := m.NY - 1, SY := m.SY + m.TY }) ∧
        ((m.NY - 1) % 1024 = 0 → transferLMCM c =
          finish (writeBack 42 (m.NY - 1) (writeBack 34 (if m.NY = 1 then m.SY + m.TY else m.SY) c))) ∧
        ((m.NY - 1) % 1024 ≠ 0 → m.SY + m.TY = -1 → transferLMCM c =
          finish (writeBack 42 (m.NY - 1) (writeBack 34 (-1) c)))))

/-- A pixel written with IMP reads back as its colour, and under every logical operation with a colour inside the mode's mask every
other pixel keeps its colour (43_command_engine R434, R440). -/
def Obligations.PixelReadBack : Prop :=
  ∀ (c : Chip) (f g : Bool) (x y x' y' : Int) (col : Byte) (lo : Nibble), c.ok .H →
    commandMode (modeOf .H c) = true → col &&& colourBits (modeOf .H c) = col →
    pointAt (psetAt c f x y col 0) f x y = col ∧
    (pixelPlace c g x' y' ≠ pixelPlace c f x y ∨ pixelShift (modeOf .H c) x' ≠ pixelShift (modeOf .H c) x →
      pointAt (psetAt c f x y col lo) g x' y' = pointAt c g x' y')

/-- The row ends of LMMV, LMMC, HMMV and HMMC, and the write-back and the end of a command: inside a row the counters step; at a row end
the next row starts, or the command ends after the last row or when DY leaves the top, with DY and NY written back
(44_command_ops R530, R533). -/
def Obligations.RowEndsD : Prop :=
  ∀ (c : Chip) (m : Mmc), m = c.mmc →
    (∀ x : Int, crosses x 256 = decide (256 ≤ x % 512) ∧ crosses x 512 = decide (512 ≤ x % 1024)) ∧
    (∀ (r : Nat) (x : Int), r + 1 < 64 → ((writeBack r x c).R r).toNat = x % 256 ∧
      ((writeBack r x c).R (r + 1)).toNat = x / 256 % 4 ∧ writeBack r x c = { c with reg := (writeBack r x c).reg } ∧
      ∀ n, n ≠ r → n ≠ r + 1 → (writeBack r x c).R n = c.R n) ∧
    finish c = { c with engine := .idle, mmc := mmcZero, status := { c.status with ce := false, tr := false } } ∧
    (m.ANX ≠ 1 → crosses (m.ADX + m.TX) m.MX = false →
      rowEndD c = c.setMmc { m with ANX := m.ANX - 1, ADX := m.ADX + m.TX }) ∧
    (m.ANX = 1 ∨ crosses (m.ADX + m.TX) m.MX = true →
      ((m.NY - 1) % 1024 ≠ 0 → m.DY + m.TY ≠ -1 →
        rowEndD c = c.setMmc { m with ANX := m.NX, ADX := m.DX, NY := m.NY - 1, DY := m.DY + m.TY }) ∧
      ((m.NY - 1) % 1024 = 0 → rowEndD c =
        finish (writeBack 42 (m.NY - 1) (writeBack 38 (if m.NY = 1 then m.DY + m.TY else m.DY) c))) ∧
      ((m.NY - 1) % 1024 ≠ 0 → m.DY + m.TY = -1 → rowEndD c =
        finish (writeBack 42 (m.NY - 1) (writeBack 38 (-1) c))))

/-- The row ends of LMMM and HMMM, where the source or the destination border ends a row, and of YMMM, where only the border does: the
next row starts, or the command ends after the last row or when SY or DY leaves the top, with SY, DY and NY written back
(44_command_ops R531, R532, R533). -/
def Obligations.RowEndsSDY : Prop :=
  ∀ (c : Chip) (m : Mmc) (last : Chip), m = c.mmc →
    last = finish (writeBack 42 (m.NY - 1) (writeBack 38 (if m.NY = 1 then m.DY + m.TY else if m.SY = -1 then m.DY + m.TY else m.DY)
      (writeBack 34 (if m.NY = 1 then m.SY + m.TY else m.SY) c))) →
    (m.ANX ≠ 1 → crosses (m.ASX + m.TX) m.MX = false → crosses (m.ADX + m.TX) m.MX = false →
      rowEndSD c = c.setMmc { m with ANX := m.ANX - 1, ASX := m.ASX + m.TX, ADX := m.ADX + m.TX }) ∧
    (crosses (m.ADX + m.TX) m.MX = false → rowEndY c = c.setMmc { m with ADX := m.ADX + m.TX }) ∧
    ((m.NY - 1) % 1024 = 0 →
      (m.ANX = 1 ∨ crosses (m.ASX + m.TX) m.MX = true ∨ crosses (m.ADX + m.TX) m.MX = true → rowEndSD c = last) ∧
      (crosses (m.ADX + m.TX) m.MX = true → rowEndY c = last)) ∧
    ((m.NY - 1) % 1024 ≠ 0 → ∀ d : Chip,
      (m.SY + m.TY ≠ -1 → m.DY + m.TY ≠ -1 →
        (m.ANX = 1 ∨ crosses (m.ASX + m.TX) m.MX = true ∨ crosses (m.ADX + m.TX) m.MX = true → rowEndSD c = c.setMmc
          { m with ANX := m.NX, ASX := m.SX, ADX := m.DX, NY := m.NY - 1, SY := m.SY + m.TY, DY := m.DY + m.TY }) ∧
        (crosses (m.ADX + m.TX) m.MX = true → rowEndY c = c.setMmc
          { m with ADX := m.DX, NY := m.NY - 1, SY := m.SY + m.TY, DY := m.DY + m.TY })) ∧
      (m.SY + m.TY = -1 → d = finish (writeBack 42 (m.NY - 1) (writeBack 38 (m.DY + m.TY) (writeBack 34 (-1) c))) →
        (m.ANX = 1 ∨ crosses (m.ASX + m.TX) m.MX = true ∨ crosses (m.ADX + m.TX) m.MX = true → rowEndSD c = d) ∧
        (crosses (m.ADX + m.TX) m.MX = true → rowEndY c = d)) ∧
      (m.SY + m.TY ≠ -1 → m.DY + m.TY = -1 →
        d = finish (writeBack 42 (m.NY - 1) (writeBack 38 (-1) (writeBack 34 (m.SY + m.TY) c))) →
        (m.ANX = 1 ∨ crosses (m.ASX + m.TX) m.MX = true ∨ crosses (m.ADX + m.TX) m.MX = true → rowEndSD c = d) ∧
        (crosses (m.ADX + m.TX) m.MX = true → rowEndY c = d)))

/-- One step of SRCH, which ends with BD 1 on a hit and with BD 0 at the border, S#8 and S#9 holding the column; and one step of LINE,
which draws a pixel, steps the major axis, steps the minor axis when the error goes below 0, and ends after NX + 1 pixels or at the
border with DY written back (44_command_ops R468, R469, R472, R473). That LINE takes its major axis from the ARG byte kept at issue is
the model's reading: assumption log 10. -/
def Obligations.SearchAndLineSteps : Prop :=
  ∀ (c : Chip) (m : Mmc), m = c.mmc →
    (∀ (hit : Bool) (endAt : Int → Bool → Chip), hit = (decide (pointAt c m.MXS m.ASX m.SY = m.CL) != decide (m.ANX = 1)) →
      (∀ x bd, endAt x bd = finish { c with status := { c.status with
        bd := bd, s8 := BitVec.ofInt 8 x, s9 := if x / 256 % 2 = 1 then 0xFF else 0xFE } }) →
      stepSRCH c =
        if hit then endAt m.ASX true
        else if crosses (m.ASX + m.TX) m.MX then endAt (m.ASX + m.TX) false
        else c.setMmc { m with ASX := m.ASX + m.TX }) ∧
    (∀ (minor : Bool) (m' : Mmc) (d : Chip), minor = decide (m.ASX - m.NY < 0) →
      m' = { m with
        DX := if m.arg.getLsbD 0 = false ∨ minor = true then m.DX + m.TX else m.DX
        DY := if m.arg.getLsbD 0 = true ∨ minor = true then m.DY + m.TY else m.DY
        ASX := (if minor then m.ASX - m.NY + m.NX else m.ASX - m.NY) % 1024
        ADX := m.ADX + 1 } →
      d = psetAt c m.MXD m.DX m.DY m.CL m.LO →
      stepLINE c =
        if m.ADX = m.NX ∨ crosses m'.DX m.MX = true then finish (writeBack 38 m'.DY d) else d.setMmc m')

/-- The steps of the block opcodes, and that no step of any opcode changes a byte other than the one it writes
(44_command_ops R476, R479, R488, R489, R491, R495). -/
def Obligations.BlockSteps : Prop :=
  ∀ (c : Chip) (m : Mmc) (dst : Place), m = c.mmc → dst = pixelPlace c m.MXD m.ADX m.DY →
    stepOp .lmmv c = rowEndD (psetAt c m.MXD m.ADX m.DY m.CL m.LO) ∧
    stepOp .lmmm c = rowEndSD (psetAt c m.MXD m.ADX m.DY (pointAt c m.MXS m.ASX m.SY) m.LO) ∧
    stepOp .hmmv c = rowEndD (c.writeAt dst m.CL) ∧
    stepOp .hmmm c = rowEndSD (c.writeAt dst (c.readAt (pixelPlace c m.MXS m.ASX m.SY))) ∧
    stepOp .ymmm c = rowEndY (c.writeAt dst (c.readAt (pixelPlace c m.MXS m.ADX m.SY))) ∧
    (∀ (op : Op) (p : Place), c.target op ≠ some p → (stepOp op c).readAt p = c.readAt p) ∧
    (∀ p, p ≠ dst → (transferLMMC c).readAt p = c.readAt p ∧ (transferHMMC c).readAt p = c.readAt p) ∧
    ∀ p, (transferLMCM c).readAt p = c.readAt p

/-- `update_command()`: the refill overwrites the budget; with no budgeted command running that is all; otherwise the command makes as
many steps, at least one, as the budget pays for at its cost, or fewer if it ends, and nothing else happens. The cost is that of the
opcode in the timing class 2 * BL + (1 - SPD), of R1 bit 6 and R8 bit 1 (43_command_engine R410, R411). -/
def Obligations.UpdateRunsTheBudget : Prop :=
  ∀ s : State, s.cfg.variant = .H → s.cfg.ok → s.Inv →
    ((∀ op, s.chip.engine = .running op → hostDriven op = true) →
      exec .update s = s.after { s.chip with budget := s.cfg.budget } .none) ∧
    ∀ op, s.chip.engine = .running op → hostDriven op = false →
      ∃ row bl spd n cost : Nat, [Op.srch, .line, .lmmv, .lmmm, .hmmv, .hmmm, .ymmm][row]? = some op ∧
        bl = (s.chip.R 1).toNat / 64 % 2 ∧ spd = (s.chip.R 8).toNat / 2 % 2 ∧
        s.cfg.cost[4 * row + (2 * bl + (1 - spd))]? = some cost ∧ 1 ≤ n ∧
        (∀ k < n, ((stepOp op)^[k] s.chip).engine = .running op) ∧ (n : Int) * cost < s.cfg.budget ∧
        ((((stepOp op)^[n] s.chip).engine = .idle ∧
            exec .update s = s.after { (stepOp op)^[n] s.chip with budget := s.cfg.budget - n * cost } .none) ∨
          (((stepOp op)^[n] s.chip).engine = .running op ∧ (s.cfg.budget : Int) ≤ (n + 1) * cost ∧
            exec .update s = s.after { (stepOp op)^[n] s.chip with budget := s.cfg.budget - (n + 1) * cost } .none))

/-- Budget independence: what a command leaves when it has completed does not depend on the budget, on the costs or on how many update
calls it took (43_command_engine R412; 20_memory R114). -/
def Obligations.BudgetIndependence : Prop :=
  ∀ (s₁ s₂ t₁ t₂ : State) (n₁ n₂ : Nat), s₁.cfg.variant = .H → s₂.cfg.variant = .H → s₁.cfg.ok → s₂.cfg.ok →
    s₁.chip = s₂.chip → s₁.Inv → s₁.input = List.replicate n₁ .update → s₂.input = List.replicate n₂ .update →
    Host.Core.run Sys2Proof.core n₁ s₁ = .next t₁ → Host.Core.run Sys2Proof.core n₂ s₂ = .next t₂ →
    t₁.chip.engine = .idle → t₂.chip.engine = .idle →
    { t₁.chip with budget := 0 } = { t₂.chip with budget := 0 }

/-- Termination: every budgeted command issued in G4 to G7 ends after finitely many steps (43_command_engine R413). -/
def Obligations.CommandsTerminate : Prop :=
  ∀ (c : Chip) (cm lo : Nibble) (op : Op), commandMode (modeOf .H c) = true → opOf cm = some op →
    hostDriven op = false → ∃ n, ((stepOp op)^[n] (enter cm lo op c)).engine = .idle

/-! ## The renderer -/

/-- When a render runs: a line index inside the frame and no configuration that is refused; what a refused one answers; and that a render
that runs returns a line as wide as its mode says, all backdrop while the display is blanked, or nothing past the visible lines, and
changes no memory, no register and nothing but S#0, FH, the interrupt output and the collision latch (42_renderer R320, R324, R398, R399;
70_reset_and_hazards R732). The model's own readings in it: a line at or past the frame's end is refused (assumption log 18), the
refusals' names (assumption log 19), and that a line past the visible ones returns nothing (assumption log 25). -/
def Obligations.RenderRuns : Prop :=
  ∀ (s : State) (l : Nat),
    visibleLines s.cfg.variant s.chip = (if s.cfg.variant = .H ∧ (s.chip.R 9).getLsbD 7 = true then 212 else 192) ∧
    (s.renders l → ∃ t, exec (.render l) s = .next t ∧
      t = { s with
        chip := { s.chip with
          status := { s.chip.status with s0 := t.chip.status.s0, fh := t.chip.status.fh }
          intLine := t.chip.intLine
          collisionReported := t.chip.collisionReported }
        out := t.out } ∧
      (l < visibleLines s.cfg.variant s.chip → ∃ px, t.out = .line px ∧ px.length =
        if modeOf s.cfg.variant s.chip = .G5 ∨ modeOf s.cfg.variant s.chip = .G6 then 512 else 256) ∧
      (visibleLines s.cfg.variant s.chip ≤ l → t.out = .none) ∧
      ((s.chip.R 1).getLsbD 6 = false → ∀ px, t.out = .line px → ∀ x ∈ px,
        x.toNat = if modeOf s.cfg.variant s.chip = .G7 then (s.chip.R 7).toNat else (s.chip.R 7).toNat % 16)) ∧
    (¬ s.renders l → ∃ r, exec (.render l) s = .refused r) ∧
    (s.cfg.totalLines ≤ l → exec (.render l) s = .refused .lineOutOfRange) ∧
    (l < s.cfg.totalLines → s.cfg.variant = .E → s.chip.refusedE → exec (.render l) s = .refused .extendedRendering)

/-- What a render does to the flags. F and FH are set by their events and by nothing else, each with the interrupt output where its enable
is 1. A line with sprites sets 5S and the number of the fifth sprite on it, unless 5S is set, and sets C where two of its sprites collide
and no collision has been reported since the last render of line 0; a line without sprites, in variant H one with R8 bit 1 among them,
sets neither. Nothing clears 5S or C (42_renderer R322, R324, R340, R343, R345, R352, R353, R354; 60_exceptions R610, R615). -/
def Obligations.RenderStatus : Prop :=
  ∀ (s t : State) (l : Nat) (v : Variant) (a b : Byte) (reported : Bool) (all : List Nat),
    v = s.cfg.variant → a = s.chip.status.s0 → b = t.chip.status.s0 →
    reported = (s.chip.collisionReported && decide (l ≠ 0)) → all = spritesOn v s.chip l → exec (.render l) s = .next t →
    b.getLsbD 7 = (a.getLsbD 7 || decide (l + 1 = visibleLines v s.chip)) ∧
    t.chip.status.fh = (s.chip.status.fh || (decide (v ≠ .B) && decide (l = (s.chip.R 19).toNat))) ∧
    t.chip.intLine = (s.chip.intLine ||
      (decide (v ≠ .B) && decide (l = (s.chip.R 19).toNat) && (s.chip.R 0).getLsbD 4) ||
      (decide (l + 1 = visibleLines v s.chip) && (s.chip.R 1).getLsbD 5)) ∧
    (spritesShown v s.chip = true ↔
      modeOf v s.chip ∈ [Mode.G1, .G2, .MC, .BMC] ∧ (v = .H → (s.chip.R 8).getLsbD 1 = false)) ∧
    (l < visibleLines v s.chip → (s.chip.R 1).getLsbD 6 = true → spritesShown v s.chip = true →
      (all.length ≤ 4 → b.getLsbD 6 = a.getLsbD 6 ∧ b.toNat % 32 = a.toNat % 32) ∧
      (∀ i, all[4]? = some i → b.getLsbD 6 = true ∧ b.toNat % 32 = if a.getLsbD 6 then a.toNat % 32 else i) ∧
      (b.getLsbD 5 = true ↔ a.getLsbD 5 = true ∨ (reported = false ∧ spritesCollide s.cfg s.chip l)) ∧
      (t.chip.collisionReported = true ↔ reported = true ∨ spritesCollide s.cfg s.chip l)) ∧
    ((s.chip.R 1).getLsbD 6 = false ∨ spritesShown v s.chip = false ∨ visibleLines v s.chip ≤ l →
      b.toNat % 128 = a.toNat % 128 ∧ t.chip.collisionReported = reported)

/-- The pixels of a visible, unblanked line in G4 to G7 of variant H, where colour 0 shows the backdrop unless R8 bit 5 is 1
(42_renderer R325, R333 to R336). -/
def Obligations.BitmapPixels : Prop :=
  ∀ (s : State) (l : Nat) (np : Nat) (byte : Nat → Byte), s.cfg.variant = .H → s.renders l → l < visibleLines .H s.chip →
    (s.chip.R 1).getLsbD 6 = true → np = pageBase .H s.chip → (∀ a, byte a = s.byteAt (.main a)) →
    commandMode (modeOf .H s.chip) = true → ∃ t px, exec (.render l) s = .next t ∧ t.out = .line px ∧
      (∀ x, vis .H s.chip x = if x = 0 ∧ (s.chip.R 8).getLsbD 5 = false then backdrop .H s.chip else x) ∧
      (modeOf .H s.chip = .G4 → ∀ x < 256, ∃ c : Byte, px[x]? = some (vis .H s.chip c) ∧
        c.toNat = (if x % 2 = 0 then (byte (np + l * 128 + x / 2)).toNat / 16 else (byte (np + l * 128 + x / 2)).toNat % 16)) ∧
      (modeOf .H s.chip = .G5 → ∀ x < 512, ∃ c : Byte, px[x]? = some (vis .H s.chip c) ∧
        c.toNat = (byte (np + l * 128 + x / 4)).toNat / 4 ^ (3 - x % 4) % 4) ∧
      (modeOf .H s.chip = .G6 → ∀ x < 512, ∃ c : Byte, px[x]? = some (vis .H s.chip c) ∧ ∀ a, a = np + l * 256 + x / 2 →
        c.toNat = (if x % 2 = 0 then (byte (a % 2 * 65536 + a / 2)).toNat / 16 else (byte (a % 2 * 65536 + a / 2)).toNat % 16)) ∧
      (modeOf .H s.chip = .G7 → ∀ x < 256, ∀ a, a = np + l * 256 + x →
        px[x]? = some (vis .H s.chip (byte (a % 2 * 65536 + a / 2))))

/-- What a line shows in the modes all variants share. A visible, unblanked line without sprites shows the background of its mode, and
that is: pattern and colour tables in G1 and G2, the cells of MC and BMC, the glyphs of T1 and BT between their borders, the fill of the
illegal modes; the tables are masked in G2, BT and BMC, and colour 0 shows the backdrop, in H only while R8 bit 5 is 0 (42_renderer
R323, R325 to R332; 41_register_bank R272). With sprites, `SpritePriority` gives the line over the same background. -/
def Obligations.TablePixels : Prop :=
  ∀ (s : State) (l : Nat) (v : Variant) (c : Chip) (px : List Byte) (byte : Nat → Byte) (name off : Nat → Nat → Nat),
    v = s.cfg.variant → c = s.chip → px = background v c l →
    (∀ a, byte a = s.byteAt (.main (a % if v = .H then 131072 else 16384))) →
    (∀ w k, name w k = (byte (nameBase v c + l / 8 * w + k)).toNat) →
    (∀ n row, off n row = l / 64 % 4 * 2048 + n * 8 + row) →
    (s.renders l → l < visibleLines v c → (c.R 1).getLsbD 6 = true → spritesShown v c = false →
      ∃ t, exec (.render l) s = .next t ∧ t.out = .line px) ∧
    (∀ x, vis v c x = if x = 0 ∧ (v = .H → (c.R 8).getLsbD 5 = false) then backdrop v c else x) ∧
    (∀ m, bitmapMode m = true ↔ m ∈ [Mode.G2, .BT, .BMC]) ∧
    (modeOf v c ∈ [Mode.T1, .BT, .ILL] → spritesShown v c = false) ∧
    (∀ x < 256, ∀ n pat col, n = name 32 (x / 8) →
      (modeOf v c = .G1 → pat = byte (patternBase v c + n * 8 + l % 8) → col = byte (colourBase v c + n / 8) →
        px[x]? = some (vis v c (if pat.getLsbD (7 - x % 8) then col >>> 4 else col &&& 0x0F))) ∧
      (modeOf v c = .G2 → pat = byte (patternBase v c ||| (off n (l % 8) &&& patternMask c)) →
        col = byte (colourBase v c ||| (off n (l % 8) &&& colourMask c)) →
        px[x]? = some (vis v c (if pat.getLsbD (7 - x % 8) then col >>> 4 else col &&& 0x0F))) ∧
      (modeOf v c = .MC → pat = byte (patternBase v c + n * 8 + l / 4 % 8) →
        px[x]? = some (vis v c (if x % 8 < 4 then pat >>> 4 else pat &&& 0x0F))) ∧
      (modeOf v c = .BMC → pat = byte (patternBase v c ||| (off n (l / 4 % 8) &&& patternMask c)) →
        px[x]? = some (vis v c (if x % 8 < 4 then pat >>> 4 else pat &&& 0x0F)))) ∧
    (modeOf v c ∈ [Mode.T1, .BT, .ILL] → ∀ x < 256, x < 8 ∨ 248 ≤ x → px[x]? = some (backdrop v c)) ∧
    (∀ x < 240, ∀ n pat, n = name 40 (x / 6) →
      (modeOf v c = .T1 → pat = byte (patternBase v c + n * 8 + l % 8) →
        px[x + 8]? = some (vis v c (if pat.getLsbD (7 - x % 6) then textColour c else backdrop v c))) ∧
      (modeOf v c = .BT → pat = byte (patternBase v c ||| (off n (l % 8) &&& patternMask c)) →
        px[x + 8]? = some (vis v c (if pat.getLsbD (7 - x % 6) then textColour c else backdrop v c))) ∧
      (modeOf v c = .ILL → px[x + 8]? = some (if x % 6 < 4 then vis v c (textColour c) else backdrop v c)))

/-- The sprite scan: the sprites on the line before the end of the table, lowest number first, cut to four unless the cap is raised, and
the fifth of them reported once (42_renderer R341, R342, R343). `spritesOn` and `spritesDrawn` of Safety.lean give them in numbers, from
the bytes of the attribute table. -/
def Obligations.SpriteScan : Prop :=
  ∀ (cfg : Config) (c : Chip) (l : Nat) (b : Byte) (all : List Nat) (a : Scan), all = spritesOn cfg.variant c l →
    a = scanSprites cfg c l (List.range 32) { count := 0, list := [], s0 := b } →
    a.list = spritesDrawn cfg c l ∧
    (all.length ≤ 4 → a.s0 = b) ∧
    (∀ i, all[4]? = some i → i < 32 ∧
      a.s0 = if b.getLsbD 6 then b else (b &&& 0xE0) ||| 0x40 ||| BitVec.ofNat 8 i)

/-- A visible, unblanked line in a mode with sprites shows at each column the colour of the lowest-numbered drawn sprite that has a set
pattern bit and a colour other than 0 there, and the background where there is none; sprites are clipped at the edges
(42_renderer R344, R346, R347). `spriteCovers` and `spriteColour` of Safety.lean give bit and colour in numbers, from the bytes of the
attribute and pattern tables. -/
def Obligations.SpritePriority : Prop :=
  ∀ (s : State) (l : Nat) (v : Variant) (drawn : List Nat), v = s.cfg.variant → s.renders l → l < visibleLines v s.chip →
    (s.chip.R 1).getLsbD 6 = true → spritesShown v s.chip = true →
    drawn = spritesDrawn s.cfg s.chip l →
    ∃ t px, exec (.render l) s = .next t ∧ t.out = .line px ∧ px.length = 256 ∧ ∀ x < 256,
      px[x]? = ((drawn.filter fun i => spriteCovers v s.chip l x i && spriteColour v s.chip i != 0).head?.map
        fun i => spriteColour v s.chip i).or (background v s.chip l)[x]?

/-! ## The pixels of the Command Engine -/

/-- The engine's parameters, the byte address and the place of a pixel, its colour, and what a pixel write does, in numbers, in each of the
modes G4 to G7, for every coordinate, expansion flag, colour and logical operation (43_command_engine R430 to R434, R440, R441). -/
def Obligations.PixelLayout : Prop :=
  (∀ m, commandMode m = true ↔ m ∈ [Mode.G4, .G5, .G6, .G7]) ∧
  [Mode.G4, .G5, .G6, .G7].map (fun m => (pixelsPerByte m, borderX m, colourBits m)) =
    [(2, 256, 0x0F), (4, 512, 0x03), (2, 512, 0x0F), (1, 256, 0xFF)] ∧
  ∀ (c : Chip) (f : Bool) (x y : Int) (m : Mode) (a : Nat) (p : Place) (b : Byte), m = modeOf .H c →
    p = (if f then .exp (a % 65536) else .main (a % 131072)) → b = c.readAt p →
    (m = .G4 → (a : Int) = y % 1024 * 128 + x % 256 / 2 →
      pixelPlace c f x y = p ∧ pixelShift m x = (if x % 2 = 0 then 4 else 0) ∧
      (pointAt c f x y).toNat = if x % 2 = 0 then b.toNat / 16 else b.toNat % 16) ∧
    (m = .G5 → (a : Int) = y % 1024 * 128 + x % 512 / 4 →
      pixelPlace c f x y = p ∧ pixelShift m x = 2 * (3 - (x % 4).toNat) ∧
      (pointAt c f x y).toNat = b.toNat / 4 ^ (3 - (x % 4).toNat) % 4) ∧
    (m = .G6 → (a : Int) = x / 2 % 2 * 65536 + y % 512 * 128 + x % 512 / 4 →
      pixelPlace c f x y = p ∧ pixelShift m x = (if x % 2 = 0 then 4 else 0) ∧
      (pointAt c f x y).toNat = if x % 2 = 0 then b.toNat / 16 else b.toNat % 16) ∧
    (m = .G7 → (a : Int) = x % 2 * 65536 + y % 512 * 128 + x / 2 % 128 →
      pixelPlace c f x y = p ∧ pixelShift m x = 0 ∧ pointAt c f x y = b) ∧
    ∀ (col K M : Byte) (lo : Nibble) (w : Byte → Chip), pixelPlace c f x y = p → K = col <<< pixelShift m x →
      M = ~~~(colourBits m <<< pixelShift m x) → (∀ n, w n = c.writeAt p n) →
      psetAt c f x y col lo =
        match lo.toNat with
        | 0 => w ((b &&& M) ||| K)
        | 1 => w (b &&& (K ||| M))
        | 2 => w (b ||| K)
        | 3 => w (b ^^^ K)
        | 4 => w ((b &&& M) ||| ~~~(K ||| M))
        | 8 => if col = 0 then c else w ((b &&& M) ||| K)
        | 9 => if col = 0 then c else w (b &&& (K ||| M))
        | 10 => if col = 0 then c else w (b ||| K)
        | 11 => if col = 0 then c else w (b ^^^ K)
        | 12 => if col = 0 then c else w ((b &&& M) ||| ~~~(K ||| M))
        | _ => c
end

