-- ==== Sys2Proof/Laws/State.lean ====
section
/-! SUPPORT. Laws/State.lean: one lemma per field per update of the chip, so that no proof unfolds a record update, and
the reads of registers and outcomes after them. -/

namespace Sys2Proof.Machine

/-! ### `setR` -/

@[simp] theorem setR_vram (c : Chip) (n : Nat) (b : Byte) : (c.setR n b).vram = c.vram := rfl

@[simp] theorem setR_exp (c : Chip) (n : Nat) (b : Byte) : (c.setR n b).exp = c.exp := rfl

@[simp] theorem setR_reg (c : Chip) (n : Nat) (b : Byte) : (c.setR n b).reg = c.reg.setIfInBounds n b := rfl

@[simp] theorem setR_cursor (c : Chip) (n : Nat) (b : Byte) : (c.setR n b).cursor = c.cursor := rfl

@[simp] theorem setR_phase (c : Chip) (n : Nat) (b : Byte) : (c.setR n b).phase = c.phase := rfl

@[simp] theorem setR_pending (c : Chip) (n : Nat) (b : Byte) : (c.setR n b).pending = c.pending := rfl

@[simp] theorem setR_prefetch (c : Chip) (n : Nat) (b : Byte) : (c.setR n b).prefetch = c.prefetch := rfl

@[simp] theorem setR_status (c : Chip) (n : Nat) (b : Byte) : (c.setR n b).status = c.status := rfl

@[simp] theorem setR_intLine (c : Chip) (n : Nat) (b : Byte) : (c.setR n b).intLine = c.intLine := rfl

@[simp] theorem setR_lock (c : Chip) (n : Nat) (b : Byte) : (c.setR n b).lock = c.lock := rfl

@[simp] theorem setR_paletteE (c : Chip) (n : Nat) (b : Byte) : (c.setR n b).paletteE = c.paletteE := rfl

@[simp] theorem setR_paletteH (c : Chip) (n : Nat) (b : Byte) : (c.setR n b).paletteH = c.paletteH := rfl

@[simp] theorem setR_palPhase (c : Chip) (n : Nat) (b : Byte) : (c.setR n b).palPhase = c.palPhase := rfl

@[simp] theorem setR_palPending (c : Chip) (n : Nat) (b : Byte) : (c.setR n b).palPending = c.palPending := rfl

@[simp] theorem setR_engine (c : Chip) (n : Nat) (b : Byte) : (c.setR n b).engine = c.engine := rfl

@[simp] theorem setR_mmc (c : Chip) (n : Nat) (b : Byte) : (c.setR n b).mmc = c.mmc := rfl

@[simp] theorem setR_budget (c : Chip) (n : Nat) (b : Byte) : (c.setR n b).budget = c.budget := rfl

@[simp] theorem setR_collisionReported (c : Chip) (n : Nat) (b : Byte) : (c.setR n b).collisionReported = c.collisionReported := rfl

/-! ### `setMmc` -/

@[simp] theorem setMmc_vram (c : Chip) (m : Mmc) : (c.setMmc m).vram = c.vram := rfl

@[simp] theorem setMmc_exp (c : Chip) (m : Mmc) : (c.setMmc m).exp = c.exp := rfl

@[simp] theorem setMmc_reg (c : Chip) (m : Mmc) : (c.setMmc m).reg = c.reg := rfl

@[simp] theorem setMmc_cursor (c : Chip) (m : Mmc) : (c.setMmc m).cursor = c.cursor := rfl

@[simp] theorem setMmc_phase (c : Chip) (m : Mmc) : (c.setMmc m).phase = c.phase := rfl

@[simp] theorem setMmc_pending (c : Chip) (m : Mmc) : (c.setMmc m).pending = c.pending := rfl

@[simp] theorem setMmc_prefetch (c : Chip) (m : Mmc) : (c.setMmc m).prefetch = c.prefetch := rfl

@[simp] theorem setMmc_status (c : Chip) (m : Mmc) : (c.setMmc m).status = c.status := rfl

@[simp] theorem setMmc_intLine (c : Chip) (m : Mmc) : (c.setMmc m).intLine = c.intLine := rfl

@[simp] theorem setMmc_lock (c : Chip) (m : Mmc) : (c.setMmc m).lock = c.lock := rfl

@[simp] theorem setMmc_paletteE (c : Chip) (m : Mmc) : (c.setMmc m).paletteE = c.paletteE := rfl

@[simp] theorem setMmc_paletteH (c : Chip) (m : Mmc) : (c.setMmc m).paletteH = c.paletteH := rfl

@[simp] theorem setMmc_palPhase (c : Chip) (m : Mmc) : (c.setMmc m).palPhase = c.palPhase := rfl

@[simp] theorem setMmc_palPending (c : Chip) (m : Mmc) : (c.setMmc m).palPending = c.palPending := rfl

@[simp] theorem setMmc_engine (c : Chip) (m : Mmc) : (c.setMmc m).engine = c.engine := rfl

@[simp] theorem setMmc_mmc (c : Chip) (m : Mmc) : (c.setMmc m).mmc = m := rfl

@[simp] theorem setMmc_budget (c : Chip) (m : Mmc) : (c.setMmc m).budget = c.budget := rfl

@[simp] theorem setMmc_collisionReported (c : Chip) (m : Mmc) : (c.setMmc m).collisionReported = c.collisionReported := rfl

/-! ### `latchFirst` -/

@[simp] theorem latchFirst_vram (c : Chip) : (c.latchFirst).vram = c.vram := rfl

@[simp] theorem latchFirst_exp (c : Chip) : (c.latchFirst).exp = c.exp := rfl

@[simp] theorem latchFirst_reg (c : Chip) : (c.latchFirst).reg = c.reg := rfl

@[simp] theorem latchFirst_cursor (c : Chip) : (c.latchFirst).cursor = c.cursor := rfl

@[simp] theorem latchFirst_phase (c : Chip) : (c.latchFirst).phase = .first := rfl

@[simp] theorem latchFirst_pending (c : Chip) : (c.latchFirst).pending = c.pending := rfl

@[simp] theorem latchFirst_prefetch (c : Chip) : (c.latchFirst).prefetch = c.prefetch := rfl

@[simp] theorem latchFirst_status (c : Chip) : (c.latchFirst).status = c.status := rfl

@[simp] theorem latchFirst_intLine (c : Chip) : (c.latchFirst).intLine = c.intLine := rfl

@[simp] theorem latchFirst_lock (c : Chip) : (c.latchFirst).lock = c.lock := rfl

@[simp] theorem latchFirst_paletteE (c : Chip) : (c.latchFirst).paletteE = c.paletteE := rfl

@[simp] theorem latchFirst_paletteH (c : Chip) : (c.latchFirst).paletteH = c.paletteH := rfl

@[simp] theorem latchFirst_palPhase (c : Chip) : (c.latchFirst).palPhase = c.palPhase := rfl

@[simp] theorem latchFirst_palPending (c : Chip) : (c.latchFirst).palPending = c.palPending := rfl

@[simp] theorem latchFirst_engine (c : Chip) : (c.latchFirst).engine = c.engine := rfl

@[simp] theorem latchFirst_mmc (c : Chip) : (c.latchFirst).mmc = c.mmc := rfl

@[simp] theorem latchFirst_budget (c : Chip) : (c.latchFirst).budget = c.budget := rfl

@[simp] theorem latchFirst_collisionReported (c : Chip) : (c.latchFirst).collisionReported = c.collisionReported := rfl

/-! ### `setCursor` -/

@[simp] theorem setCursor_vram (c : Chip) (a : BitVec 6) : (c.setCursor a).vram = c.vram := rfl

@[simp] theorem setCursor_exp (c : Chip) (a : BitVec 6) : (c.setCursor a).exp = c.exp := rfl

@[simp] theorem setCursor_reg (c : Chip) (a : BitVec 6) : (c.setCursor a).reg = c.reg := rfl

@[simp] theorem setCursor_cursor (c : Chip) (a : BitVec 6) : (c.setCursor a).cursor = a ++ c.pending := rfl

@[simp] theorem setCursor_phase (c : Chip) (a : BitVec 6) : (c.setCursor a).phase = c.phase := rfl

@[simp] theorem setCursor_pending (c : Chip) (a : BitVec 6) : (c.setCursor a).pending = c.pending := rfl

@[simp] theorem setCursor_prefetch (c : Chip) (a : BitVec 6) : (c.setCursor a).prefetch = c.prefetch := rfl

@[simp] theorem setCursor_status (c : Chip) (a : BitVec 6) : (c.setCursor a).status = c.status := rfl

@[simp] theorem setCursor_intLine (c : Chip) (a : BitVec 6) : (c.setCursor a).intLine = c.intLine := rfl

@[simp] theorem setCursor_lock (c : Chip) (a : BitVec 6) : (c.setCursor a).lock = c.lock := rfl

@[simp] theorem setCursor_paletteE (c : Chip) (a : BitVec 6) : (c.setCursor a).paletteE = c.paletteE := rfl

@[simp] theorem setCursor_paletteH (c : Chip) (a : BitVec 6) : (c.setCursor a).paletteH = c.paletteH := rfl

@[simp] theorem setCursor_palPhase (c : Chip) (a : BitVec 6) : (c.setCursor a).palPhase = c.palPhase := rfl

@[simp] theorem setCursor_palPending (c : Chip) (a : BitVec 6) : (c.setCursor a).palPending = c.palPending := rfl

@[simp] theorem setCursor_engine (c : Chip) (a : BitVec 6) : (c.setCursor a).engine = c.engine := rfl

@[simp] theorem setCursor_mmc (c : Chip) (a : BitVec 6) : (c.setCursor a).mmc = c.mmc := rfl

@[simp] theorem setCursor_budget (c : Chip) (a : BitVec 6) : (c.setCursor a).budget = c.budget := rfl

@[simp] theorem setCursor_collisionReported (c : Chip) (a : BitVec 6) : (c.setCursor a).collisionReported = c.collisionReported := rfl

/-! ### `writeAt` -/

@[simp] theorem writeAt_reg (c : Chip) (p : Place) (b : Byte) : (c.writeAt p b).reg = c.reg := by cases p <;> rfl

@[simp] theorem writeAt_cursor (c : Chip) (p : Place) (b : Byte) : (c.writeAt p b).cursor = c.cursor := by cases p <;> rfl

@[simp] theorem writeAt_phase (c : Chip) (p : Place) (b : Byte) : (c.writeAt p b).phase = c.phase := by cases p <;> rfl

@[simp] theorem writeAt_pending (c : Chip) (p : Place) (b : Byte) : (c.writeAt p b).pending = c.pending := by cases p <;> rfl

@[simp] theorem writeAt_prefetch (c : Chip) (p : Place) (b : Byte) : (c.writeAt p b).prefetch = c.prefetch := by cases p <;> rfl

@[simp] theorem writeAt_status (c : Chip) (p : Place) (b : Byte) : (c.writeAt p b).status = c.status := by cases p <;> rfl

@[simp] theorem writeAt_intLine (c : Chip) (p : Place) (b : Byte) : (c.writeAt p b).intLine = c.intLine := by cases p <;> rfl

@[simp] theorem writeAt_lock (c : Chip) (p : Place) (b : Byte) : (c.writeAt p b).lock = c.lock := by cases p <;> rfl

@[simp] theorem writeAt_paletteE (c : Chip) (p : Place) (b : Byte) : (c.writeAt p b).paletteE = c.paletteE := by cases p <;> rfl

@[simp] theorem writeAt_paletteH (c : Chip) (p : Place) (b : Byte) : (c.writeAt p b).paletteH = c.paletteH := by cases p <;> rfl

@[simp] theorem writeAt_palPhase (c : Chip) (p : Place) (b : Byte) : (c.writeAt p b).palPhase = c.palPhase := by cases p <;> rfl

@[simp] theorem writeAt_palPending (c : Chip) (p : Place) (b : Byte) : (c.writeAt p b).palPending = c.palPending := by cases p <;> rfl

@[simp] theorem writeAt_engine (c : Chip) (p : Place) (b : Byte) : (c.writeAt p b).engine = c.engine := by cases p <;> rfl

@[simp] theorem writeAt_mmc (c : Chip) (p : Place) (b : Byte) : (c.writeAt p b).mmc = c.mmc := by cases p <;> rfl

@[simp] theorem writeAt_budget (c : Chip) (p : Place) (b : Byte) : (c.writeAt p b).budget = c.budget := by cases p <;> rfl

@[simp] theorem writeAt_collisionReported (c : Chip) (p : Place) (b : Byte) : (c.writeAt p b).collisionReported = c.collisionReported := by cases p <;> rfl

/-! ### `finish` -/

@[simp] theorem finish_vram (c : Chip) : (finish c).vram = c.vram := rfl

@[simp] theorem finish_exp (c : Chip) : (finish c).exp = c.exp := rfl

@[simp] theorem finish_reg (c : Chip) : (finish c).reg = c.reg := rfl

@[simp] theorem finish_cursor (c : Chip) : (finish c).cursor = c.cursor := rfl

@[simp] theorem finish_phase (c : Chip) : (finish c).phase = c.phase := rfl

@[simp] theorem finish_pending (c : Chip) : (finish c).pending = c.pending := rfl

@[simp] theorem finish_prefetch (c : Chip) : (finish c).prefetch = c.prefetch := rfl

@[simp] theorem finish_status (c : Chip) : (finish c).status = { c.status with ce := false, tr := false } := rfl

@[simp] theorem finish_intLine (c : Chip) : (finish c).intLine = c.intLine := rfl

@[simp] theorem finish_lock (c : Chip) : (finish c).lock = c.lock := rfl

@[simp] theorem finish_paletteE (c : Chip) : (finish c).paletteE = c.paletteE := rfl

@[simp] theorem finish_paletteH (c : Chip) : (finish c).paletteH = c.paletteH := rfl

@[simp] theorem finish_palPhase (c : Chip) : (finish c).palPhase = c.palPhase := rfl

@[simp] theorem finish_palPending (c : Chip) : (finish c).palPending = c.palPending := rfl

@[simp] theorem finish_engine (c : Chip) : (finish c).engine = .idle := rfl

@[simp] theorem finish_mmc (c : Chip) : (finish c).mmc = mmcZero := rfl

@[simp] theorem finish_budget (c : Chip) : (finish c).budget = c.budget := rfl

@[simp] theorem finish_collisionReported (c : Chip) : (finish c).collisionReported = c.collisionReported := rfl

/-! ### `writeBack` -/

@[simp] theorem writeBack_vram (r : Nat) (x : Int) (c : Chip) : (writeBack r x c).vram = c.vram := rfl

@[simp] theorem writeBack_exp (r : Nat) (x : Int) (c : Chip) : (writeBack r x c).exp = c.exp := rfl

@[simp] theorem writeBack_cursor (r : Nat) (x : Int) (c : Chip) : (writeBack r x c).cursor = c.cursor := rfl

@[simp] theorem writeBack_phase (r : Nat) (x : Int) (c : Chip) : (writeBack r x c).phase = c.phase := rfl

@[simp] theorem writeBack_pending (r : Nat) (x : Int) (c : Chip) : (writeBack r x c).pending = c.pending := rfl

@[simp] theorem writeBack_prefetch (r : Nat) (x : Int) (c : Chip) : (writeBack r x c).prefetch = c.prefetch := rfl

@[simp] theorem writeBack_status (r : Nat) (x : Int) (c : Chip) : (writeBack r x c).status = c.status := rfl

@[simp] theorem writeBack_intLine (r : Nat) (x : Int) (c : Chip) : (writeBack r x c).intLine = c.intLine := rfl

@[simp] theorem writeBack_lock (r : Nat) (x : Int) (c : Chip) : (writeBack r x c).lock = c.lock := rfl

@[simp] theorem writeBack_paletteE (r : Nat) (x : Int) (c : Chip) : (writeBack r x c).paletteE = c.paletteE := rfl

@[simp] theorem writeBack_paletteH (r : Nat) (x : Int) (c : Chip) : (writeBack r x c).paletteH = c.paletteH := rfl

@[simp] theorem writeBack_palPhase (r : Nat) (x : Int) (c : Chip) : (writeBack r x c).palPhase = c.palPhase := rfl

@[simp] theorem writeBack_palPending (r : Nat) (x : Int) (c : Chip) : (writeBack r x c).palPending = c.palPending := rfl

@[simp] theorem writeBack_engine (r : Nat) (x : Int) (c : Chip) : (writeBack r x c).engine = c.engine := rfl

@[simp] theorem writeBack_mmc (r : Nat) (x : Int) (c : Chip) : (writeBack r x c).mmc = c.mmc := rfl

@[simp] theorem writeBack_budget (r : Nat) (x : Int) (c : Chip) : (writeBack r x c).budget = c.budget := rfl

@[simp] theorem writeBack_collisionReported (r : Nat) (x : Int) (c : Chip) : (writeBack r x c).collisionReported = c.collisionReported := rfl

/-! ### `clearFH` -/

@[simp] theorem clearFH_vram (c : Chip) : (clearFH c).vram = c.vram := rfl

@[simp] theorem clearFH_exp (c : Chip) : (clearFH c).exp = c.exp := rfl

@[simp] theorem clearFH_reg (c : Chip) : (clearFH c).reg = c.reg := rfl

@[simp] theorem clearFH_cursor (c : Chip) : (clearFH c).cursor = c.cursor := rfl

@[simp] theorem clearFH_phase (c : Chip) : (clearFH c).phase = c.phase := rfl

@[simp] theorem clearFH_pending (c : Chip) : (clearFH c).pending = c.pending := rfl

@[simp] theorem clearFH_prefetch (c : Chip) : (clearFH c).prefetch = c.prefetch := rfl

@[simp] theorem clearFH_status (c : Chip) : (clearFH c).status = { c.status with fh := false } := rfl

@[simp] theorem clearFH_intLine (c : Chip) : (clearFH c).intLine = c.intLine := rfl

@[simp] theorem clearFH_lock (c : Chip) : (clearFH c).lock = c.lock := rfl

@[simp] theorem clearFH_paletteE (c : Chip) : (clearFH c).paletteE = c.paletteE := rfl

@[simp] theorem clearFH_paletteH (c : Chip) : (clearFH c).paletteH = c.paletteH := rfl

@[simp] theorem clearFH_palPhase (c : Chip) : (clearFH c).palPhase = c.palPhase := rfl

@[simp] theorem clearFH_palPending (c : Chip) : (clearFH c).palPending = c.palPending := rfl

@[simp] theorem clearFH_engine (c : Chip) : (clearFH c).engine = c.engine := rfl

@[simp] theorem clearFH_mmc (c : Chip) : (clearFH c).mmc = c.mmc := rfl

@[simp] theorem clearFH_budget (c : Chip) : (clearFH c).budget = c.budget := rfl

@[simp] theorem clearFH_collisionReported (c : Chip) : (clearFH c).collisionReported = c.collisionReported := rfl

/-! ### `acknowledge` -/

@[simp] theorem acknowledge_vram (c : Chip) : (acknowledge c).vram = c.vram := rfl

@[simp] theorem acknowledge_exp (c : Chip) : (acknowledge c).exp = c.exp := rfl

@[simp] theorem acknowledge_reg (c : Chip) : (acknowledge c).reg = c.reg := rfl

@[simp] theorem acknowledge_cursor (c : Chip) : (acknowledge c).cursor = c.cursor := rfl

@[simp] theorem acknowledge_phase (c : Chip) : (acknowledge c).phase = c.phase := rfl

@[simp] theorem acknowledge_pending (c : Chip) : (acknowledge c).pending = c.pending := rfl

@[simp] theorem acknowledge_prefetch (c : Chip) : (acknowledge c).prefetch = c.prefetch := rfl

@[simp] theorem acknowledge_status (c : Chip) : (acknowledge c).status = { c.status with s0 := clearedS0 c.status.s0 } := rfl

@[simp] theorem acknowledge_intLine (c : Chip) : (acknowledge c).intLine = false := rfl

@[simp] theorem acknowledge_lock (c : Chip) : (acknowledge c).lock = c.lock := rfl

@[simp] theorem acknowledge_paletteE (c : Chip) : (acknowledge c).paletteE = c.paletteE := rfl

@[simp] theorem acknowledge_paletteH (c : Chip) : (acknowledge c).paletteH = c.paletteH := rfl

@[simp] theorem acknowledge_palPhase (c : Chip) : (acknowledge c).palPhase = c.palPhase := rfl

@[simp] theorem acknowledge_palPending (c : Chip) : (acknowledge c).palPending = c.palPending := rfl

@[simp] theorem acknowledge_engine (c : Chip) : (acknowledge c).engine = c.engine := rfl

@[simp] theorem acknowledge_mmc (c : Chip) : (acknowledge c).mmc = c.mmc := rfl

@[simp] theorem acknowledge_budget (c : Chip) : (acknowledge c).budget = c.budget := rfl

@[simp] theorem acknowledge_collisionReported (c : Chip) : (acknowledge c).collisionReported = c.collisionReported := rfl

/-! ### `frameEvent` -/

@[simp] theorem frameEvent_vram (c : Chip) : (frameEvent c).vram = c.vram := rfl

@[simp] theorem frameEvent_exp (c : Chip) : (frameEvent c).exp = c.exp := rfl

@[simp] theorem frameEvent_reg (c : Chip) : (frameEvent c).reg = c.reg := rfl

@[simp] theorem frameEvent_cursor (c : Chip) : (frameEvent c).cursor = c.cursor := rfl

@[simp] theorem frameEvent_phase (c : Chip) : (frameEvent c).phase = c.phase := rfl

@[simp] theorem frameEvent_pending (c : Chip) : (frameEvent c).pending = c.pending := rfl

@[simp] theorem frameEvent_prefetch (c : Chip) : (frameEvent c).prefetch = c.prefetch := rfl

@[simp] theorem frameEvent_status (c : Chip) : (frameEvent c).status = { c.status with s0 := c.status.s0 ||| 0x80 } := rfl

@[simp] theorem frameEvent_intLine (c : Chip) : (frameEvent c).intLine = (c.intLine || (c.R 1).getLsbD 5) := rfl

@[simp] theorem frameEvent_lock (c : Chip) : (frameEvent c).lock = c.lock := rfl

@[simp] theorem frameEvent_paletteE (c : Chip) : (frameEvent c).paletteE = c.paletteE := rfl

@[simp] theorem frameEvent_paletteH (c : Chip) : (frameEvent c).paletteH = c.paletteH := rfl

@[simp] theorem frameEvent_palPhase (c : Chip) : (frameEvent c).palPhase = c.palPhase := rfl

@[simp] theorem frameEvent_palPending (c : Chip) : (frameEvent c).palPending = c.palPending := rfl

@[simp] theorem frameEvent_engine (c : Chip) : (frameEvent c).engine = c.engine := rfl

@[simp] theorem frameEvent_mmc (c : Chip) : (frameEvent c).mmc = c.mmc := rfl

@[simp] theorem frameEvent_budget (c : Chip) : (frameEvent c).budget = c.budget := rfl

@[simp] theorem frameEvent_collisionReported (c : Chip) : (frameEvent c).collisionReported = c.collisionReported := rfl

/-! ### `lineEvent` -/

@[simp] theorem lineEvent_vram (c : Chip) : (lineEvent c).vram = c.vram := rfl

@[simp] theorem lineEvent_exp (c : Chip) : (lineEvent c).exp = c.exp := rfl

@[simp] theorem lineEvent_reg (c : Chip) : (lineEvent c).reg = c.reg := rfl

@[simp] theorem lineEvent_cursor (c : Chip) : (lineEvent c).cursor = c.cursor := rfl

@[simp] theorem lineEvent_phase (c : Chip) : (lineEvent c).phase = c.phase := rfl

@[simp] theorem lineEvent_pending (c : Chip) : (lineEvent c).pending = c.pending := rfl

@[simp] theorem lineEvent_prefetch (c : Chip) : (lineEvent c).prefetch = c.prefetch := rfl

@[simp] theorem lineEvent_status (c : Chip) : (lineEvent c).status = { c.status with fh := true } := rfl

@[simp] theorem lineEvent_intLine (c : Chip) : (lineEvent c).intLine = (c.intLine || (c.R 0).getLsbD 4) := rfl

@[simp] theorem lineEvent_lock (c : Chip) : (lineEvent c).lock = c.lock := rfl

@[simp] theorem lineEvent_paletteE (c : Chip) : (lineEvent c).paletteE = c.paletteE := rfl

@[simp] theorem lineEvent_paletteH (c : Chip) : (lineEvent c).paletteH = c.paletteH := rfl

@[simp] theorem lineEvent_palPhase (c : Chip) : (lineEvent c).palPhase = c.palPhase := rfl

@[simp] theorem lineEvent_palPending (c : Chip) : (lineEvent c).palPending = c.palPending := rfl

@[simp] theorem lineEvent_engine (c : Chip) : (lineEvent c).engine = c.engine := rfl

@[simp] theorem lineEvent_mmc (c : Chip) : (lineEvent c).mmc = c.mmc := rfl

@[simp] theorem lineEvent_budget (c : Chip) : (lineEvent c).budget = c.budget := rfl

@[simp] theorem lineEvent_collisionReported (c : Chip) : (lineEvent c).collisionReported = c.collisionReported := rfl

/-! ### Outcomes -/

/-- A finished call is a next state. -/
theorem done_eq (s : State) (c : Chip) (o : Output) : s.done c o = .next { s with chip := c, out := o } := rfl

/-- A finished call that took a free value is a next state. -/
theorem doneDrawn_eq (s : State) (c : Chip) (o : Output) :
    s.doneDrawn c o = .next { s with chip := c, out := o, draws := s.draws + 1 } := rfl

/-- A row of one variant runs in that variant. -/
theorem only_of_eq {s : State} {v : Variant} (k : Host.Outcome State Fault Refusal) (h : s.cfg.variant = v) :
    s.only v k = k := if_pos h

/-- A row of one variant is refused in the others. -/
theorem only_of_ne {s : State} {v : Variant} (k : Host.Outcome State Fault Refusal) (h : s.cfg.variant ≠ v) :
    s.only v k = .refused .absentInVariant := if_neg h

/-- A next state of a row of one variant is the next state of its meaning there. -/
theorem only_next {s t : State} {v : Variant} {k : Host.Outcome State Fault Refusal} (h : s.only v k = .next t) :
    s.cfg.variant = v ∧ k = .next t := by
  by_cases hv : s.cfg.variant = v
  · exact ⟨hv, by rwa [only_of_eq k hv] at h⟩
  · rw [only_of_ne k hv] at h
    cases h

/-! ### Registers -/

/-- A register after a write of a register. -/
theorem R_setR (c : Chip) (n m : Nat) (b : Byte) :
    (c.setR n b).R m = if n = m ∧ n < 64 then b else c.R m := by
  unfold Chip.R Chip.setR
  rw [Vector.getElem?_setIfInBounds]
  by_cases h : n = m
  · subst h
    by_cases h64 : n < 64 <;> simp [h64]
  · simp [h]

/-- The register written. -/
theorem R_setR_self (c : Chip) {n : Nat} (b : Byte) (h : n < 64) : (c.setR n b).R n = b := by
  rw [R_setR, if_pos ⟨rfl, h⟩]

/-- The other registers. -/
theorem R_setR_ne (c : Chip) {n m : Nat} (b : Byte) (h : n ≠ m) : (c.setR n b).R m = c.R m := by
  rw [R_setR, if_neg fun x => h x.1]

/-- Registers depend on the register file only. -/
theorem R_congr {c d : Chip} (h : c.reg = d.reg) (n : Nat) : c.R n = d.R n := by rw [Chip.R, Chip.R, h]

/-- The mode depends on the register file only. -/
theorem modeOf_congr {c d : Chip} (v : Variant) (h : c.reg = d.reg) : modeOf v c = modeOf v d := by
  simp only [modeOf, R_congr h]

/-- A write of a register that holds no mode bit leaves the mode. -/
theorem modeOf_setR (v : Variant) (c : Chip) (n : Nat) (b : Byte) (h : 2 ≤ n) : modeOf v (c.setR n b) = modeOf v c := by
  have h0 : n ≠ 0 := by omega
  have h1 : n ≠ 1 := by omega
  simp only [modeOf, R_setR_ne c b h0, R_setR_ne c b h1]

/-- Bytes of memory depend on the two arrays only. -/
theorem readAt_congr {c d : Chip} (hv : c.vram = d.vram) (he : c.exp = d.exp) (p : Place) : c.readAt p = d.readAt p := by
  cases p <;> simp [Chip.readAt, hv, he]

end Sys2Proof.Machine
end

