-- ==== Sys2Proof/Laws/Memory.lean ====
section
/-! SUPPORT. Laws/Memory.lean: reads after writes of a byte array, and that every memory operation keeps the canonical
form. -/

namespace Sys2Proof.Machine

/-! ### Reads -/

/-- A byte below every listed address is not listed. -/
theorem read_of_forall_lt {m : Memory} {a : Nat} (h : ∀ cell ∈ m, a < cell.1) : Memory.read m a = unwritten := by
  induction m with
  | nil => rfl
  | cons cell m ih =>
    obtain ⟨k, w⟩ := cell
    have hk : a < k := h (k, w) (by simp)
    simp only [Memory.read]
    rw [if_neg (by omega)]
    exact ih fun c hc => h c (List.mem_cons_of_mem _ hc)

/-- The byte written. -/
theorem read_write_same {m : Memory} (h : m.Pairwise (fun x y => x.1 < y.1)) (a : Nat) (b : Byte) :
    Memory.read (Memory.write m a b) a = b := by
  induction m with
  | nil => by_cases hb : b = unwritten <;> simp [Memory.write, Memory.read, hb]
  | cons cell m ih =>
    obtain ⟨k, w⟩ := cell
    obtain ⟨hlt, htl⟩ := List.pairwise_cons.mp h
    rw [Memory.write]
    split
    · rename_i hak
      split
      · rename_i hb
        rw [read_of_forall_lt, hb]
        intro c hc
        rcases List.mem_cons.mp hc with rfl | hc
        · exact hak
        · exact hak.trans (hlt c hc)
      · simp [Memory.read]
    · split
      · rename_i hak
        subst hak
        split
        · rename_i hb
          rw [read_of_forall_lt hlt, hb]
        · simp [Memory.read]
      · rename_i hne
        simp only [Memory.read]
        rw [if_neg (fun x => hne x.symm)]
        exact ih htl

/-- A write leaves every other byte. -/
theorem read_write_ne (m : Memory) {a x : Nat} (b : Byte) (hx : x ≠ a) :
    Memory.read (Memory.write m a b) x = Memory.read m x := by
  induction m with
  | nil => by_cases hb : b = unwritten <;> simp [Memory.write, Memory.read, hb, hx.symm]
  | cons cell m ih =>
    obtain ⟨k, w⟩ := cell
    rw [Memory.write]
    split
    · split <;> simp [Memory.read, hx.symm]
    · split
      · rename_i hak
        subst hak
        split <;> simp [Memory.read, hx.symm]
      · simp only [Memory.read, ih]

/-! ### The canonical form -/

/-- An address that a write leaves listed was listed or is the one written. -/
theorem mem_write {m : Memory} {a : Nat} {b : Byte} {cell : Host.Cell} (h : cell ∈ Memory.write m a b) :
    cell ∈ m ∨ (cell = (a, b) ∧ b ≠ unwritten) := by
  induction m with
  | nil => by_cases hb : b = unwritten <;> simp_all [Memory.write]
  | cons c m ih =>
    obtain ⟨k, w⟩ := c
    rw [Memory.write] at h
    split at h
    · split at h
      · exact .inl h
      · rcases List.mem_cons.mp h with rfl | h
        · exact .inr ⟨rfl, ‹_›⟩
        · exact .inl h
    · split at h
      · split at h
        · exact .inl (List.mem_cons_of_mem _ h)
        · rcases List.mem_cons.mp h with rfl | h
          · exact .inr ⟨rfl, ‹_›⟩
          · exact .inl (List.mem_cons_of_mem _ h)
      · rcases List.mem_cons.mp h with rfl | h
        · exact .inl (by simp)
        · exact (ih h).imp_left (List.mem_cons_of_mem _)

/-- A write keeps the addresses strictly rising. -/
theorem write_pairwise {m : Memory} (h : m.Pairwise (fun x y => x.1 < y.1)) (a : Nat) (b : Byte) :
    (Memory.write m a b).Pairwise (fun x y => x.1 < y.1) := by
  induction m with
  | nil => by_cases hb : b = unwritten <;> simp [Memory.write, hb]
  | cons cell m ih =>
    obtain ⟨k, w⟩ := cell
    obtain ⟨hlt, htl⟩ := List.pairwise_cons.mp h
    rw [Memory.write]
    split
    · rename_i hak
      split
      · exact h
      · refine List.pairwise_cons.mpr ⟨fun c hc => ?_, h⟩
        rcases List.mem_cons.mp hc with rfl | hc
        · exact hak
        · exact hak.trans (hlt c hc)
    · split
      · rename_i hak
        subst hak
        split
        · exact htl
        · exact List.pairwise_cons.mpr ⟨hlt, htl⟩
      · refine List.pairwise_cons.mpr ⟨fun c hc => ?_, ih htl⟩
        rcases mem_write hc with hc | ⟨rfl, -⟩
        · exact hlt c hc
        · show k < a
          omega

/-- A write inside the array keeps the canonical form. -/
theorem write_wf {size : Nat} {m : Memory} (h : m.wf size) {a : Nat} (ha : a < size) (b : Byte) :
    (Memory.write m a b).wf size := by
  refine ⟨write_pairwise h.1 a b, fun cell hc => ?_⟩
  rcases mem_write hc with hc | ⟨rfl, hb⟩
  · exact h.2 cell hc
  · exact ⟨ha, hb⟩

/-- An empty array is in canonical form. -/
theorem nil_wf (size : Nat) : Memory.wf size [] := ⟨List.Pairwise.nil, by simp⟩

/-- A tabulated array is in canonical form. -/
theorem tabulate_wf (size : Nat) (f : Nat → Byte) : (Memory.tabulate size f).wf size := by
  constructor
  · rw [Memory.tabulate, List.pairwise_filterMap]
    refine (List.pairwise_lt_range (n := size)).imp fun {a a'} haa b hb b' hb' => ?_
    simp only [Option.ite_none_left_eq_some, Option.some.injEq] at hb hb'
    rw [← hb.2, ← hb'.2]
    exact haa
  · intro cell hc
    obtain ⟨a, ha, hb⟩ := List.mem_filterMap.mp hc
    simp only [Option.ite_none_left_eq_some, Option.some.injEq] at hb
    rw [← hb.2]
    exact ⟨List.mem_range.mp ha, hb.1⟩

/-- Two arrays in canonical form with the same bytes are equal. -/
theorem wf_ext {size : Nat} {m n : Memory} (hm : m.wf size) (hn : n.wf size)
    (h : ∀ a, Memory.read m a = Memory.read n a) : m = n := by
  have key : ∀ {m : Memory}, m.wf size → ∀ a b, (a, b) ∈ m ↔ Memory.read m a = b ∧ b ≠ unwritten := by
    intro m hm a b
    induction m with
    | nil =>
      simp only [List.not_mem_nil, Memory.read, false_iff, not_and, not_not]
      exact Eq.symm
    | cons c m ih =>
      obtain ⟨k, w⟩ := c
      obtain ⟨hlt, htl⟩ := List.pairwise_cons.mp hm.1
      have hw : w ≠ unwritten := (hm.2 (k, w) (by simp)).2
      have hm' : Memory.wf size m := ⟨htl, fun c hc => hm.2 c (List.mem_cons_of_mem _ hc)⟩
      simp only [List.mem_cons, Memory.read, Prod.mk.injEq]
      by_cases hk : k = a
      · subst hk
        have : (k, b) ∉ m := fun hc => lt_irrefl k (hlt (k, b) hc)
        simp only [this, or_false, true_and, if_true]
        constructor
        · rintro rfl
          exact ⟨rfl, hw⟩
        · rintro ⟨rfl, -⟩
          rfl
      · simp only [hk, if_false, Ne.symm hk, false_and, false_or]
        exact ih hm'
  have hsub : ∀ cell, cell ∈ m ↔ cell ∈ n := by
    rintro ⟨a, b⟩
    rw [key hm, key hn, h]
  have hnd : ∀ {m : Memory}, m.Pairwise (fun x y => x.1 < y.1) → m.Nodup := fun hp =>
    hp.imp fun {a b} hab heq => by
      subst heq
      exact lt_irrefl _ hab
  exact ((List.perm_ext_iff_of_nodup (hnd hm.1) (hnd hn.1)).mpr hsub).eq_of_pairwise
    (fun _ _ _ _ h1 h2 => absurd (lt_trans h1 h2) (lt_irrefl _)) hm.1 hn.1

/-! ### Places -/

/-- A place inside the arrays of a variant. -/
def Place.inside (v : Variant) : Place → Prop
  | .main a => a < vramMain v
  | .exp a => a < vramExp v

/-- Both arrays of a chip are in canonical form. -/
abbrev Chip.memoryOk (v : Variant) (c : Chip) : Prop := c.vram.wf (vramMain v) ∧ c.exp.wf (vramExp v)

/-- The byte written to a place. -/
theorem readAt_writeAt_same {v : Variant} {c : Chip} (h : c.memoryOk v) (p : Place) (b : Byte) :
    (c.writeAt p b).readAt p = b := by
  cases p
  · exact read_write_same h.1.1 _ b
  · exact read_write_same h.2.1 _ b

/-- A write to a place leaves every other place. -/
theorem readAt_writeAt_ne (c : Chip) {p q : Place} (b : Byte) (h : q ≠ p) : (c.writeAt p b).readAt q = c.readAt q := by
  cases p <;> cases q <;> first
    | rfl
    | exact read_write_ne _ b (fun x => h (congrArg _ x))

/-- A write inside the arrays keeps their canonical form. -/
theorem writeAt_memoryOk {v : Variant} {c : Chip} (h : c.memoryOk v) {p : Place} (hp : p.inside v) (b : Byte) :
    (c.writeAt p b).memoryOk v := by
  cases p
  · exact ⟨write_wf h.1 hp b, h.2⟩
  · exact ⟨h.1, write_wf h.2 hp b⟩

/-- The mode after a write to memory. -/
@[simp] theorem modeOf_writeAt (v : Variant) (c : Chip) (p : Place) (b : Byte) : modeOf v (c.writeAt p b) = modeOf v c :=
  modeOf_congr v (by simp)

end Sys2Proof.Machine
end

