-- ==== Sys2Proof/Laws/Ops.lean ====
section
/-! SUPPORT. Laws/Ops.lean: what the shared operations over places, registers, the cursor, the palette, the pixels and the
interrupt output can do. -/

namespace Sys2Proof.Machine

/-! ### Reads after updates that leave memory -/

@[simp] theorem readAt_setR (c : Chip) (n : Nat) (b : Byte) (p : Place) : (c.setR n b).readAt p = c.readAt p :=
  readAt_congr rfl rfl p

@[simp] theorem readAt_setMmc (c : Chip) (m : Mmc) (p : Place) : (c.setMmc m).readAt p = c.readAt p :=
  readAt_congr rfl rfl p

@[simp] theorem readAt_latchFirst (c : Chip) (p : Place) : c.latchFirst.readAt p = c.readAt p := readAt_congr rfl rfl p

@[simp] theorem readAt_setCursor (c : Chip) (a : BitVec 6) (p : Place) : (c.setCursor a).readAt p = c.readAt p :=
  readAt_congr rfl rfl p

@[simp] theorem readAt_finish (c : Chip) (p : Place) : (finish c).readAt p = c.readAt p := readAt_congr rfl rfl p

@[simp] theorem readAt_writeBack (r : Nat) (x : Int) (c : Chip) (p : Place) : (writeBack r x c).readAt p = c.readAt p :=
  readAt_congr rfl rfl p

@[simp] theorem readAt_frameEvent (c : Chip) (p : Place) : (frameEvent c).readAt p = c.readAt p := readAt_congr rfl rfl p

@[simp] theorem readAt_lineEvent (c : Chip) (p : Place) : (lineEvent c).readAt p = c.readAt p := readAt_congr rfl rfl p

@[simp] theorem readAt_acknowledge (c : Chip) (p : Place) : (acknowledge c).readAt p = c.readAt p :=
  readAt_congr rfl rfl p

@[simp] theorem readAt_clearFH (c : Chip) (p : Place) : (clearFH c).readAt p = c.readAt p := readAt_congr rfl rfl p

/-! ### Places lie inside the arrays -/

/-- The cursor's byte lies inside main or expansion VRAM. -/
theorem portPlace_inside (v : Variant) (c : Chip) : (portPlace v c).inside v := by
  have hc := c.cursor.isLt
  have h14 : (c.R 14 &&& 0x07).toNat ≤ 7 := by
    rw [BitVec.toNat_and]
    exact Nat.and_le_right
  cases v
  · exact hc
  · exact hc
  · have ha : portAddress c < 131072 := by unfold portAddress; omega
    have hi : interleave (portAddress c) < 131072 := by unfold interleave; omega
    have he : portAddress c % 65536 < 65536 := Nat.mod_lt _ (by decide)
    simp only [portPlace]
    generalize portAddress c = a at ha hi he ⊢
    split
    · simpa [Place.inside, vramExp] using he
    · split <;> simpa [Place.inside, vramMain] using by assumption

/-- The engine's byte lies inside the arrays of variant H. -/
theorem enginePlace_inside (f : Bool) (a : Nat) : (enginePlace f a).inside .H := by
  unfold enginePlace
  split <;> simp only [Place.inside, vramMain, vramExp] <;> omega

/-- A pixel's byte lies inside the arrays of variant H. -/
theorem pixelPlace_inside (c : Chip) (f : Bool) (x y : Int) : (pixelPlace c f x y).inside .H :=
  enginePlace_inside f _

/-- An absolute address reaches a byte inside the arrays. -/
theorem debugPlace_inside (v : Variant) (a : Nat) : (debugPlace v a).inside v := by
  unfold debugPlace
  have hpos : 0 < vramMain v + vramExp v := by cases v <;> decide
  have hk := Nat.mod_lt a hpos
  simp only
  split
  · assumption
  · show _ < _
    omega

/-! ### The register file past the bank -/

/-- The entries past the register bank are 0. -/
abbrev Chip.bankOk (v : Variant) (c : Chip) : Prop := ∀ n : Fin 64, nreg v ≤ n.val → c.reg[n] = 0

/-- A register write inside the bank keeps the entries past it. -/
theorem setR_bankOk {v : Variant} {c : Chip} (h : c.bankOk v) {n : Nat} (hn : n < nreg v) (b : Byte) :
    (c.setR n b).bankOk v := by
  intro m hm
  have hne : n ≠ m.val := by omega
  show (c.reg.setIfInBounds n b)[m.val] = 0
  rw [Vector.getElem_setIfInBounds_ne _ hne]
  exact h m hm

/-- The registers after reset leave the entries past the bank 0. -/
theorem resetRegs_bankOk (v : Variant) (n : Fin 64) (hn : nreg v ≤ n.val) : (resetRegs v)[n] = 0 := by
  revert n hn
  cases v <;> decide

/-! ### The parts of `Chip.ok` -/

/-- CE, TR, the engine and the Command Unit State fit together. -/
abbrev Chip.engineOk (v : Variant) (c : Chip) : Prop :=
  c.status.ce = (c.engine != .idle) ∧ c.status.tr = engineHost c.engine ∧ engineFits v c = true

/-- `Chip.ok` in three parts. -/
theorem ok_iff (v : Variant) (c : Chip) : c.ok v ↔ c.memoryOk v ∧ c.bankOk v ∧ c.engineOk v := by
  constructor
  · rintro ⟨h1, h2, h3, h4, h5, h6⟩
    exact ⟨⟨h1, h2⟩, h3, h4, h5, h6⟩
  · rintro ⟨⟨h1, h2⟩, h3, h4, h5, h6⟩
    exact ⟨h1, h2, h3, h4, h5, h6⟩

/-- A chip that differs from a good one in none of the fields `Chip.ok` reads is good. -/
theorem ok_congr {v : Variant} {c d : Chip} (h : c.ok v) (hv : d.vram = c.vram) (he : d.exp = c.exp)
    (hr : d.reg = c.reg) (hce : d.status.ce = c.status.ce) (htr : d.status.tr = c.status.tr)
    (hen : d.engine = c.engine) (hm : d.mmc = c.mmc) : d.ok v := by
  obtain ⟨h1, h2, h3, h4, h5, h6⟩ := h
  refine ⟨hv ▸ h1, he ▸ h2, by rw [hr]; exact h3, by rw [hce, hen]; exact h4, by rw [htr, hen]; exact h5, ?_⟩
  unfold engineFits at h6 ⊢
  rw [hen, hm, modeOf_congr v hr]
  exact h6

/-- In B and E no command runs. -/
theorem idle_of_ok {v : Variant} {c : Chip} (h : c.ok v) (hv : v ≠ .H) : c.engine = .idle := by
  have h6 := h.2.2.2.2.2
  unfold engineFits at h6
  cases he : c.engine with
  | idle => rfl
  | running op => simp [he, hv] at h6

/-- A running command runs in variant H, in one of G4 to G7, with its own opcode in CM. -/
theorem running_of_ok {v : Variant} {c : Chip} {op : Op} (h : c.ok v) (he : c.engine = .running op) :
    v = .H ∧ commandMode (modeOf v c) = true ∧ opOf c.mmc.CM = some op := by
  have h6 := h.2.2.2.2.2
  unfold engineFits at h6
  simp only [he, Bool.and_eq_true, beq_iff_eq] at h6
  exact ⟨h6.1.2, h6.2, h6.1.1⟩

/-! ### The cursor -/

/-- What the advance can change: the cursor, and in variant H R14. -/
theorem advance_eq (v : Variant) (c : Chip) :
    ∃ r : Vector Byte 64, ∃ x : BitVec 14, advance v c = { c with reg := r, cursor := x } ∧
      (r = c.reg ∨ v = .H ∧ ∃ b, r = c.reg.setIfInBounds 14 b) := by
  cases v
  · exact ⟨_, _, rfl, .inl rfl⟩
  · exact ⟨_, _, rfl, .inl rfl⟩
  · unfold advance carryR14
    split_ifs with h1 h2
    · exact ⟨_, _, rfl, .inr ⟨rfl, _, rfl⟩⟩
    · exact ⟨_, _, rfl, .inl rfl⟩
    · exact ⟨_, _, rfl, .inl rfl⟩

/-- The advance leaves every byte of memory. -/
@[simp] theorem readAt_advance (v : Variant) (c : Chip) (p : Place) : (advance v c).readAt p = c.readAt p := by
  obtain ⟨r, x, h, -⟩ := advance_eq v c
  rw [h]
  exact readAt_congr rfl rfl p

/-- A change of R14 in variant H keeps a chip good. -/
theorem setR14_ok {c : Chip} (h : c.ok .H) (b : Byte) : (c.setR 14 b).ok .H := by
  obtain ⟨hm, hb, h4, h5, h6⟩ := (ok_iff _ _).mp h
  refine (ok_iff _ _).mpr ⟨hm, setR_bankOk hb (by decide) b, h4, h5, ?_⟩
  unfold engineFits at h6 ⊢
  rw [modeOf_setR _ _ _ _ (by decide)]
  exact h6

/-- The advance keeps a chip good. -/
theorem advance_ok {v : Variant} {c : Chip} (h : c.ok v) : (advance v c).ok v := by
  obtain ⟨r, x, he, hr | ⟨rfl, b, hr⟩⟩ := advance_eq v c
  · rw [he]
    exact ok_congr h rfl rfl hr rfl rfl rfl rfl
  · rw [he]
    exact ok_congr (setR14_ok h b) rfl rfl hr rfl rfl rfl rfl

/-- A write to memory inside the arrays keeps a chip good. -/
theorem writeAt_ok {v : Variant} {c : Chip} (h : c.ok v) {p : Place} (hp : p.inside v) (b : Byte) :
    (c.writeAt p b).ok v := by
  obtain ⟨hm, hb, h4, h5, h6⟩ := (ok_iff _ _).mp h
  refine (ok_iff _ _).mpr ⟨writeAt_memoryOk hm hp b, ?_, ?_, ?_, ?_⟩
  · intro n
    rw [show (c.writeAt p b).reg[n] = c.reg[n] from by simp]
    exact hb n
  · simpa using h4
  · simpa using h5
  · unfold engineFits at h6 ⊢
    simpa using h6

/-! ### The palette -/

/-- What a palette byte of variant H can change: the palette, its phase and pending byte, and R16. -/
theorem paletteByteH_eq (c : Chip) (b : Byte) :
    ∃ r : Vector Byte 64, ∃ pal : Vector Rgb 16, ∃ ph : Phase, ∃ pend : Byte,
      paletteByteH c b = { c with reg := r, paletteH := pal, palPhase := ph, palPending := pend } ∧
      (r = c.reg ∨ ∃ x, r = c.reg.setIfInBounds 16 x) := by
  unfold paletteByteH
  cases c.palPhase
  · exact ⟨_, _, _, _, rfl, .inl rfl⟩
  · exact ⟨_, _, _, _, rfl, .inr ⟨_, rfl⟩⟩

/-- What a palette byte of variant E can change: the palette, its phase and pending byte, and R47. -/
theorem paletteByteE_eq (c : Chip) (b : Byte) :
    ∃ r : Vector Byte 64, ∃ pal : Vector (BitVec 12) 64, ∃ ph : Phase, ∃ pend : Byte,
      paletteByteE c b = { c with reg := r, paletteE := pal, palPhase := ph, palPending := pend } ∧
      (r = c.reg ∨ ∃ x, r = c.reg.setIfInBounds 47 x) := by
  unfold paletteByteE
  cases c.palPhase
  · exact ⟨_, _, _, _, rfl, .inl rfl⟩
  · exact ⟨_, _, _, _, rfl, .inr ⟨_, rfl⟩⟩

/-- A write of a register of the bank that holds no mode bit keeps a chip good. -/
theorem setR_ok {v : Variant} {c : Chip} (h : c.ok v) {n : Nat} (h2 : 2 ≤ n) (hn : n < nreg v) (b : Byte) :
    (c.setR n b).ok v := by
  obtain ⟨hm, hb, h4, h5, h6⟩ := (ok_iff _ _).mp h
  refine (ok_iff _ _).mpr ⟨hm, setR_bankOk hb hn b, h4, h5, ?_⟩
  unfold engineFits at h6 ⊢
  rw [modeOf_setR _ _ _ _ h2]
  exact h6

/-- A palette byte keeps a chip of variant H good. -/
theorem paletteByteH_ok {c : Chip} (h : c.ok .H) (b : Byte) : (paletteByteH c b).ok .H := by
  obtain ⟨r, pal, ph, pend, he, hr | ⟨x, hr⟩⟩ := paletteByteH_eq c b
  · rw [he]
    exact ok_congr h rfl rfl hr rfl rfl rfl rfl
  · rw [he]
    exact ok_congr (setR_ok h (n := 16) (by decide) (by decide) x) rfl rfl hr rfl rfl rfl rfl

/-- A palette byte keeps a chip of variant E good. -/
theorem paletteByteE_ok {c : Chip} (h : c.ok .E) (b : Byte) : (paletteByteE c b).ok .E := by
  obtain ⟨r, pal, ph, pend, he, hr | ⟨x, hr⟩⟩ := paletteByteE_eq c b
  · rw [he]
    exact ok_congr h rfl rfl hr rfl rfl rfl rfl
  · rw [he]
    exact ok_congr (setR_ok h (n := 47) (by decide) (by decide) x) rfl rfl hr rfl rfl rfl rfl

/-! ### Pixels -/

/-- A pixel write writes its own byte or nothing. -/
theorem psetAt_eq (c : Chip) (f : Bool) (x y : Int) (col : Byte) (lo : Nibble) :
    psetAt c f x y col lo = c ∨ ∃ b, psetAt c f x y col lo = c.writeAt (pixelPlace c f x y) b := by
  unfold psetAt
  split
  · exact .inr ⟨_, rfl⟩
  · exact .inl rfl

/-- A pixel write leaves every other byte. -/
theorem readAt_psetAt_ne (c : Chip) (f : Bool) (x y : Int) (col : Byte) (lo : Nibble) {p : Place}
    (h : p ≠ pixelPlace c f x y) : (psetAt c f x y col lo).readAt p = c.readAt p := by
  rcases psetAt_eq c f x y col lo with he | ⟨b, he⟩ <;> rw [he]
  exact readAt_writeAt_ne c b h

/-- A pixel write keeps a chip of variant H good. -/
theorem psetAt_ok {c : Chip} (h : c.ok .H) (f : Bool) (x y : Int) (col : Byte) (lo : Nibble) :
    (psetAt c f x y col lo).ok .H := by
  rcases psetAt_eq c f x y col lo with he | ⟨b, he⟩ <;> rw [he]
  · exact h
  · exact writeAt_ok h (pixelPlace_inside c f x y) b

/-- The places of pixels depend on the register file only. -/
theorem pixelPlace_congr {c d : Chip} (h : c.reg = d.reg) (f : Bool) (x y : Int) :
    pixelPlace c f x y = pixelPlace d f x y := by
  rw [pixelPlace, pixelPlace, modeOf_congr .H h]

/-- The colour read at a pixel depends on the register file and the two arrays only. -/
theorem pointAt_congr {c d : Chip} (hr : c.reg = d.reg) (hv : c.vram = d.vram) (he : c.exp = d.exp) (f : Bool)
    (x y : Int) : pointAt c f x y = pointAt d f x y := by
  rw [pointAt, pointAt, pixelPlace_congr hr, readAt_congr hv he, modeOf_congr .H hr]

/-! ### Events -/

/-- The frame event keeps a chip good. -/
theorem frameEvent_ok {v : Variant} {c : Chip} (h : c.ok v) : (frameEvent c).ok v :=
  ok_congr h rfl rfl rfl rfl rfl rfl rfl

/-- The line event keeps a chip good. -/
theorem lineEvent_ok {v : Variant} {c : Chip} (h : c.ok v) : (lineEvent c).ok v :=
  ok_congr h rfl rfl rfl rfl rfl rfl rfl

/-- The acknowledgement keeps a chip good. -/
theorem acknowledge_ok {v : Variant} {c : Chip} (h : c.ok v) : (acknowledge c).ok v :=
  ok_congr h rfl rfl rfl rfl rfl rfl rfl

/-- A chip right after reset is good, whatever the reset draws. -/
theorem resetWith_ok (v : Variant) {vram exp : Memory} (hv : vram.wf (vramMain v)) (he : exp.wf (vramExp v)) (pre : Byte)
    (palE : Vector (BitVec 12) 64) (palH : Vector Rgb 16) : (Chip.resetWith v vram exp pre palE palH).ok v :=
  ⟨hv, he, resetRegs_bankOk v, rfl, rfl, rfl⟩

end Sys2Proof.Machine
end

