-- ==== Sys2Proof/Laws/Engine.lean ====
section
/-! SUPPORT. Laws/Engine.lean: what the Command Engine's operations can change, that each keeps a chip good, and that a
step neither reads nor writes the budget. -/

namespace Sys2Proof.Machine

/-! ### What engine work leaves alone -/

/-- `d` comes from `c` by engine work: the port side, the palettes, the lock, the interrupt output, the frame state, S#0,
FH and the registers outside R34 to R44 are the same, and memory and bank keep their form. -/
structure EngineFrame (c d : Chip) : Prop where
  cursor : d.cursor = c.cursor
  phase : d.phase = c.phase
  pending : d.pending = c.pending
  prefetch : d.prefetch = c.prefetch
  intLine : d.intLine = c.intLine
  lock : d.lock = c.lock
  paletteE : d.paletteE = c.paletteE
  paletteH : d.paletteH = c.paletteH
  palPhase : d.palPhase = c.palPhase
  palPending : d.palPending = c.palPending
  budget : d.budget = c.budget
  collisionReported : d.collisionReported = c.collisionReported
  s0 : d.status.s0 = c.status.s0
  fh : d.status.fh = c.status.fh
  regs : ∀ n, n < 34 ∨ 45 ≤ n → d.R n = c.R n
  memory : c.memoryOk .H → d.memoryOk .H
  bank : c.bankOk .H → d.bankOk .H

/-- Engine work after engine work. -/
theorem EngineFrame.trans {c d e : Chip} (h : EngineFrame c d) (k : EngineFrame d e) : EngineFrame c e where
  cursor := k.cursor.trans h.cursor
  phase := k.phase.trans h.phase
  pending := k.pending.trans h.pending
  prefetch := k.prefetch.trans h.prefetch
  intLine := k.intLine.trans h.intLine
  lock := k.lock.trans h.lock
  paletteE := k.paletteE.trans h.paletteE
  paletteH := k.paletteH.trans h.paletteH
  palPhase := k.palPhase.trans h.palPhase
  palPending := k.palPending.trans h.palPending
  budget := k.budget.trans h.budget
  collisionReported := k.collisionReported.trans h.collisionReported
  s0 := k.s0.trans h.s0
  fh := k.fh.trans h.fh
  regs n hn := (k.regs n hn).trans (h.regs n hn)
  memory hm := k.memory (h.memory hm)
  bank hb := k.bank (h.bank hb)

/-- A change of the engine's own fields and of the status registers it owns is engine work. -/
theorem EngineFrame.own (c : Chip) (m : Mmc) (e : Engine) (st : Status) (h0 : st.s0 = c.status.s0)
    (hf : st.fh = c.status.fh) : EngineFrame c { c with mmc := m, engine := e, status := st } where
  cursor := rfl
  phase := rfl
  pending := rfl
  prefetch := rfl
  intLine := rfl
  lock := rfl
  paletteE := rfl
  paletteH := rfl
  palPhase := rfl
  palPending := rfl
  budget := rfl
  collisionReported := rfl
  s0 := h0
  fh := hf
  regs _ _ := rfl
  memory h := h
  bank h := h

/-- No change is engine work. -/
theorem EngineFrame.refl (c : Chip) : EngineFrame c c := EngineFrame.own c c.mmc c.engine c.status rfl rfl

/-- The mode is the same after engine work. -/
theorem EngineFrame.mode {c d : Chip} (h : EngineFrame c d) : modeOf .H d = modeOf .H c := by
  simp only [modeOf, h.regs 0 (by omega), h.regs 1 (by omega)]

theorem frame_setMmc (c : Chip) (m : Mmc) : EngineFrame c (c.setMmc m) := EngineFrame.own c m c.engine c.status rfl rfl

theorem frame_finish (c : Chip) : EngineFrame c (finish c) := EngineFrame.own c _ _ _ rfl rfl

theorem frame_setR (c : Chip) {n : Nat} (b : Byte) (h : 34 ≤ n ∧ n < 45) : EngineFrame c (c.setR n b) where
  cursor := rfl
  phase := rfl
  pending := rfl
  prefetch := rfl
  intLine := rfl
  lock := rfl
  paletteE := rfl
  paletteH := rfl
  palPhase := rfl
  palPending := rfl
  budget := rfl
  collisionReported := rfl
  s0 := rfl
  fh := rfl
  regs m hm := R_setR_ne c b (by omega)
  memory h := h
  bank hb := setR_bankOk hb (by show n < 48; omega) b

theorem frame_writeBack (c : Chip) {r : Nat} (x : Int) (h : 34 ≤ r ∧ r < 44) : EngineFrame c (writeBack r x c) :=
  (frame_setR c _ (by omega)).trans (frame_setR _ _ (by omega))

theorem frame_writeAt (c : Chip) {p : Place} (b : Byte) (h : p.inside .H) : EngineFrame c (c.writeAt p b) where
  cursor := by simp
  phase := by simp
  pending := by simp
  prefetch := by simp
  intLine := by simp
  lock := by simp
  paletteE := by simp
  paletteH := by simp
  palPhase := by simp
  palPending := by simp
  budget := by simp
  collisionReported := by simp
  s0 := by simp
  fh := by simp
  regs n _ := R_congr (by simp) n
  memory hm := writeAt_memoryOk hm h b
  bank hb := by
    intro n
    rw [show (c.writeAt p b).reg[n] = c.reg[n] from by simp]
    exact hb n

theorem frame_psetAt (c : Chip) (f : Bool) (x y : Int) (col : Byte) (lo : Nibble) :
    EngineFrame c (psetAt c f x y col lo) := by
  rcases psetAt_eq c f x y col lo with h | ⟨b, h⟩ <;> rw [h]
  · exact EngineFrame.refl c
  · exact frame_writeAt c b (pixelPlace_inside c f x y)

/-! ### Progress: engine work that stops or goes on -/

/-- The engine is idle, with everything an idle engine has. -/
structure Stopped (d : Chip) : Prop where
  engine : d.engine = .idle
  mmc : d.mmc = mmcZero
  ce : d.status.ce = false
  tr : d.status.tr = false

/-- The same command goes on. -/
structure Going (c d : Chip) : Prop where
  engine : d.engine = c.engine
  cm : d.mmc.CM = c.mmc.CM
  ce : d.status.ce = c.status.ce
  tr : d.status.tr = c.status.tr

/-- Engine work after which the engine has stopped or the same command goes on. -/
abbrev Progress (c d : Chip) : Prop := EngineFrame c d ∧ (Stopped d ∨ Going c d)

theorem stopped_finish (c : Chip) : Stopped (finish c) := ⟨rfl, rfl, rfl, rfl⟩

/-- A stopped engine after engine work on a good chip leaves it good. -/
theorem stopped_ok {c d : Chip} (hm : c.memoryOk .H) (hb : c.bankOk .H) (h : EngineFrame c d) (k : Stopped d) : d.ok .H := by
  refine (ok_iff _ _).mpr ⟨h.memory hm, h.bank hb, ?_, ?_, ?_⟩
  · rw [k.ce, k.engine]
    rfl
  · rw [k.tr, k.engine]
    rfl
  · unfold engineFits
    rw [k.engine, k.mmc]
    rfl

/-- Progress of a running command on a good chip leaves it good. -/
theorem progress_ok {c d : Chip} {op : Op} (h : c.ok .H) (he : c.engine = .running op) (k : Progress c d) : d.ok .H := by
  obtain ⟨hm, hb, h4, h5, -⟩ := (ok_iff _ _).mp h
  obtain ⟨-, hmode, hcm⟩ := running_of_ok h he
  rcases k.2 with hs | hg
  · exact stopped_ok hm hb k.1 hs
  · refine (ok_iff _ _).mpr ⟨k.1.memory hm, k.1.bank hb, ?_, ?_, ?_⟩
    · rw [hg.ce, hg.engine]
      exact h4
    · rw [hg.tr, hg.engine]
      exact h5
    · unfold engineFits
      rw [hg.engine, he]
      simp [hg.cm, hcm, k.1.mode, hmode]

/-- Progress after engine work that keeps the engine's own fields. -/
theorem Progress.after {c d e : Chip} (h : EngineFrame c d) (hg : Going c d) (k : Progress d e) : Progress c e :=
  ⟨h.trans k.1, k.2.imp id fun g => ⟨g.engine.trans hg.engine, g.cm.trans hg.cm, g.ce.trans hg.ce, g.tr.trans hg.tr⟩⟩

/-- A new Command Unit State of the same opcode is progress. -/
theorem progress_setMmc (c : Chip) {m : Mmc} (h : m.CM = c.mmc.CM) : Progress c (c.setMmc m) :=
  ⟨frame_setMmc c m, .inr ⟨rfl, h, rfl, rfl⟩⟩

/-! ### Ends -/

theorem frame_endD (c : Chip) : EngineFrame c (endD c) :=
  ((frame_writeBack c _ (by decide)).trans (frame_writeBack _ _ (by decide))).trans (frame_finish _)

theorem frame_endSD (c : Chip) : EngineFrame c (endSD c) :=
  (((frame_writeBack c _ (by decide)).trans (frame_writeBack _ _ (by decide))).trans
    (frame_writeBack _ _ (by decide))).trans (frame_finish _)

theorem frame_endLMCM (c : Chip) : EngineFrame c (endLMCM c) :=
  ((frame_writeBack c _ (by decide)).trans (frame_writeBack _ _ (by decide))).trans (frame_finish _)

theorem frame_endSRCH (c : Chip) : EngineFrame c (endSRCH c) :=
  (EngineFrame.own c c.mmc c.engine { c.status with
    s8 := BitVec.ofNat 8 (lowBits c.mmc.ASX 8)
    s9 := 0xFE ||| BitVec.ofNat 8 (lowBits (c.mmc.ASX / 256) 1) } rfl rfl).trans (frame_finish _)

theorem frame_endLINE (c : Chip) : EngineFrame c (endLINE c) :=
  (frame_writeBack c _ (by decide)).trans (frame_finish _)

/-- An end after a change of the Command Unit State is progress. -/
theorem progress_endD (c : Chip) (m : Mmc) : Progress c (endD (c.setMmc m)) :=
  ⟨(frame_setMmc c m).trans (frame_endD _), .inl (stopped_finish _)⟩

theorem progress_endSD (c : Chip) (m : Mmc) : Progress c (endSD (c.setMmc m)) :=
  ⟨(frame_setMmc c m).trans (frame_endSD _), .inl (stopped_finish _)⟩

theorem progress_endLMCM (c : Chip) (m : Mmc) : Progress c (endLMCM (c.setMmc m)) :=
  ⟨(frame_setMmc c m).trans (frame_endLMCM _), .inl (stopped_finish _)⟩

/-! ### Row ends -/

/-- `RowEndD()` changes the Command Unit State and then ends or does not. -/
theorem rowEndD_cases (c : Chip) :
    ∃ m : Mmc, m.CM = c.mmc.CM ∧ (rowEndD c = endD (c.setMmc m) ∨ rowEndD c = c.setMmc m) := by
  unfold rowEndD
  extract_lets m anx adx rowEnd ny dy
  split
  · split
    · refine ⟨_, ?_, .inl rfl⟩
      rfl
    · split
      · refine ⟨_, ?_, .inl rfl⟩
        rfl
      · refine ⟨_, ?_, .inr rfl⟩
        rfl
  · refine ⟨_, ?_, .inr rfl⟩
    rfl

/-- `RowEndSD()` changes the Command Unit State and then ends or does not. -/
theorem rowEndSD_cases (c : Chip) :
    ∃ m : Mmc, m.CM = c.mmc.CM ∧ (rowEndSD c = endSD (c.setMmc m) ∨ rowEndSD c = c.setMmc m) := by
  unfold rowEndSD
  extract_lets m anx asx adx rowEnd ny sy dy
  split
  · split
    · refine ⟨_, ?_, .inl rfl⟩
      rfl
    · split
      · refine ⟨_, ?_, .inl rfl⟩
        rfl
      · split
        · refine ⟨_, ?_, .inl rfl⟩
          rfl
        · refine ⟨_, ?_, .inr rfl⟩
          rfl
  · refine ⟨_, ?_, .inr rfl⟩
    rfl

/-- `RowEndY()` changes the Command Unit State and then ends or does not. -/
theorem rowEndY_cases (c : Chip) :
    ∃ m : Mmc, m.CM = c.mmc.CM ∧ (rowEndY c = endSD (c.setMmc m) ∨ rowEndY c = c.setMmc m) := by
  unfold rowEndY
  extract_lets m adx ny sy dy
  split
  · split
    · refine ⟨_, ?_, .inl rfl⟩
      rfl
    · split
      · refine ⟨_, ?_, .inl rfl⟩
        rfl
      · split
        · refine ⟨_, ?_, .inl rfl⟩
          rfl
        · refine ⟨_, ?_, .inr rfl⟩
          rfl
  · refine ⟨_, ?_, .inr rfl⟩
    rfl

theorem progress_rowEndD (c : Chip) : Progress c (rowEndD c) := by
  obtain ⟨m, hm, h | h⟩ := rowEndD_cases c <;> rw [h]
  · exact progress_endD c m
  · exact progress_setMmc c hm

theorem progress_rowEndSD (c : Chip) : Progress c (rowEndSD c) := by
  obtain ⟨m, hm, h | h⟩ := rowEndSD_cases c <;> rw [h]
  · exact progress_endSD c m
  · exact progress_setMmc c hm

theorem progress_rowEndY (c : Chip) : Progress c (rowEndY c) := by
  obtain ⟨m, hm, h | h⟩ := rowEndY_cases c <;> rw [h]
  · exact progress_endSD c m
  · exact progress_setMmc c hm

/-! ### Steps and transfers -/

theorem going_writeAt (c : Chip) (p : Place) (b : Byte) : Going c (c.writeAt p b) :=
  ⟨by simp, by simp, by simp, by simp⟩

theorem going_psetAt (c : Chip) (f : Bool) (x y : Int) (col : Byte) (lo : Nibble) : Going c (psetAt c f x y col lo) := by
  rcases psetAt_eq c f x y col lo with h | ⟨b, h⟩ <;> rw [h]
  · exact ⟨rfl, rfl, rfl, rfl⟩
  · exact going_writeAt c _ b

/-- `StepSRCH()` ends with BD and the column set, or goes on one column further. -/
theorem stepSRCH_cases (c : Chip) :
    ∃ m : Mmc, m.CM = c.mmc.CM ∧ ((∃ st : Status, st.s0 = c.status.s0 ∧ st.fh = c.status.fh ∧
      stepSRCH c = endSRCH { c with mmc := m, status := st }) ∨ stepSRCH c = c.setMmc m) := by
  unfold stepSRCH
  extract_lets m hit asx
  split
  · exact ⟨c.mmc, rfl, .inl ⟨{ c.status with bd := true }, rfl, rfl, rfl⟩⟩
  · split
    · exact ⟨{ c.mmc with ASX := c.mmc.ASX + c.mmc.TX }, rfl, .inl ⟨{ c.status with bd := false }, rfl, rfl, rfl⟩⟩
    · refine ⟨_, ?_, .inr rfl⟩
      rfl

theorem progress_stepSRCH (c : Chip) : Progress c (stepSRCH c) := by
  obtain ⟨m, hm, ⟨st, h0, hf, h⟩ | h⟩ := stepSRCH_cases c <;> rw [h]
  · exact ⟨(EngineFrame.own c m c.engine st h0 hf).trans (frame_endSRCH _), .inl (stopped_finish _)⟩
  · exact progress_setMmc c hm

theorem progress_stepLINE (c : Chip) : Progress c (stepLINE c) := by
  have key : ∀ d : Chip, EngineFrame c d → Going c d → Progress c (d.setMmc (lineCounters c.mmc)) := fun d hf hg =>
    Progress.after hf hg (progress_setMmc d (hg.cm ▸ rfl))
  have hp := key _ (frame_psetAt c c.mmc.MXD c.mmc.DX c.mmc.DY c.mmc.CL c.mmc.LO)
    (going_psetAt c c.mmc.MXD c.mmc.DX c.mmc.DY c.mmc.CL c.mmc.LO)
  simp only [stepLINE]
  split_ifs
  · exact ⟨hp.1.trans (frame_endLINE _), .inl (stopped_finish _)⟩
  · exact hp

theorem progress_stepLMMV (c : Chip) : Progress c (stepLMMV c) :=
  Progress.after (frame_psetAt c _ _ _ _ _) (going_psetAt c _ _ _ _ _) (progress_rowEndD _)

theorem progress_stepLMMM (c : Chip) : Progress c (stepLMMM c) :=
  Progress.after (frame_psetAt c _ _ _ _ _) (going_psetAt c _ _ _ _ _) (progress_rowEndSD _)

theorem progress_stepHMMV (c : Chip) : Progress c (stepHMMV c) :=
  Progress.after (frame_writeAt c _ (pixelPlace_inside c _ _ _)) (going_writeAt c _ _) (progress_rowEndD _)

theorem progress_stepHMMM (c : Chip) : Progress c (stepHMMM c) :=
  Progress.after (frame_writeAt c _ (pixelPlace_inside c _ _ _)) (going_writeAt c _ _) (progress_rowEndSD _)

theorem progress_stepYMMM (c : Chip) : Progress c (stepYMMM c) :=
  Progress.after (frame_writeAt c _ (pixelPlace_inside c _ _ _)) (going_writeAt c _ _) (progress_rowEndY _)

/-- A step of any opcode is progress. -/
theorem progress_stepOp (op : Op) (c : Chip) : Progress c (stepOp op c) := by
  cases op
  · exact progress_stepSRCH c
  · exact progress_stepLINE c
  · exact progress_stepLMMV c
  · exact progress_stepLMMM c
  · exact ⟨EngineFrame.refl c, .inr ⟨rfl, rfl, rfl, rfl⟩⟩
  · exact ⟨EngineFrame.refl c, .inr ⟨rfl, rfl, rfl, rfl⟩⟩
  · exact progress_stepHMMV c
  · exact progress_stepHMMM c
  · exact progress_stepYMMM c
  · exact ⟨EngineFrame.refl c, .inr ⟨rfl, rfl, rfl, rfl⟩⟩

theorem frame_loadPixelLMCM (c : Chip) : EngineFrame c (loadPixelLMCM c) :=
  (frame_setR c _ (by decide)).trans (EngineFrame.own _ c.mmc c.engine _ rfl rfl)

theorem progress_loadPixelLMCM (c : Chip) (m : Mmc) (h : m.CM = c.mmc.CM) :
    Progress c (loadPixelLMCM (c.setMmc m)) :=
  ⟨(frame_setMmc c m).trans (frame_loadPixelLMCM _), .inr ⟨rfl, h, rfl, rfl⟩⟩

/-- `TransferLMCM()` changes the Command Unit State and then ends or loads the next pixel. -/
theorem transferLMCM_cases (c : Chip) :
    ∃ m : Mmc, m.CM = c.mmc.CM ∧
      (transferLMCM c = endLMCM (c.setMmc m) ∨ transferLMCM c = loadPixelLMCM (c.setMmc m)) := by
  unfold transferLMCM
  extract_lets m anx asx rowEnd ny sy
  split
  · split
    · refine ⟨_, ?_, .inl rfl⟩
      rfl
    · split
      · refine ⟨_, ?_, .inl rfl⟩
        rfl
      · refine ⟨_, ?_, .inr rfl⟩
        rfl
  · refine ⟨_, ?_, .inr rfl⟩
    rfl

theorem progress_transferLMCM (c : Chip) : Progress c (transferLMCM c) := by
  obtain ⟨m, hm, h | h⟩ := transferLMCM_cases c <;> rw [h]
  · exact progress_endLMCM c m
  · exact progress_loadPixelLMCM c m hm

theorem progress_transferLMMC (c : Chip) : Progress c (transferLMMC c) :=
  Progress.after (frame_psetAt c _ _ _ _ _) (going_psetAt c _ _ _ _ _) (progress_rowEndD _)

theorem progress_transferHMMC (c : Chip) : Progress c (transferHMMC c) :=
  Progress.after (frame_writeAt c _ (pixelPlace_inside c _ _ _)) (going_writeAt c _ _) (progress_rowEndD _)

/-! ### What a step writes -/

/-- The engine's ends and row ends leave every byte of memory. -/
theorem memory_endD (c : Chip) : (endD c).vram = c.vram ∧ (endD c).exp = c.exp := by
  simp [endD]

theorem memory_endSD (c : Chip) : (endSD c).vram = c.vram ∧ (endSD c).exp = c.exp := by
  simp [endSD]

theorem memory_rowEndD (c : Chip) : (rowEndD c).vram = c.vram ∧ (rowEndD c).exp = c.exp := by
  obtain ⟨m, -, h | h⟩ := rowEndD_cases c
  · rw [h]
    exact memory_endD (c.setMmc m)
  · rw [h]
    exact ⟨rfl, rfl⟩

theorem memory_rowEndSD (c : Chip) : (rowEndSD c).vram = c.vram ∧ (rowEndSD c).exp = c.exp := by
  obtain ⟨m, -, h | h⟩ := rowEndSD_cases c
  · rw [h]
    exact memory_endSD (c.setMmc m)
  · rw [h]
    exact ⟨rfl, rfl⟩

theorem memory_rowEndY (c : Chip) : (rowEndY c).vram = c.vram ∧ (rowEndY c).exp = c.exp := by
  obtain ⟨m, -, h | h⟩ := rowEndY_cases c
  · rw [h]
    exact memory_endSD (c.setMmc m)
  · rw [h]
    exact ⟨rfl, rfl⟩

@[simp] theorem readAt_rowEndD (c : Chip) (p : Place) : (rowEndD c).readAt p = c.readAt p :=
  readAt_congr (memory_rowEndD c).1 (memory_rowEndD c).2 p

@[simp] theorem readAt_rowEndSD (c : Chip) (p : Place) : (rowEndSD c).readAt p = c.readAt p :=
  readAt_congr (memory_rowEndSD c).1 (memory_rowEndSD c).2 p

@[simp] theorem readAt_rowEndY (c : Chip) (p : Place) : (rowEndY c).readAt p = c.readAt p :=
  readAt_congr (memory_rowEndY c).1 (memory_rowEndY c).2 p

/-! ### Starts -/

/-- The start of a command whose opcode fits its code, in a command mode, leaves a good chip but for TR. -/
theorem frame_enter (cm lo : Nibble) (op : Op) (c : Chip) : EngineFrame c (enter cm lo op c) := by
  have h : EngineFrame c (discard c) := by
    unfold discard
    split_ifs
    · exact EngineFrame.refl c
    · exact frame_finish c
  exact h.trans (EngineFrame.own _ _ _ _ rfl rfl)

/-- TR right after the start: it was 0, or the command it belonged to was discarded. -/
theorem enter_tr {c : Chip} (h : c.ok .H) (cm lo : Nibble) (op : Op) : (enter cm lo op c).status.tr = false := by
  show (discard c).status.tr = false
  unfold discard
  split_ifs with he
  · have h5 := h.2.2.2.2.1
    rw [he] at h5
    exact h5
  · rfl

/-- A chip of variant H whose engine runs an opcode that fits its code, in a command mode, is good if CE and TR fit. -/
theorem running_ok {c d : Chip} {op : Op} (hm : c.memoryOk .H) (hb : c.bankOk .H) (h : EngineFrame c d)
    (hmode : commandMode (modeOf .H c) = true) (he : d.engine = .running op) (hcm : opOf d.mmc.CM = some op)
    (hce : d.status.ce = true) (htr : d.status.tr = hostDriven op) : d.ok .H := by
  refine (ok_iff _ _).mpr ⟨h.memory hm, h.bank hb, ?_, ?_, ?_⟩
  · rw [he, hce]
    rfl
  · rw [he, htr]
    rfl
  · unfold engineFits
    rw [he]
    simp [hcm, h.mode, hmode]

/-- The start of a budgeted command leaves a good chip. -/
theorem enter_ok {c : Chip} (h : c.ok .H) (hmode : commandMode (modeOf .H c) = true) {cm : Nibble} (lo : Nibble) {op : Op}
    (hcm : opOf cm = some op) (hop : hostDriven op = false) : (enter cm lo op c).ok .H := by
  obtain ⟨hm, hb, -⟩ := (ok_iff _ _).mp h
  exact running_ok hm hb (frame_enter cm lo op c) hmode rfl hcm rfl ((enter_tr h cm lo op).trans hop.symm)

/-- The first transfer of a host-driven command that writes, then TR if it still runs, leaves a good chip. -/
theorem firstTransfer_ok {c d : Chip} (h : c.ok .H) (hmode : commandMode (modeOf .H c) = true) {cm lo : Nibble} {op : Op}
    (hcm : opOf cm = some op) (hop : hostDriven op = true) (k : Progress (enter cm lo op c) d) :
    (readyIfRunning d).ok .H := by
  obtain ⟨hm, hb, -⟩ := (ok_iff _ _).mp h
  have hf := (frame_enter cm lo op c).trans k.1
  unfold readyIfRunning
  rcases k.2 with hs | hg
  · rw [if_pos hs.engine]
    exact stopped_ok hm hb hf hs
  · have he : d.engine = .running op := hg.engine
    rw [if_neg (by rw [he]; exact Engine.noConfusion)]
    exact running_ok hm hb (hf.trans (EngineFrame.own d d.mmc d.engine _ rfl rfl)) hmode he
      (by rw [show ({ d with status := { d.status with tr := true } } : Chip).mmc.CM = cm from hg.cm]; exact hcm)
      hg.ce hop.symm

theorem frame_readyIfRunning (c : Chip) : EngineFrame c (readyIfRunning c) := by
  unfold readyIfRunning
  split_ifs
  · exact EngineFrame.refl c
  · exact EngineFrame.own c c.mmc c.engine _ rfl rfl

theorem frame_issuePOINT (lo : Nibble) (c : Chip) : EngineFrame c (issuePOINT lo c) := by
  unfold issuePOINT
  extract_lets c' p
  have h1 : EngineFrame c c' := EngineFrame.own c (loadParams c 4 lo) c.engine c.status rfl rfl
  have h2 : EngineFrame (c'.setR 44 p) { c'.setR 44 p with status := { c'.status with s7 := p } } :=
    EngineFrame.own (c'.setR 44 p) c'.mmc c'.engine { c'.status with s7 := p } rfl rfl
  exact ((h1.trans (frame_setR c' p (by decide))).trans h2).trans (frame_finish _)

theorem frame_issuePSET (lo : Nibble) (c : Chip) : EngineFrame c (issuePSET lo c) :=
  ((EngineFrame.own c _ c.engine c.status rfl rfl).trans (frame_psetAt _ _ _ _ _ _)).trans (frame_finish _)

theorem frame_issueLMCM (lo : Nibble) (c : Chip) : EngineFrame c (issueLMCM lo c) :=
  ((frame_enter 10 lo .lmcm c).trans (frame_loadPixelLMCM _)).trans (EngineFrame.own _ _ _ _ rfl rfl)

/-- Issuing a command is engine work. -/
theorem frame_issue (b : Byte) (c : Chip) : EngineFrame c (issue b c) := by
  unfold issue
  split_ifs
  · exact EngineFrame.refl c
  · split
    · exact frame_finish c
    · exact EngineFrame.refl c
    · exact EngineFrame.refl c
    · exact EngineFrame.refl c
    · exact frame_issuePOINT _ c
    · exact frame_issuePSET _ c
    · exact frame_enter _ _ _ c
    · exact frame_enter _ _ _ c
    · exact frame_enter _ _ _ c
    · exact frame_enter _ _ _ c
    · exact frame_issueLMCM _ c
    · exact ((frame_enter _ _ _ c).trans (progress_transferLMMC _).1).trans (frame_readyIfRunning _)
    · exact frame_enter _ _ _ c
    · exact frame_enter _ _ _ c
    · exact frame_enter _ _ _ c
    · exact ((frame_enter _ _ _ c).trans (progress_transferHMMC _).1).trans (frame_readyIfRunning _)

/-- Issuing a command leaves a good chip. -/
theorem issue_ok {c : Chip} (h : c.ok .H) (b : Byte) : (issue b c).ok .H := by
  obtain ⟨hm, hb, -⟩ := (ok_iff _ _).mp h
  unfold issue
  split_ifs with hmode
  · exact h
  · rw [Bool.not_eq_false] at hmode
    split
    · exact stopped_ok hm hb (frame_finish c) (stopped_finish c)
    · exact h
    · exact h
    · exact h
    · exact stopped_ok hm hb (frame_issuePOINT _ c) (stopped_finish _)
    · exact stopped_ok hm hb (frame_issuePSET _ c) (stopped_finish _)
    · exact enter_ok h hmode _ rfl rfl
    · exact enter_ok h hmode _ rfl rfl
    · exact enter_ok h hmode _ rfl rfl
    · exact enter_ok h hmode _ rfl rfl
    · exact running_ok hm hb (frame_issueLMCM _ c) hmode rfl rfl rfl rfl
    · exact firstTransfer_ok h hmode rfl rfl (progress_transferLMMC _)
    · exact enter_ok h hmode _ rfl rfl
    · exact enter_ok h hmode _ rfl rfl
    · exact enter_ok h hmode _ rfl rfl
    · exact firstTransfer_ok h hmode rfl rfl (progress_transferHMMC _)

/-! ### The hand-shakes -/

theorem progress_writeR44 (c : Chip) : Progress c (writeR44 c) := by
  unfold writeR44
  split
  · exact progress_transferLMMC c
  · exact progress_transferHMMC c
  all_goals exact ⟨EngineFrame.refl c, .inr ⟨rfl, rfl, rfl, rfl⟩⟩

theorem progress_afterReadS7 (c : Chip) : Progress c (afterReadS7 c) := by
  unfold afterReadS7
  split_ifs
  · exact progress_transferLMCM c
  · exact ⟨EngineFrame.refl c, .inr ⟨rfl, rfl, rfl, rfl⟩⟩

theorem writeR44_ok {c : Chip} (h : c.ok .H) : (writeR44 c).ok .H := by
  cases he : c.engine with
  | idle =>
    unfold writeR44
    rw [he]
    exact h
  | running op => exact progress_ok h he (progress_writeR44 c)

theorem afterReadS7_ok {c : Chip} (h : c.ok .H) : (afterReadS7 c).ok .H := by
  cases he : c.engine with
  | idle =>
    unfold afterReadS7
    rw [if_neg (by simp [he])]
    exact h
  | running op => exact progress_ok h he (progress_afterReadS7 c)

/-! ### The budget -/

/-- The chip with another budget. -/
def Chip.setBudget (c : Chip) (b : Int) : Chip := { c with budget := b }

/-- The budget is no part of what makes a chip good. -/
theorem setBudget_ok {v : Variant} {c : Chip} (h : c.ok v) (b : Int) : (c.setBudget b).ok v :=
  ok_congr h rfl rfl rfl rfl rfl rfl rfl

theorem psetAt_setBudget (c : Chip) (f : Bool) (x y : Int) (col : Byte) (lo : Nibble) (b : Int) :
    psetAt (c.setBudget b) f x y col lo = (psetAt c f x y col lo).setBudget b := by
  have hp : pixelPlace (c.setBudget b) f x y = pixelPlace c f x y := rfl
  have hr : ∀ p, (c.setBudget b).readAt p = c.readAt p := fun p => readAt_congr rfl rfl p
  have hm : modeOf .H (c.setBudget b) = modeOf .H c := rfl
  unfold psetAt
  rw [hp, hr, hm]
  split
  · cases pixelPlace c f x y <;> rfl
  · rfl

theorem writeAt_setBudget (c : Chip) (p : Place) (x : Byte) (b : Int) :
    (c.setBudget b).writeAt p x = (c.writeAt p x).setBudget b := by
  cases p <;> rfl

theorem readAt_setBudget (c : Chip) (p : Place) (b : Int) : (c.setBudget b).readAt p = c.readAt p :=
  readAt_congr rfl rfl p

@[simp] theorem setBudget_mmc (c : Chip) (b : Int) : (c.setBudget b).mmc = c.mmc := rfl

theorem setMmc_setBudget (c : Chip) (m : Mmc) (b : Int) : (c.setBudget b).setMmc m = (c.setMmc m).setBudget b := rfl

theorem setR_setBudget (c : Chip) (n : Nat) (x : Byte) (b : Int) :
    (c.setBudget b).setR n x = (c.setR n x).setBudget b := rfl

theorem writeBack_setBudget (r : Nat) (x : Int) (c : Chip) (b : Int) :
    writeBack r x (c.setBudget b) = (writeBack r x c).setBudget b := by
  simp only [writeBack, setR_setBudget]

theorem finish_setBudget (c : Chip) (b : Int) : finish (c.setBudget b) = (finish c).setBudget b := rfl

theorem endD_setBudget (c : Chip) (b : Int) : endD (c.setBudget b) = (endD c).setBudget b := by
  simp only [endD, setBudget_mmc, writeBack_setBudget, finish_setBudget]
  rfl

theorem endSD_setBudget (c : Chip) (b : Int) : endSD (c.setBudget b) = (endSD c).setBudget b := by
  simp only [endSD, setBudget_mmc, writeBack_setBudget, finish_setBudget]
  rfl

theorem endLINE_setBudget (c : Chip) (b : Int) : endLINE (c.setBudget b) = (endLINE c).setBudget b := by
  simp only [endLINE, setBudget_mmc, writeBack_setBudget, finish_setBudget]

theorem rowEndD_setBudget (c : Chip) (b : Int) : rowEndD (c.setBudget b) = (rowEndD c).setBudget b := by
  simp only [rowEndD, setBudget_mmc, setMmc_setBudget, endD_setBudget, apply_ite (fun d : Chip => d.setBudget b)]
  rfl

theorem rowEndSD_setBudget (c : Chip) (b : Int) : rowEndSD (c.setBudget b) = (rowEndSD c).setBudget b := by
  simp only [rowEndSD, setBudget_mmc, setMmc_setBudget, endSD_setBudget, apply_ite (fun d : Chip => d.setBudget b)]
  rfl

theorem rowEndY_setBudget (c : Chip) (b : Int) : rowEndY (c.setBudget b) = (rowEndY c).setBudget b := by
  simp only [rowEndY, setBudget_mmc, setMmc_setBudget, endSD_setBudget, apply_ite (fun d : Chip => d.setBudget b)]

/-- A step neither reads nor writes the budget. -/
theorem stepOp_setBudget (op : Op) (c : Chip) (b : Int) : stepOp op (c.setBudget b) = (stepOp op c).setBudget b := by
  have hm : (c.setBudget b).mmc = c.mmc := rfl
  have hpt : ∀ f x y, pointAt (c.setBudget b) f x y = pointAt c f x y := fun f x y => pointAt_congr rfl rfl rfl f x y
  have hpl : ∀ f x y, pixelPlace (c.setBudget b) f x y = pixelPlace c f x y := fun _ _ _ => rfl
  cases op
  · simp only [stepOp, stepSRCH, hm, hpt]
    split_ifs <;> rfl
  · simp only [stepOp, stepLINE, hm, psetAt_setBudget, setMmc_setBudget, endLINE_setBudget,
      apply_ite (fun d : Chip => d.setBudget b)]
  · simp only [stepOp, stepLMMV, hm, psetAt_setBudget, rowEndD_setBudget]
  · simp only [stepOp, stepLMMM, hm, hpt, psetAt_setBudget, rowEndSD_setBudget]
  · rfl
  · rfl
  · simp only [stepOp, stepHMMV, hm, hpl, writeAt_setBudget, rowEndD_setBudget]
  · simp only [stepOp, stepHMMM, hm, hpl, readAt_setBudget, writeAt_setBudget, rowEndSD_setBudget]
  · simp only [stepOp, stepYMMM, hm, hpl, readAt_setBudget, writeAt_setBudget, rowEndY_setBudget]
  · rfl

/-- The budgeted loop leaves a good chip. -/
theorem budgetLoop_ok (op : Op) (cost fuel : Nat) {c : Chip} (h : c.ok .H) (he : c.engine = .running op) :
    (budgetLoop op cost fuel c).ok .H := by
  induction fuel generalizing c with
  | zero => exact h
  | succ fuel ih =>
    have h1 : ({ c with budget := c.budget - cost } : Chip).ok .H := setBudget_ok h _
    have k := progress_stepOp op { c with budget := c.budget - cost }
    have h2 := progress_ok h1 he k
    simp only [budgetLoop]
    split_ifs with ha hb
    · exact h1
    · exact h2
    · rcases k.2 with hs | hg
      · exact absurd hs.engine hb
      · exact ih h2 (hg.engine.trans he)

/-- `update_command()` leaves a good chip. -/
theorem updateCommand_ok {cfg : Config} {c : Chip} (h : c.ok .H) : (updateCommand cfg c).ok .H := by
  have h0 : ({ c with budget := cfg.budget } : Chip).ok .H := setBudget_ok h _
  unfold updateCommand
  simp only
  split
  · exact h0
  · rename_i op he
    split
    · exact h0
    · exact budgetLoop_ok op _ _ h0 he

end Sys2Proof.Machine
end

