-- ==== Sys2Proof/Laws/PerInstr.lean ====
section
/-! SUPPORT. Laws/PerInstr.lean: for each instruction, the row its own call decodes to (the family RoundTrip of LAWS.json). -/

namespace Sys2Proof.Laws.RoundTrip

open Sys2Proof (Instr Byte Nibble decodeRow encode)

/-- An instruction of a variant, in a context that selects its row, is the row its own call decodes to. -/
def Statement (i : Instr) : Prop :=
  ∀ (v : Variant) (ctx : Ctx), i.inVariant v = true → i.fits v ctx = true → decodeRow v ctx (encode i) = i

/-- The row of a register-write byte. -/
theorem second_wreg : ∀ (s : BitVec 1) (r : BitVec 6), decodeSecond (0b1#1 ++ s ++ r) = .waWreg s r := by decide

/-- The row of a write-setup byte. -/
theorem second_setwr : ∀ a : BitVec 6, decodeSecond (0b01#2 ++ a) = .waSetwr a := by decide

/-- The row of a read-setup byte. -/
theorem second_setrd : ∀ a : BitVec 6, decodeSecond (0b00#2 ++ a) = .waSetrd a := by decide

theorem waFirst (p : Byte) : Statement (.waFirst p) := by
  rintro v ⟨ph, d, s⟩ - hf
  cases eq_of_beq hf
  rfl

theorem waSetrd (a : BitVec 6) : Statement (.waSetrd a) := by
  rintro v ⟨ph, d, x⟩ - hf
  cases eq_of_beq hf
  exact second_setrd a

theorem waSetwr (a : BitVec 6) : Statement (.waSetwr a) := by
  rintro v ⟨ph, d, x⟩ - hf
  cases eq_of_beq hf
  exact second_setwr a

theorem waWreg (s : BitVec 1) (r : BitVec 6) : Statement (.waWreg s r) := by
  rintro v ⟨ph, d, x⟩ - hf
  cases eq_of_beq hf
  exact second_wreg s r

theorem wd (d : Byte) : Statement (.wd d) := by
  rintro v ⟨ph, dpm, s⟩ - hf
  cases v <;> cases dpm <;> first
    | rfl
    | exact Bool.noConfusion hf

theorem wdPaletteE (d : Byte) : Statement (.wdPaletteE d) := by
  rintro v ⟨ph, dpm, s⟩ hv hf
  cases v <;> cases dpm <;> first
    | rfl
    | exact Bool.noConfusion hv
    | exact Bool.noConfusion hf

theorem wdPaletteH (d : Byte) : Statement (.wdPaletteH d) := by
  rintro v ⟨ph, dpm, s⟩ hv hf
  cases v <;> cases dpm <;> first
    | rfl
    | exact Bool.noConfusion hv
    | exact Bool.noConfusion hf

theorem rd : Statement .rd := fun _ _ _ _ => rfl

theorem rsS0 : Statement .rsS0 := by
  rintro v ⟨ph, dpm, s⟩ hv hf
  have key : ∀ (v : Variant) (s : Nibble), Instr.inVariant v .rsS0 = true →
      Instr.fits v ⟨.first, false, s⟩ .rsS0 = true → decodeStatus v s = .rsS0 := by
    intro v
    cases v <;> decide
  exact key v s hv hf

theorem rsS1H : Statement .rsS1H := by
  rintro v ⟨ph, dpm, s⟩ hv hf
  have key : ∀ (v : Variant) (s : Nibble), Instr.inVariant v .rsS1H = true →
      Instr.fits v ⟨.first, false, s⟩ .rsS1H = true → decodeStatus v s = .rsS1H := by
    intro v
    cases v <;> decide
  exact key v s hv hf

theorem rsS2H : Statement .rsS2H := by
  rintro v ⟨ph, dpm, s⟩ hv hf
  have key : ∀ (v : Variant) (s : Nibble), Instr.inVariant v .rsS2H = true →
      Instr.fits v ⟨.first, false, s⟩ .rsS2H = true → decodeStatus v s = .rsS2H := by
    intro v
    cases v <;> decide
  exact key v s hv hf

theorem rsS7H : Statement .rsS7H := by
  rintro v ⟨ph, dpm, s⟩ hv hf
  have key : ∀ (v : Variant) (s : Nibble), Instr.inVariant v .rsS7H = true →
      Instr.fits v ⟨.first, false, s⟩ .rsS7H = true → decodeStatus v s = .rsS7H := by
    intro v
    cases v <;> decide
  exact key v s hv hf

theorem rsOtherH : Statement .rsOtherH := by
  rintro v ⟨ph, dpm, s⟩ hv hf
  have key : ∀ (v : Variant) (s : Nibble), Instr.inVariant v .rsOtherH = true →
      Instr.fits v ⟨.first, false, s⟩ .rsOtherH = true → decodeStatus v s = .rsOtherH := by
    intro v
    cases v <;> decide
  exact key v s hv hf

theorem rsE : Statement .rsE := by
  rintro v ⟨ph, dpm, s⟩ hv hf
  have key : ∀ (v : Variant) (s : Nibble), Instr.inVariant v .rsE = true →
      Instr.fits v ⟨.first, false, s⟩ .rsE = true → decodeStatus v s = .rsE := by
    intro v
    cases v <;> decide
  exact key v s hv hf

theorem wp (d : Byte) : Statement (.wp d) := fun _ _ _ _ => rfl

theorem wi (d : Byte) : Statement (.wi d) := fun _ _ _ _ => rfl

theorem render (l : Nat) : Statement (.render l) := fun _ _ _ _ => rfl

theorem update : Statement .update := fun _ _ _ _ => rfl

theorem reset : Statement .reset := fun _ _ _ _ => rfl

theorem snapshot : Statement .snapshot := fun _ _ _ _ => rfl

theorem restore (c : Machine.Chip) : Statement (.restore c) := fun _ _ _ _ => rfl

theorem debugReadWrite (a : Nat) (w : Option Byte) : Statement (.debugReadWrite a w) := fun _ _ _ _ => rfl

theorem debugDump : Statement .debugDump := fun _ _ _ _ => rfl

theorem stop (x : Nibble) : Statement (.stop x) :=
  have key : ∀ x : Nibble, decodeCommand (0b0000#4 ++ x) = .stop x := by decide
  fun _ _ _ _ => key x

theorem undefined1 (x : Nibble) : Statement (.undefined1 x) :=
  have key : ∀ x : Nibble, decodeCommand (0b0001#4 ++ x) = .undefined1 x := by decide
  fun _ _ _ _ => key x

theorem undefined2 (x : Nibble) : Statement (.undefined2 x) :=
  have key : ∀ x : Nibble, decodeCommand (0b0010#4 ++ x) = .undefined2 x := by decide
  fun _ _ _ _ => key x

theorem undefined3 (x : Nibble) : Statement (.undefined3 x) :=
  have key : ∀ x : Nibble, decodeCommand (0b0011#4 ++ x) = .undefined3 x := by decide
  fun _ _ _ _ => key x

theorem point (x : Nibble) : Statement (.point x) :=
  have key : ∀ x : Nibble, decodeCommand (0b0100#4 ++ x) = .point x := by decide
  fun _ _ _ _ => key x

theorem pset (l : Nibble) : Statement (.pset l) :=
  have key : ∀ l : Nibble, decodeCommand (0b0101#4 ++ l) = .pset l := by decide
  fun _ _ _ _ => key l

theorem srch (x : Nibble) : Statement (.srch x) :=
  have key : ∀ x : Nibble, decodeCommand (0b0110#4 ++ x) = .srch x := by decide
  fun _ _ _ _ => key x

theorem line (l : Nibble) : Statement (.line l) :=
  have key : ∀ l : Nibble, decodeCommand (0b0111#4 ++ l) = .line l := by decide
  fun _ _ _ _ => key l

theorem lmmv (l : Nibble) : Statement (.lmmv l) :=
  have key : ∀ l : Nibble, decodeCommand (0b1000#4 ++ l) = .lmmv l := by decide
  fun _ _ _ _ => key l

theorem lmmm (l : Nibble) : Statement (.lmmm l) :=
  have key : ∀ l : Nibble, decodeCommand (0b1001#4 ++ l) = .lmmm l := by decide
  fun _ _ _ _ => key l

theorem lmcm (x : Nibble) : Statement (.lmcm x) :=
  have key : ∀ x : Nibble, decodeCommand (0b1010#4 ++ x) = .lmcm x := by decide
  fun _ _ _ _ => key x

theorem lmmc (l : Nibble) : Statement (.lmmc l) :=
  have key : ∀ l : Nibble, decodeCommand (0b1011#4 ++ l) = .lmmc l := by decide
  fun _ _ _ _ => key l

theorem hmmv (x : Nibble) : Statement (.hmmv x) :=
  have key : ∀ x : Nibble, decodeCommand (0b1100#4 ++ x) = .hmmv x := by decide
  fun _ _ _ _ => key x

theorem hmmm (x : Nibble) : Statement (.hmmm x) :=
  have key : ∀ x : Nibble, decodeCommand (0b1101#4 ++ x) = .hmmm x := by decide
  fun _ _ _ _ => key x

theorem ymmm (x : Nibble) : Statement (.ymmm x) :=
  have key : ∀ x : Nibble, decodeCommand (0b1110#4 ++ x) = .ymmm x := by decide
  fun _ _ _ _ => key x

theorem hmmc (x : Nibble) : Statement (.hmmc x) :=
  have key : ∀ x : Nibble, decodeCommand (0b1111#4 ++ x) = .hmmc x := by decide
  fun _ _ _ _ => key x

theorem loImp (cm : Nibble) : Statement (.loImp cm) :=
  have key : ∀ cm : Nibble, decodeLogical (cm ++ 0b0000#4) = .loImp cm := by decide
  fun _ _ _ _ => key cm

theorem loAnd (cm : Nibble) : Statement (.loAnd cm) :=
  have key : ∀ cm : Nibble, decodeLogical (cm ++ 0b0001#4) = .loAnd cm := by decide
  fun _ _ _ _ => key cm

theorem loOr (cm : Nibble) : Statement (.loOr cm) :=
  have key : ∀ cm : Nibble, decodeLogical (cm ++ 0b0010#4) = .loOr cm := by decide
  fun _ _ _ _ => key cm

theorem loEor (cm : Nibble) : Statement (.loEor cm) :=
  have key : ∀ cm : Nibble, decodeLogical (cm ++ 0b0011#4) = .loEor cm := by decide
  fun _ _ _ _ => key cm

theorem loNot (cm : Nibble) : Statement (.loNot cm) :=
  have key : ∀ cm : Nibble, decodeLogical (cm ++ 0b0100#4) = .loNot cm := by decide
  fun _ _ _ _ => key cm

theorem loTimp (cm : Nibble) : Statement (.loTimp cm) :=
  have key : ∀ cm : Nibble, decodeLogical (cm ++ 0b1000#4) = .loTimp cm := by decide
  fun _ _ _ _ => key cm

theorem loTand (cm : Nibble) : Statement (.loTand cm) :=
  have key : ∀ cm : Nibble, decodeLogical (cm ++ 0b1001#4) = .loTand cm := by decide
  fun _ _ _ _ => key cm

theorem loTor (cm : Nibble) : Statement (.loTor cm) :=
  have key : ∀ cm : Nibble, decodeLogical (cm ++ 0b1010#4) = .loTor cm := by decide
  fun _ _ _ _ => key cm

theorem loTeor (cm : Nibble) : Statement (.loTeor cm) :=
  have key : ∀ cm : Nibble, decodeLogical (cm ++ 0b1011#4) = .loTeor cm := by decide
  fun _ _ _ _ => key cm

theorem loTnot (cm : Nibble) : Statement (.loTnot cm) :=
  have key : ∀ cm : Nibble, decodeLogical (cm ++ 0b1100#4) = .loTnot cm := by decide
  fun _ _ _ _ => key cm

theorem loUndefined5 (cm : Nibble) : Statement (.loUndefined5 cm) :=
  have key : ∀ cm : Nibble, decodeLogical (cm ++ 0b0101#4) = .loUndefined5 cm := by decide
  fun _ _ _ _ => key cm

theorem loUndefined6 (cm : Nibble) : Statement (.loUndefined6 cm) :=
  have key : ∀ cm : Nibble, decodeLogical (cm ++ 0b0110#4) = .loUndefined6 cm := by decide
  fun _ _ _ _ => key cm

theorem loUndefined7 (cm : Nibble) : Statement (.loUndefined7 cm) :=
  have key : ∀ cm : Nibble, decodeLogical (cm ++ 0b0111#4) = .loUndefined7 cm := by decide
  fun _ _ _ _ => key cm

theorem loUndefined13 (cm : Nibble) : Statement (.loUndefined13 cm) :=
  have key : ∀ cm : Nibble, decodeLogical (cm ++ 0b1101#4) = .loUndefined13 cm := by decide
  fun _ _ _ _ => key cm

theorem loUndefined14 (cm : Nibble) : Statement (.loUndefined14 cm) :=
  have key : ∀ cm : Nibble, decodeLogical (cm ++ 0b1110#4) = .loUndefined14 cm := by decide
  fun _ _ _ _ => key cm

theorem loUndefined15 (cm : Nibble) : Statement (.loUndefined15 cm) :=
  have key : ∀ cm : Nibble, decodeLogical (cm ++ 0b1111#4) = .loUndefined15 cm := by decide
  fun _ _ _ _ => key cm

end Sys2Proof.Laws.RoundTrip
end

