-- ==== Sys2Proof/Laws/Registers.lean ====
section
/-! SUPPORT. Laws/Registers.lean: what a register write can change, and that it keeps a chip good. -/

namespace Sys2Proof.Machine

/-- `d` comes from `c` by a register write: the port side, the prefetch, the palettes, the interrupt output, the frame
state, the budget, S#0 and FH are the same. -/
structure RegisterFrame (c d : Chip) : Prop where
  cursor : d.cursor = c.cursor
  phase : d.phase = c.phase
  pending : d.pending = c.pending
  prefetch : d.prefetch = c.prefetch
  intLine : d.intLine = c.intLine
  paletteE : d.paletteE = c.paletteE
  paletteH : d.paletteH = c.paletteH
  palPending : d.palPending = c.palPending
  budget : d.budget = c.budget
  collisionReported : d.collisionReported = c.collisionReported
  s0 : d.status.s0 = c.status.s0
  fh : d.status.fh = c.status.fh

/-- Engine work is within what a register write may change. -/
theorem EngineFrame.register {c d : Chip} (h : EngineFrame c d) : RegisterFrame c d :=
  ⟨h.cursor, h.phase, h.pending, h.prefetch, h.intLine, h.paletteE, h.paletteH, h.palPending, h.budget,
    h.collisionReported, h.s0, h.fh⟩

theorem RegisterFrame.refl (c : Chip) : RegisterFrame c c := (EngineFrame.refl c).register

theorem RegisterFrame.trans {c d e : Chip} (h : RegisterFrame c d) (k : RegisterFrame d e) : RegisterFrame c e :=
  ⟨k.cursor.trans h.cursor, k.phase.trans h.phase, k.pending.trans h.pending, k.prefetch.trans h.prefetch,
    k.intLine.trans h.intLine, k.paletteE.trans h.paletteE, k.paletteH.trans h.paletteH, k.palPending.trans h.palPending,
    k.budget.trans h.budget, k.collisionReported.trans h.collisionReported, k.s0.trans h.s0, k.fh.trans h.fh⟩

/-- A store without side effect. -/
theorem registerFrame_setR (c : Chip) (n : Nat) (b : Byte) : RegisterFrame c (c.setR n b) :=
  ⟨rfl, rfl, rfl, rfl, rfl, rfl, rfl, rfl, rfl, rfl, rfl, rfl⟩

/-! ### Variant B -/

theorem registerFrame_regWriteB (c : Chip) (n : Nat) (b : Byte) : RegisterFrame c (regWriteB c n b) := by
  unfold regWriteB
  split_ifs
  · exact RegisterFrame.refl c
  · exact registerFrame_setR c n b

theorem regWriteB_ok {c : Chip} (h : c.ok .B) (n : Nat) (b : Byte) : (regWriteB c n b).ok .B := by
  unfold regWriteB
  split_ifs with hn
  · exact h
  · obtain ⟨hm, hb, h4, h5, h6⟩ := (ok_iff _ _).mp h
    refine (ok_iff _ _).mpr ⟨hm, setR_bankOk hb (by omega) b, h4, h5, ?_⟩
    unfold engineFits at h6 ⊢
    rw [setR_engine, idle_of_ok h (by decide)]
    rw [idle_of_ok h (by decide)] at h6
    exact h6

/-! ### Variant E -/

/-- The lock filter answers a register of the bank for a register of the bank. -/
theorem lockTarget_lt (c : Chip) {n : Nat} (h : n < 64) : lockTarget c n < 64 := by
  unfold lockTarget
  split_ifs <;> omega

theorem registerFrame_regWriteE (cfg : Config) (c : Chip) (n : Nat) (b : Byte) :
    RegisterFrame c (regWriteE cfg c n b) := by
  unfold regWriteE sideEffectE
  extract_lets k c1
  split_ifs <;> exact ⟨rfl, rfl, rfl, rfl, rfl, rfl, rfl, rfl, rfl, rfl, rfl, rfl⟩

/-- A register write of variant E changes the registers and the lock only. -/
theorem regWriteE_eq (cfg : Config) (c : Chip) (n : Nat) (b : Byte) :
    ∃ r : Vector Byte 64, ∃ l : Lock, regWriteE cfg c n b = { c with reg := r, lock := l } := by
  unfold regWriteE sideEffectE bankReset Chip.setR
  extract_lets k c1
  split_ifs
  · exact ⟨_, _, rfl⟩
  · exact ⟨_, _, rfl⟩
  · exact ⟨_, _, rfl⟩

theorem regWriteE_ok {c : Chip} (h : c.ok .E) (cfg : Config) (n : Nat) (b : Byte) : (regWriteE cfg c n b).ok .E := by
  obtain ⟨r, l, he⟩ := regWriteE_eq cfg c n b
  obtain ⟨hm, hb, h4, h5, h6⟩ := (ok_iff _ _).mp h
  rw [he]
  refine (ok_iff _ _).mpr ⟨hm, fun m hm => absurd m.isLt (by show ¬ m.val < 64; exact Nat.not_lt.mpr hm), h4, h5, ?_⟩
  have hi := idle_of_ok h (by decide)
  unfold engineFits at h6 ⊢
  rw [hi] at h6
  simp only [hi]
  exact h6

/-! ### Variant H -/

theorem frame_sideEffectH (c : Chip) (n : Nat) (b : Byte) : RegisterFrame c (sideEffectH c n b) := by
  unfold sideEffectH
  split_ifs
  · exact ⟨rfl, rfl, rfl, rfl, rfl, rfl, rfl, rfl, rfl, rfl, rfl, rfl⟩
  · exact (progress_writeR44 c).1.register
  · exact (frame_issue b c).register
  · exact RegisterFrame.refl c

theorem registerFrame_regWriteH (c : Chip) (n : Nat) (b : Byte) : RegisterFrame c (regWriteH c n b) := by
  unfold regWriteH
  extract_lets c1
  split_ifs
  · exact RegisterFrame.refl c
  · exact ((registerFrame_setR c n b).trans (frame_sideEffectH _ n b)).trans (frame_finish _).register
  · exact (registerFrame_setR c n b).trans (frame_sideEffectH _ n b)

/-- The mode after the side effects of a write. -/
theorem modeOf_sideEffectH (c : Chip) (n : Nat) (b : Byte) : modeOf .H (sideEffectH c n b) = modeOf .H c := by
  unfold sideEffectH
  split_ifs
  · rfl
  · exact (progress_writeR44 c).1.mode
  · exact (frame_issue b c).mode
  · rfl

/-- A write of a register that holds no mode bit aborts nothing. -/
theorem regWriteH_eq (c : Chip) {n : Nat} (h2 : 2 ≤ n) (hn : n < 48) (b : Byte) :
    regWriteH c n b = sideEffectH (c.setR n b) n b := by
  unfold regWriteH
  rw [if_neg (by show ¬ 48 ≤ n; omega)]
  simp only [modeOf_sideEffectH, modeOf_setR _ _ _ _ h2, ne_eq, not_true_eq_false, false_and, if_false]

theorem sideEffectH_ok {c : Chip} (h : c.ok .H) (n : Nat) (b : Byte) : (sideEffectH c n b).ok .H := by
  unfold sideEffectH
  split_ifs
  · exact ok_congr h rfl rfl rfl rfl rfl rfl rfl
  · exact writeR44_ok h
  · exact issue_ok h b
  · exact h

theorem regWriteH_ok {c : Chip} (h : c.ok .H) (n : Nat) (b : Byte) : (regWriteH c n b).ok .H := by
  by_cases hn : 48 ≤ n
  · unfold regWriteH
    rw [if_pos (show nreg .H ≤ n from hn)]
    exact h
  · by_cases h2 : 2 ≤ n
    · rw [regWriteH_eq c h2 (by omega) b]
      exact sideEffectH_ok (setR_ok h h2 (by show n < 48; omega) b) n b
    · have hs : sideEffectH (c.setR n b) n b = c.setR n b := by
        unfold sideEffectH
        rw [if_neg (by omega), if_neg (by omega), if_neg (by omega)]
      obtain ⟨hm, hb, h4, h5, h6⟩ := (ok_iff _ _).mp h
      have hb' : (c.setR n b).bankOk .H := setR_bankOk hb (by show n < 48; omega) b
      unfold regWriteH
      rw [if_neg (show ¬ nreg .H ≤ n from hn)]
      simp only [hs]
      split_ifs with hc
      · exact stopped_ok (c := c.setR n b) hm hb' (frame_finish _) (stopped_finish _)
      · refine (ok_iff _ _).mpr ⟨hm, hb', h4, h5, ?_⟩
        unfold engineFits at h6 ⊢
        simp only [setR_engine, setR_mmc] at hc ⊢
        cases he : c.engine with
        | idle => simpa [he] using h6
        | running op =>
          have hmode : modeOf .H (c.setR n b) = modeOf .H c := by
            by_contra hne
            exact hc ⟨hne, by rw [he]; exact Engine.noConfusion⟩
          simpa [he, hmode] using h6

/-! ### All variants -/

/-- What no register write changes. -/
theorem registerFrame_regWrite (cfg : Config) (c : Chip) (n : Nat) (b : Byte) : RegisterFrame c (regWrite cfg c n b) := by
  unfold regWrite
  split
  · exact registerFrame_regWriteB c n b
  · exact registerFrame_regWriteE cfg c n b
  · exact registerFrame_regWriteH c n b

/-- A register write keeps a chip good. -/
theorem regWrite_ok {cfg : Config} {c : Chip} (h : c.ok cfg.variant) (n : Nat) (b : Byte) :
    (regWrite cfg c n b).ok cfg.variant := by
  unfold regWrite
  cases hv : cfg.variant <;> rw [hv] at h
  · exact regWriteB_ok h n b
  · exact regWriteE_ok h cfg n b
  · exact regWriteH_ok h n b

end Sys2Proof.Machine
end

