-- ==== Sys2Proof/Laws/Renderer.lean ====
section
/-! SUPPORT. Laws/Renderer.lean: what a rendered line can change, that it keeps a chip good, and how long a line is. -/

namespace Sys2Proof.Machine

/-- What drawing a line can change: S#0 and the collision latch. -/
theorem drawLine_eq (cfg : Config) (c : Chip) (l : Nat) :
    ∃ x : Byte, ∃ r : Bool,
      (drawLine cfg c l).1 = { c with status := { c.status with s0 := x }, collisionReported := r } := by
  unfold drawLine
  extract_lets v m
  split_ifs
  · exact ⟨_, _, rfl⟩
  · exact ⟨_, _, rfl⟩
  · exact ⟨_, _, rfl⟩

/-- What the start of a line can change: FH, the interrupt output and the collision latch. -/
theorem beginLine_eq (v : Variant) (c : Chip) (l : Nat) :
    ∃ f i r : Bool,
      beginLine v c l = { c with status := { c.status with fh := f }, intLine := i, collisionReported := r } := by
  unfold beginLine
  extract_lets c1
  have h1 : c1 = { c with collisionReported := if l = 0 then false else c.collisionReported } := by
    by_cases h : l = 0 <;> simp [c1, h]
  split_ifs
  · rw [h1]
    exact ⟨true, _, _, rfl⟩
  · rw [h1]
    exact ⟨c.status.fh, c.intLine, _, rfl⟩

/-- What a rendered line can change: S#0, FH, the interrupt output and the collision latch. -/
theorem renderLine_eq (cfg : Config) (c : Chip) (l : Nat) :
    ∃ x : Byte, ∃ f i r : Bool, (renderLine cfg c l).1 =
      { c with status := { c.status with s0 := x, fh := f }, intLine := i, collisionReported := r } := by
  obtain ⟨f, i, r, hb⟩ := beginLine_eq cfg.variant c l
  obtain ⟨x, r', hd⟩ := drawLine_eq cfg (beginLine cfg.variant c l) l
  unfold renderLine
  extract_lets c1 d
  have hd' : d.1 = { c with status := { c.status with s0 := x, fh := f }, intLine := i, collisionReported := r' } := by
    rw [show d.1 = _ from hd, hb]
  split_ifs
  · simp only [hd', frameEvent]
    exact ⟨_, _, _, _, rfl⟩
  · exact ⟨_, _, _, _, hd'⟩
  · exact ⟨_, _, _, _, hb⟩

/-- A rendered line keeps a chip good. -/
theorem renderLine_ok {cfg : Config} {c : Chip} {v : Variant} (h : c.ok v) (l : Nat) : (renderLine cfg c l).1.ok v := by
  obtain ⟨x, f, i, r, he⟩ := renderLine_eq cfg c l
  rw [he]
  exact ok_congr h rfl rfl rfl rfl rfl rfl rfl

/-! ### Line lengths -/

@[simp] theorem length_patternPixels (n : Nat) (pat fg bg : Byte) : (patternPixels n pat fg bg).length = n := by
  simp [patternPixels]

@[simp] theorem length_multicolorPixels (v : Variant) (c : Chip) (b : Byte) : (multicolorPixels v c b).length = 8 := by
  simp [multicolorPixels]

/-- The length of a row of cells of one width. -/
theorem length_cells {n k : Nat} {f : Nat → List Byte} (h : ∀ i, (f i).length = k) :
    ((List.range n).flatMap f).length = n * k := by
  rw [List.length_flatMap, List.map_congr_left (fun i _ => h i), List.map_const', List.sum_replicate, List.length_range,
    smul_eq_mul]

/-- The length of a line between its borders. -/
theorem length_withBorder (v : Variant) (c : Chip) (px : List Byte) :
    (withBorder v c px).length = px.length + 16 := by
  simp only [withBorder, List.length_append, List.length_replicate]
  omega

/-- The background of a mode fills the line. -/
theorem length_background (v : Variant) (c : Chip) (l : Nat) : (background v c l).length = lineWidth (modeOf v c) := by
  unfold background
  cases hm : modeOf v c
  · exact length_cells (k := 8) fun i => length_patternPixels _ _ _ _
  · exact length_cells (k := 8) fun i => length_patternPixels _ _ _ _
  · exact length_cells (k := 8) fun i => length_multicolorPixels _ _ _
  · exact (length_withBorder v c _).trans
      (congrArg (· + 16) (length_cells (k := 6) fun i => length_patternPixels _ _ _ _))
  · exact (length_withBorder v c _).trans
      (congrArg (· + 16) (length_cells (k := 6) fun i => length_patternPixels _ _ _ _))
  · exact length_cells (k := 8) fun i => length_multicolorPixels _ _ _
  · refine (length_withBorder v c _).trans (congrArg (· + 16) (length_cells (n := 40) (k := 6) fun i => ?_))
    rw [List.length_append, List.length_replicate, List.length_replicate]
  · exact (List.length_replicate).trans (by rw [hm])
  · exact (List.length_replicate).trans (by rw [hm])
  · exact (List.length_map _).trans List.length_range
  · exact (List.length_map _).trans List.length_range
  · exact (List.length_map _).trans List.length_range
  · exact (List.length_map _).trans List.length_range

/-- A drawn line is as wide as its mode says. -/
theorem length_drawLine (cfg : Config) (c : Chip) (l : Nat) :
    (drawLine cfg c l).2.length = lineWidth (modeOf cfg.variant c) := by
  unfold drawLine
  extract_lets v m
  split_ifs with h1 h2
  · simp [blankLine, v]
  · have hw : lineWidth (modeOf v c) = 256 := by
      unfold spritesShown at h2
      cases hm : modeOf v c <;> first
        | rfl
        | simp [hm, spriteMode] at h2
    rw [show lineWidth (modeOf cfg.variant c) = 256 from hw, overlay, List.length_zipWith, length_background, hw,
      Vector.length_toList]
    rfl
  · exact length_background v c l

end Sys2Proof.Machine
end

