-- ==== Sys2Proof/Tests/Slice0.lean ====
section
/-! SUPPORT. Tests/Slice0.lean: decoding of written-out bytes, refusal of ill-formed terms, one step per instruction with the
values of spec/95_test_vectors.md or of the rule's own example, and for every obligation with hypotheses a state that meets them.
-/

namespace Sys2Proof.Tests

open Sys2Proof.Machine

/-! ## Helpers -/

/-- A machine with small numbers: an `UPDATE` makes at most nine steps. -/
def cfgOf (v : Variant) : Config where
  variant := v
  unlimitedSprites := false
  writeUpdatesPrefetch := true
  collideTransparent := false
  relockOnOther57 := true
  statusIdH := 0x00
  statusIdE := 0xE0
  statusE := Vector.replicate 16 0x55
  budget := 10
  cost := Vector.replicate 28 1
  totalLines := 262

/-- The chip after reset with some registers and bytes of main VRAM set. -/
def chipOf (v : Variant) (rs : List (Nat × Byte)) (mem : Memory) : Chip :=
  rs.foldl (fun c r => c.setR r.1 r.2) { Chip.start v with vram := mem }

/-- A state with that chip and some calls to come. -/
def stateOf (v : Variant) (c : Chip) (calls : List Call) : State where
  cfg := cfgOf v
  chip := c
  input := calls
  out := .none
  draws := 0

/-- The state of a chip with no call to come. -/
def idleState (v : Variant) (rs : List (Nat × Byte)) (mem : Memory) : State := stateOf v (chipOf v rs mem) []

/-- A chip of variant H in G4 (or the mode of the given R0) that has just issued the command byte `b`. -/
def issued (r0 : Byte) (rs : List (Nat × Byte)) (mem : Memory) (b : Byte) : Chip :=
  issue b (chipOf .H ((0, r0) :: (46, b) :: rs) mem)

/-- That chip as a state. -/
def issuedState (r0 : Byte) (rs : List (Nat × Byte)) (mem : Memory) (b : Byte) : State := stateOf .H (issued r0 rs mem b) []

/-- The outcome is a next state with the given property. -/
def nextWith (o : Host.Outcome State Fault Refusal) (p : State → Bool) : Bool :=
  match o with
  | .next t => p t
  | .fault _ => false
  | .refused _ => false

/-- The outcome is the given refusal. -/
def refusedAs (o : Host.Outcome State Fault Refusal) (r : Refusal) : Bool :=
  match o with
  | .next _ => false
  | .fault _ => false
  | .refused q => q == r

theorem exists_of_nextWith {o : Host.Outcome State Fault Refusal} {p : State → Bool} (h : nextWith o p = true) :
    ∃ t, o = .next t ∧ p t = true := by
  cases o with
  | next t => exact ⟨t, rfl, h⟩
  | fault f => cases h
  | refused r => cases h

/-! ## Well-formedness: each check refuses a term that fails it -/

theorem test_wf_variant : Instr.wf (cfgOf .B) (.wp 0) = false ∧ Instr.wf (cfgOf .E) (.wi 0) = false ∧
    Instr.wf (cfgOf .B) .update = false ∧ Instr.wf (cfgOf .H) (.wdPaletteE 0) = false ∧
    Instr.wf (cfgOf .E) (.wdPaletteH 0) = false ∧ Instr.wf (cfgOf .E) .rsS1H = false ∧ Instr.wf (cfgOf .B) .rsE = false ∧
    Instr.wf (cfgOf .H) (.wp 0) = true := by decide

theorem test_wf_line : Instr.wf (cfgOf .H) (.render 262) = false ∧ Instr.wf (cfgOf .H) (.render 261) = true := by decide

theorem test_wf_saved : Instr.wf (cfgOf .B) (.restore (chipOf .B [(8, 1)] [])) = false ∧
    Instr.wf (cfgOf .B) (.restore (chipOf .B [(7, 1)] [(5, 1)])) = true := by decide

theorem test_decode_refuses : decode (cfgOf .B) ⟨.first, false, 0⟩ (.wp 0) = .error .absentInVariant ∧
    decode (cfgOf .H) ⟨.first, false, 0⟩ (.render 262) = .error .lineOutOfRange ∧
    decode (cfgOf .B) ⟨.first, false, 0⟩ (.restore (chipOf .B [] [(5, 0)])) = .error .notASavedState := by decide

/-! ## Decoding: bytes written out from 30_encoding R141 to R153 and spec/opcode_table.json -/

theorem test_decode_address : decodeRow .B ⟨.first, false, 0⟩ (.wa 0b00110100) = .waFirst 0b00110100 ∧
    decodeRow .B ⟨.second, false, 0⟩ (.wa 0b00010010) = .waSetrd 0b010010 ∧
    decodeRow .B ⟨.second, false, 0⟩ (.wa 0b01010010) = .waSetwr 0b010010 ∧
    decodeRow .B ⟨.second, false, 0⟩ (.wa 0b10000001) = .waWreg 0 0b000001 ∧
    decodeRow .B ⟨.second, false, 0⟩ (.wa 0b11000001) = .waWreg 1 0b000001 := by decide

theorem test_decode_data : decodeRow .B ⟨.first, true, 0⟩ (.wd 0b10101010) = .wd 0b10101010 ∧
    decodeRow .E ⟨.first, false, 0⟩ (.wd 0b10101010) = .wd 0b10101010 ∧
    decodeRow .E ⟨.first, true, 0⟩ (.wd 0b00001111) = .wdPaletteE 0b00001111 ∧
    decodeRow .H ⟨.second, true, 0⟩ (.wd 0b01110000) = .wdPaletteH 0b01110000 ∧
    decodeRow .H ⟨.second, true, 5⟩ .rd = .rd ∧
    decodeRow .H ⟨.first, false, 0⟩ (.wp 0b01110101) = .wp 0b01110101 ∧
    decodeRow .H ⟨.first, false, 0⟩ (.wi 0b01010101) = .wi 0b01010101 := by decide

theorem test_decode_status : decodeRow .B ⟨.first, false, 1⟩ .rs = .rsS0 ∧ decodeRow .E ⟨.first, false, 0⟩ .rs = .rsS0 ∧
    decodeRow .H ⟨.first, false, 0⟩ .rs = .rsS0 ∧ decodeRow .H ⟨.first, false, 1⟩ .rs = .rsS1H ∧
    decodeRow .H ⟨.first, false, 2⟩ .rs = .rsS2H ∧ decodeRow .H ⟨.first, false, 7⟩ .rs = .rsS7H ∧
    decodeRow .H ⟨.first, false, 3⟩ .rs = .rsOtherH ∧ decodeRow .H ⟨.first, false, 15⟩ .rs = .rsOtherH ∧
    decodeRow .E ⟨.first, false, 1⟩ .rs = .rsE ∧ decodeRow .E ⟨.first, false, 15⟩ .rs = .rsE := by decide

theorem test_decode_driver : decodeRow .H ⟨.first, false, 0⟩ (.render 7) = .render 7 ∧
    decodeRow .H ⟨.first, false, 0⟩ .update = .update ∧ decodeRow .B ⟨.first, false, 0⟩ .reset = .reset ∧
    decodeRow .B ⟨.first, false, 0⟩ .snapshot = .snapshot ∧
    decodeRow .B ⟨.first, false, 0⟩ (.restore (Chip.start .B)) = .restore (Chip.start .B) ∧
    decodeRow .B ⟨.first, false, 0⟩ (.debug 5 (some 6)) = .debugReadWrite 5 (some 6) ∧
    decodeRow .B ⟨.first, false, 0⟩ .dump = .debugDump := by decide

theorem test_decode_commands : decodeCommand 0b00000011 = .stop 0b0011 ∧ decodeCommand 0b00010011 = .undefined1 0b0011 ∧
    decodeCommand 0b00100011 = .undefined2 0b0011 ∧ decodeCommand 0b00110011 = .undefined3 0b0011 ∧
    decodeCommand 0b01000011 = .point 0b0011 ∧ decodeCommand 0b01010011 = .pset 0b0011 ∧
    decodeCommand 0b01100011 = .srch 0b0011 ∧ decodeCommand 0b01110011 = .line 0b0011 ∧
    decodeCommand 0b10000011 = .lmmv 0b0011 ∧ decodeCommand 0b10010011 = .lmmm 0b0011 ∧
    decodeCommand 0b10100011 = .lmcm 0b0011 ∧ decodeCommand 0b10110011 = .lmmc 0b0011 ∧
    decodeCommand 0b11000011 = .hmmv 0b0011 ∧ decodeCommand 0b11010011 = .hmmm 0b0011 ∧
    decodeCommand 0b11100011 = .ymmm 0b0011 ∧ decodeCommand 0b11110011 = .hmmc 0b0011 := by decide

theorem test_decode_logical : decodeLogical 0b10000000 = .loImp 0b1000 ∧ decodeLogical 0b10000001 = .loAnd 0b1000 ∧
    decodeLogical 0b10000010 = .loOr 0b1000 ∧ decodeLogical 0b10000011 = .loEor 0b1000 ∧
    decodeLogical 0b10000100 = .loNot 0b1000 ∧ decodeLogical 0b10001000 = .loTimp 0b1000 ∧
    decodeLogical 0b10001001 = .loTand 0b1000 ∧ decodeLogical 0b10001010 = .loTor 0b1000 ∧
    decodeLogical 0b10001011 = .loTeor 0b1000 ∧ decodeLogical 0b10001100 = .loTnot 0b1000 ∧
    decodeLogical 0b10000101 = .loUndefined5 0b1000 ∧ decodeLogical 0b10000110 = .loUndefined6 0b1000 ∧
    decodeLogical 0b10000111 = .loUndefined7 0b1000 ∧ decodeLogical 0b10001101 = .loUndefined13 0b1000 ∧
    decodeLogical 0b10001110 = .loUndefined14 0b1000 ∧ decodeLogical 0b10001111 = .loUndefined15 0b1000 := by decide

theorem test_table_word : decodeTableWord 8 0b01010011 = some (.pset 0b0011) ∧ decodeTableWord 8 0b00001010 = some (.loTor 0) ∧
    decodeTableWord 8 0 = some (.stop 0) ∧ decodeTableWord 16 0 = none := by decide

theorem test_first_step : nextWith (step (State.reset.withFetchWord 8 0b01010011)) (fun t =>
    t.chip.R 46 == 0b01010011 && t.input.isEmpty) = true := by decide

/-! ## Ports: one step each (95_test_vectors, the VP vectors, and the examples of 40_port_protocol) -/

/-- VP1. -/
theorem test_wa_first : nextWith (exec (.waFirst 0x34) (idleState .B [] [])) (fun t =>
    t.chip.pending == 0x34 && t.chip.phase == .second && t.chip.cursor == 0) = true := by decide

/-- 40_port_protocol R203: `WA 0x00`, `WA 0x10`. -/
theorem test_wa_setrd : nextWith (exec (.waSetrd 0x10) (idleState .B [] [(0x1000, 0xAB)])) (fun t =>
    t.chip.prefetch == 0xAB && t.chip.cursor == 0x1001 && t.chip.phase == .first) = true := by decide

/-- VP15: increment -1. -/
theorem test_wa_setrd_increment : nextWith (exec (.waSetrd 0) (stateOf .E { chipOf .E [(48, 0xFF)] [] with pending := 5 } []))
    (fun t => t.chip.cursor == 4) = true := by decide

/-- 40_port_protocol R204: `WA 0x00`, `WA 0x48`. -/
theorem test_wa_setwr : nextWith (exec (.waSetwr 0x08) (idleState .B [] [(0x800, 1)])) (fun t =>
    t.chip.cursor == 0x0800 && t.chip.prefetch == 0) = true := by decide

/-- VP5: bits 5:3 of the number are ignored in B. -/
theorem test_wa_wreg : nextWith (exec (.waWreg 0 0x0F) (stateOf .B { Chip.start .B with pending := 0xF4, phase := .second } []))
    (fun t => t.chip.R 7 == 0xF4 && t.chip.phase == .first) = true := by decide

/-- VR15: locked, a write to R48 lands in R0. -/
theorem test_wa_wreg_locked : nextWith (exec (.waWreg 1 48) (stateOf .E { Chip.start .E with pending := 0xFF } [])) (fun t =>
    t.chip.R 0 == 0xFF && t.chip.R 48 == 1 && modeOf .E t.chip == .G2) = true := by decide

/-- 40_port_protocol R207: the cursor wraps. -/
theorem test_wd_wraps : nextWith (exec (.wd 0x55) (stateOf .B { Chip.start .B with cursor := 0x3FFF } [])) (fun t =>
    t.byteAt (.main 0x3FFF) == 0x55 && t.chip.cursor == 0 && t.chip.prefetch == 0x55) = true := by decide

/-- VP17: the wrap carries into R14 in G4. -/
theorem test_wd_carries : nextWith (exec (.wd 0x77) (stateOf .H { chipOf .H [(0, 6)] [] with cursor := 0x3FFF } [])) (fun t =>
    t.byteAt (.main 0x3FFF) == 0x77 && t.chip.R 14 == 1 && t.chip.cursor == 0) = true := by decide

/-- VP32, second byte. -/
theorem test_wd_palette_e : nextWith (exec (.wdPaletteE 0x00)
    (stateOf .E { chipOf .E [(47, 0xC5)] [] with palPhase := .second, palPending := 0x0F } [])) (fun t =>
    t.chip.paletteE[5] == 0xF00 && t.chip.R 47 == 0xC6) = true := by decide

/-- VP33, second byte: the mode ends. -/
theorem test_wd_palette_e_ends : nextWith (exec (.wdPaletteE 0x23)
    (stateOf .E { chipOf .E [(47, 0x85)] [] with palPhase := .second, palPending := 0x01 } [])) (fun t =>
    t.chip.paletteE[5] == 0x123 && t.chip.R 47 == 0x05) = true := by decide

/-- VP31, second byte. -/
theorem test_wd_palette_h : nextWith (exec (.wdPaletteH 0x03)
    (stateOf .H { chipOf .H [(47, 0x80), (16, 2)] [] with palPhase := .second, palPending := 0x25 } [])) (fun t =>
    t.chip.paletteH[2] == { red := 2, green := 3, blue := 5 } && t.chip.R 16 == 3 && t.chip.R 47 == 0x80 &&
    t.chip.cursor == 0) = true := by decide

/-- 40_port_protocol R210, first read. -/
theorem test_rd : nextWith (exec .rd (stateOf .B { chipOf .B [] [(0x1001, 0xCD)] with cursor := 0x1001, prefetch := 0xAB } []))
    (fun t => t.out == .byte 0xAB && t.chip.prefetch == 0xCD && t.chip.cursor == 0x1002) = true := by decide

/-- 40_port_protocol R212: S#0 = 0xE3. -/
theorem test_rs_s0 : nextWith (exec .rsS0 (stateOf .B
    { Chip.start .B with status := { (Chip.start .B).status with s0 := 0xE3 }, intLine := true, phase := .second } [])) (fun t =>
    t.out == .byte 0xE3 && t.chip.status.s0 == 0x03 && !t.chip.intLine && t.chip.phase == .first) = true := by decide

/-- VF7: S#1 after the line event. -/
theorem test_rs_s1 : nextWith (exec .rsS1H (stateOf .H
    { Chip.start .H with status := { (Chip.start .H).status with fh := true }, intLine := true } [])) (fun t =>
    t.out == .byte 0x01 && !t.chip.status.fh && t.chip.intLine) = true := by decide

/-- VP26: TR and CE of a running LMMC; VR, HR and EO are free. -/
theorem test_rs_s2 : nextWith (exec .rsS2H (stateOf .H
    { Chip.start .H with status := { (Chip.start .H).status with tr := true, ce := true } } [])) (fun t =>
    t.draws == 1 && t.chip.status.tr) = true := by decide

/-- VC20, first read: S#7 = 7 is returned and 9 loaded. -/
theorem test_rs_s7 : nextWith (exec .rsS7H (issuedState 6 [(40, 2), (42, 1)] [(0, 0x79)] 0xA0)) (fun t =>
    t.out == .byte 7 && t.chip.status.s7 == 9 && t.chip.R 44 == 9 && t.chip.status.tr) = true := by decide

/-- VP27. -/
theorem test_rs_other : nextWith (exec .rsOtherH (idleState .H [(15, 9)] [])) (fun t => t.out == .byte 0xFE) = true := by decide

/-- 40_port_protocol R217: bit 0 of the identification is FH. -/
theorem test_rs_e : nextWith (exec .rsE (stateOf .E
    { chipOf .E [(15, 1)] [] with status := { (Chip.start .E).status with fh := true } } [])) (fun t =>
    t.out == .byte 0xE1 && !t.chip.status.fh) = true := by decide

/-- VP29, second byte. -/
theorem test_wp : nextWith (exec (.wp 0x07) (stateOf .H
    { chipOf .H [(16, 0x0F)] [] with palPhase := .second, palPending := 0x70, phase := .second } [])) (fun t =>
    t.chip.paletteH[15] == { red := 7, green := 7, blue := 0 } && t.chip.R 16 == 0 && t.chip.phase == .second) = true := by decide

/-- VP36: R17 is not writable through itself. -/
theorem test_wi_pointer : nextWith (exec (.wi 0x55) (idleState .H [(17, 0x11)] [])) (fun t => t.chip.R 17 == 0x12) = true := by
  decide

/-- VC30, last byte: R46 issues HMMV. -/
theorem test_wi_issues : nextWith (exec (.wi 0xC0) (idleState .H [(0, 6), (17, 46), (40, 4), (42, 1), (44, 0xAB)] [])) (fun t =>
    t.chip.status.ce && t.chip.mmc.NX == 2 && t.chip.R 17 == 47) = true := by decide

/-! ## Driver calls -/

/-- 42_renderer R326: name 0x41, pattern 0xF0, colours 0x1F. -/
theorem test_render_g1 : nextWith (exec (.render 0) (idleState .B [(1, 0x40), (4, 1), (3, 0x10), (5, 0x36)]
    [(0, 0x41), (0x408, 0x1F), (0xA08, 0xF0), (0x1B00, 0xD0)])) (fun t =>
    match t.out with
    | .line px => px.take 8 == [1, 1, 1, 1, 15, 15, 15, 15]
    | _ => false) = true := by decide

/-- VF2: the frame event. -/
theorem test_render_frame : nextWith (exec (.render 191) (idleState .B [(1, 0x20)] [])) (fun t =>
    t.chip.status.s0 == 0x80 && t.chip.intLine) = true := by decide

/-- VC22: HMMV makes two steps. -/
theorem test_update : nextWith (exec .update (issuedState 6 [(40, 4), (42, 1), (44, 0xAB)] [] 0xC0)) (fun t =>
    t.byteAt (.main 0) == 0xAB && t.byteAt (.main 1) == 0xAB && t.byteAt (.main 2) == 0 && t.chip.R 38 == 1 && t.chip.R 42 == 0 &&
    !t.chip.status.ce) = true := by decide

/-- VC31: a budget of 100 and a cost of 30 make three steps. -/
theorem test_update_budget : nextWith (exec .update { issuedState 6 [(40, 4), (42, 2), (44, 5)] [] 0x80 with
      cfg := { cfgOf .H with budget := 100, cost := Vector.replicate 28 30 } }) (fun t =>
    t.chip.status.ce && t.byteAt (.main 0) == 0x55 && t.byteAt (.main 1) == 0x50 && t.chip.budget == -20) = true := by decide

/-- 70_reset_and_hazards R701. -/
theorem test_reset : nextWith (exec .reset (idleState .E [(48, 9), (7, 4)] [])) (fun t =>
    t.chip.R 48 == 1 && t.chip.R 7 == 0 && t.chip.status.s9 == 0xFE && t.draws == 1) = true := by decide

theorem test_snapshot : nextWith (exec .snapshot (idleState .B [(7, 4)] [(1, 2)])) (fun t =>
    t.out == .saved (chipOf .B [(7, 4)] [(1, 2)]) && t.chip == chipOf .B [(7, 4)] [(1, 2)]) = true := by decide

/-- A command restored mid-flight goes on (70_reset_and_hazards R713). -/
theorem test_restore : nextWith (exec (.restore (issued 6 [(40, 4), (42, 1), (44, 0xAB)] [] 0xC0)) (idleState .H [] [(9, 9)]))
    (fun t => t.chip == issued 6 [(40, 4), (42, 1), (44, 0xAB)] [] 0xC0 && t.chip.status.ce) = true := by decide

/-- 70_reset_and_hazards R716: past main VRAM comes the expansion bank, past that the address wraps. -/
theorem test_debug : nextWith (exec (.debugReadWrite 0x20010 (some 7)) (idleState .H [] [])) (fun t =>
      t.byteAt (.exp 0x10) == 7) = true ∧
    nextWith (exec (.debugReadWrite 0x30002 none) (idleState .H [] [(2, 9)])) (fun t => t.out == .byte 9) = true := by decide

theorem test_dump : nextWith (exec .debugDump (idleState .B [(7, 0xF4)] [])) (fun t =>
    match t.out with
    | .dump rs _ g => rs == [0, 0, 0, 0, 0, 0, 0, 0xF4] && g.TC == 15 && g.BD == 4 && g.CTM == 0x3F
    | _ => false) = true := by decide

/-! ## Commands: one step each (95_test_vectors, the VC vectors, and the examples of 44_command_ops) -/

/-- VC1, the STOP. -/
theorem test_stop : nextWith (exec (.stop 0) (issuedState 6 [(40, 4), (42, 2), (44, 5)] [] 0x80)) (fun t =>
    !t.chip.status.ce && t.chip.R 42 == 2 && t.chip.R 46 == 0) = true := by
  decide +kernel

/-- VC2, the undefined opcode 0001; the same of 0010 and 0011. -/
theorem test_undefined : [Instr.undefined1 0, .undefined2 0, .undefined3 0].all (fun i =>
    nextWith (exec i (issuedState 6 [(40, 4), (42, 2), (44, 5)] [] 0x80)) fun t => t.chip.status.ce && t.chip.mmc.NY == 2) = true := by
  decide +kernel

/-- VC3. -/
theorem test_point : nextWith (exec (.point 0) (idleState .H [(0, 6), (32, 1)] [(0, 0x5A)])) (fun t =>
    t.chip.status.s7 == 0x0A && t.chip.R 44 == 0x0A && !t.chip.status.ce) = true := by decide

/-- VC4. -/
theorem test_pset : nextWith (exec (.pset 0) (idleState .H [(0, 8), (36, 2), (38, 1), (44, 1)] [(0x80, 0xFF)])) (fun t =>
    t.byteAt (.main 0x80) == 0xF7 && !t.chip.status.ce) = true := by decide

/-- The issue of a budgeted opcode makes no step (43_command_engine R402). -/
theorem test_budgeted_issues : [Instr.srch 0, .line 0, .lmmv 0, .lmmm 0, .hmmv 0, .hmmm 0, .ymmm 0].all (fun i =>
    nextWith (exec i (idleState .H [(0, 6), (40, 4), (42, 1), (44, 5)] [(0, 0x12)])) fun t =>
      t.chip.status.ce && !t.chip.status.tr && t.byteAt (.main 0) == 0x12 && t.chip.mmc.NY == 1) = true := by decide

/-- VC6 (SRCH finds a pixel). -/
theorem test_srch : nextWith (exec .update (issuedState 6 [(44, 3)] [(2, 3)] 0x60)) (fun t =>
    t.chip.status.bd && t.chip.status.s8 == 5 && t.chip.status.s9 == 0xFE && !t.chip.status.ce) = true := by decide

/-- VC12 (LINE, Y major). -/
theorem test_line : nextWith (exec .update (issuedState 6 [(36, 10), (40, 2), (42, 1), (44, 7), (45, 1)] [] 0x70)) (fun t =>
    t.byteAt (.main 5) == 0x70 && t.byteAt (.main 0x85) == 0x07 && t.byteAt (.main 0x105) == 0x07 && t.chip.R 38 == 3) = true := by
  decide

/-- VC16 (LMMV, upwards past the top). -/
theorem test_lmmv : nextWith (exec .update (issuedState 6 [(40, 2), (42, 3), (44, 1), (45, 8)] [] 0x80)) (fun t =>
    t.byteAt (.main 0) == 0x11 && t.chip.R 38 == 0xFF && t.chip.R 39 == 3 && t.chip.R 42 == 2 && t.chip.R 43 == 0) = true := by
  decide

/-- VC18 (LMMM, TIMP). -/
theorem test_lmmm : nextWith (exec .update (issuedState 6 [(36, 4), (40, 2), (42, 1)] [(0, 0x12), (2, 0xFF)] 0x98)) (fun t =>
    t.byteAt (.main 2) == 0x12 && t.chip.R 34 == 1 && t.chip.R 38 == 1 && t.chip.R 42 == 0) = true := by decide

/-- VC20, the issue (LMCM). -/
theorem test_lmcm : nextWith (exec (.lmcm 0) (idleState .H [(0, 6), (40, 2), (42, 1)] [(0, 0x79)])) (fun t =>
    t.chip.status.s7 == 7 && t.chip.R 44 == 7 && t.chip.status.tr) = true := by decide

/-- VC21, the issue (LMMC). -/
theorem test_lmmc : nextWith (exec (.lmmc 0) (idleState .H [(0, 6), (40, 2), (42, 1), (44, 3)] [])) (fun t =>
    t.byteAt (.main 0) == 0x30 && t.chip.status.tr && t.chip.status.ce) = true := by decide

/-- VC24 (HMMV in G7, interleaved). -/
theorem test_hmmv : nextWith (exec .update (issuedState 0x0E [(40, 3), (42, 1), (44, 0x5E)] [] 0xC0)) (fun t =>
    t.byteAt (.main 0) == 0x5E && t.byteAt (.main 0x10000) == 0x5E && t.byteAt (.main 1) == 0x5E) = true := by decide

/-- VC25 (HMMM). -/
theorem test_hmmm : nextWith (exec .update (issuedState 0x0E [(38, 1), (40, 1), (42, 1)] [(0, 0x42)] 0xD0)) (fun t =>
    t.byteAt (.main 0x80) == 0x42 && t.chip.R 34 == 1 && t.chip.R 38 == 2 && t.chip.R 42 == 0) = true := by decide

/-- VC27 (YMMM). -/
theorem test_ymmm : nextWith (exec .update (issuedState 6 [(36, 252), (38, 10), (42, 1)] [(0x7E, 0xA1), (0x7F, 0xB2)] 0xE0))
    (fun t => t.byteAt (.main 0x57E) == 0xA1 && t.byteAt (.main 0x57F) == 0xB2 && t.chip.R 34 == 1 && t.chip.R 38 == 11) = true := by
  decide

/-- VC26 (HMMC), the issue, and the write of R44 that ends it. -/
theorem test_hmmc : nextWith (exec (.hmmc 0) (idleState .H [(0, 6), (40, 4), (42, 1), (44, 0x11)] [])) (fun t =>
      t.byteAt (.main 0) == 0x11 && t.chip.status.tr) = true ∧
    nextWith (exec (.wi 0x22) (stateOf .H ((issued 6 [(40, 4), (42, 1), (44, 0x11)] [] 0xF0).setR 17 44) [])) (fun t =>
      t.byteAt (.main 1) == 0x22 && !t.chip.status.ce && !t.chip.status.tr) = true := by decide

/-- The logical operations on P = 0x5A, X = 0, C = 3, and with C = 0 where transparent (43_command_engine R440, R441; VC5). -/
theorem test_logical : [(Instr.loImp 5, (0x3A : Byte)), (.loAnd 5, 0x1A), (.loOr 5, 0x7A), (.loEor 5, 0x6A), (.loNot 5, 0xCA),
      (.loTimp 5, 0x3A), (.loTand 5, 0x1A), (.loTor 5, 0x7A), (.loTeor 5, 0x6A), (.loTnot 5, 0xCA),
      (.loUndefined5 5, 0x5A), (.loUndefined6 5, 0x5A), (.loUndefined7 5, 0x5A), (.loUndefined13 5, 0x5A),
      (.loUndefined14 5, 0x5A), (.loUndefined15 5, 0x5A)].all (fun p =>
    nextWith (exec p.1 (idleState .H [(0, 6), (44, 3)] [(0, 0x5A)])) fun t => t.byteAt (.main 0) == p.2) = true := by decide

theorem test_logical_transparent : [Instr.loTimp 5, .loTand 5, .loTor 5, .loTeor 5, .loTnot 5].all (fun i =>
    nextWith (exec i (idleState .H [(0, 6), (44, 0)] [(0, 0x5A)])) fun t => t.byteAt (.main 0) == 0x5A) = true := by decide

/-- VC35 and VC28: in B the command byte goes to R6, outside G4 to G7 it is only stored. -/
theorem test_command_elsewhere : nextWith (exec (.hmmv 0) (idleState .B [] [])) (fun t => t.chip.R 6 == 0xC0) = true ∧
    nextWith (exec (.hmmv 0) (idleState .H [] [])) (fun t => t.chip.R 46 == 0xC0 && !t.chip.status.ce) = true := by decide

/-! ## Witnesses: a state and operands that meet the hypotheses of each obligation, clause by clause -/

theorem witness_StepRunsDecoded : (idleState .B [] []).input = [] ∧
    (stateOf .B (Chip.start .B) [.wa 5, .rd]).input = .wa 5 :: [.rd] ∧
    decode (cfgOf .B) (stateOf .B (Chip.start .B) [.wa 5, .rd]).ctx (.wa 5) = .ok (.waFirst 5) ∧
    decode (cfgOf .B) (stateOf .B (Chip.start .B) [.wp 5]).ctx (.wp 5) = .error .absentInVariant ∧ (cfgOf .E).variant ≠ .B := by decide

theorem witness_DecodeEncode : (Instr.rsOtherH).wf (cfgOf .H) = true ∧ (Instr.rsOtherH).fits .H ⟨.first, false, 15⟩ = true ∧
    (Instr.render 261).wf (cfgOf .B) = true ∧ (Instr.render 261).fits .B ⟨.first, false, 0⟩ = true := by decide

theorem witness_EncodeDecode : decode (cfgOf .E) ⟨.second, true, 0⟩ (.wd 0xFF) = .ok (.wdPaletteE 0xFF) := by decide

theorem witness_WriteAddress : ∃ (s : State) (a : BitVec 6) (x : BitVec 14), x.toNat = a.toNat * 256 + s.chip.pending.toNat ∧
    x = 0x3FFF := ⟨stateOf .B { Chip.start .B with pending := 0xFF } [], 0x3F, 0x3FFF, by decide⟩

theorem witness_WriteData : (stateOf .H { chipOf .H [(14, 7), (45, 0x40)] [] with cursor := 0x3FFF } []).Inv ∧
    (stateOf .B { chipOf .B [] [(0x3FFF, 1)] with cursor := 0x3FFF } []).Inv := by decide

theorem witness_PalettePortE : (∃ s : State, s.cfg.variant = .E ∧ s.chip.palPhase = .first) ∧
    ∃ (s : State) (d : Byte) (e : BitVec 12), s.cfg.variant = .E ∧ s.chip.palPhase = .second ∧
      e.toNat = s.chip.palPending.toNat % 16 * 256 + d.toNat ∧ (s.chip.R 47).toNat % 64 = 63 :=
  ⟨⟨idleState .E [] [], by decide⟩,
    stateOf .E { chipOf .E [(47, 0xFF)] [] with palPhase := .second, palPending := 0xFF } [], 0xFF, 0xFFF, by decide⟩

theorem witness_PalettePortsH : (∃ s : State, s.cfg.variant = .H ∧ s.chip.palPhase = .first) ∧
    ∃ (s : State) (d : Byte) (e : Rgb), s.cfg.variant = .H ∧ s.chip.palPhase = .second ∧
      e.red.toNat = s.chip.palPending.toNat / 16 % 8 ∧ e.green.toNat = d.toNat % 8 ∧ e.blue.toNat = s.chip.palPending.toNat % 8 ∧
      (s.chip.R 16).toNat % 16 = 15 :=
  ⟨⟨idleState .H [] [], by decide⟩,
    stateOf .H { chipOf .H [(16, 0xFF)] [] with palPhase := .second, palPending := 0xF5 } [], 0xFE,
    { red := 7, green := 6, blue := 5 }, by decide⟩

theorem witness_StatusH : (cfgOf .H).variant = .H ∧ statusSelect .H (chipOf .H [(15, 0xF8)] []) = 8 ∧
    statusSelect .H (chipOf .H [(15, 9)] []) = 9 ∧ statusSelect .H (chipOf .H [(15, 3)] []) ≠ 8 ∧
    statusSelect .H (chipOf .H [(15, 15)] []) ≠ 9 := by decide

theorem witness_StatusE : (cfgOf .E).variant = .E ∧ statusSelect .E (chipOf .E [(15, 0xF1)] []) = 1 ∧
    (∃ k : Fin 16, 2 ≤ k.val ∧ (statusSelect .E (chipOf .E [(15, 2)] [])).toNat = k.val) ∧
    ∃ k : Fin 16, 2 ≤ k.val ∧ (statusSelect .E (chipOf .E [(15, 15)] [])).toNat = k.val :=
  ⟨rfl, by decide, ⟨2, by decide⟩, 15, by decide⟩

theorem witness_WriteIndirect : (cfgOf .H).variant = .H ∧ (∃ r, r = ((chipOf .H [(17, 0x11)] []).R 17).toNat % 64 ∧ r = 17) ∧
    ∃ r, r = ((chipOf .H [(17, 0x3F)] []).R 17).toNat % 64 ∧ r ≠ 17 := ⟨rfl, ⟨17, by decide⟩, 63, by decide⟩

theorem witness_AbsentPortsRefused : (cfgOf .B).variant ≠ .H ∧ (stateOf .B (Chip.start .B) [.wp 1]).input = .wp 1 :: [] ∧
    (stateOf .B (Chip.start .B) [.wi 1]).input = .wi 1 :: [] ∧ (stateOf .B (Chip.start .B) [.update]).input = .update :: [] ∧
    (cfgOf .H).variant ≠ .E := by decide

theorem witness_LatchPhase : ∃ (i : Instr) (s t : State), exec i s = .next t ∧ t.chip.phase = .second :=
  ⟨.waFirst 1, idleState .B [] [], _, rfl, rfl⟩

theorem witness_DataPortWrites : ∃ (s : State) (bs : List Byte) (rest : List Call), s.Inv ∧ s.cfg.variant = .B ∧
    s.input = bs.map Call.wd ++ rest ∧ bs.length ≤ 16384 ∧ s.chip.cursor.toNat + bs.length > 16384 :=
  ⟨stateOf .B { Chip.start .B with cursor := 0x3FFF } [.wd 1, .wd 2, .rd], [1, 2], [.rd], by decide⟩

theorem witness_PortPrimitives : (Chip.start .B).ok .B ∧ (Chip.start .E).ok .E ∧
    Chip.ok .H { chipOf .H [(0, 6), (14, 7)] [(0x1FFFF, 1)] with cursor := 0x3FFF } ∧
    Chip.ok .H { chipOf .H [(45, 0x40)] [] with exp := [(0xFFFF, 1)] } := by decide

theorem witness_InterleaveAgrees : 511 < 512 ∧ 255 < 256 ∧ vaddr .G6 511 511 = interleave (511 * 256 + 511 / 2) ∧
    vaddr .G7 255 511 = interleave (511 * 256 + 255) := by decide

theorem witness_OnlyTheseWriteMemory : ∃ (i : Instr) (s t : State), exec i s = .next t ∧ mayWriteMemory s.cfg.variant i = false :=
  ⟨.rd, idleState .B [] [], _, rfl, rfl⟩

theorem witness_RegisterStores : ((cfgOf .B).variant = .B ∧ 7 < 8) ∧ ((cfgOf .H).variant = .H ∧ 48 ≤ 48) ∧
    ((cfgOf .H).variant = .H ∧ 2 ≤ 47 ∧ 47 < 48 ∧ 47 ≠ 16 ∧ 47 ≠ 44 ∧ 47 ≠ 46) ∧
    ((Chip.start .H).engine ≠ .running .lmmc ∧ (Chip.start .H).engine ≠ .running .hmmc) := by decide

theorem witness_LockFilter : (cfgOf .E).variant = .E ∧ (63 < 64 ∧ 63 ≠ 57 ∧ (Chip.start .E).lock.unlocked = false) ∧
    ∃ c : Chip, c.lock.unlocked = true ∧ ¬ (50 = 50 ∧ (0x7F : Byte).getLsbD 7 = true) :=
  ⟨rfl, by decide, { Chip.start .E with lock := { unlocked := true, unlockCount := 1 } }, rfl, by decide⟩

theorem witness_BankReset : (cfgOf .E).variant = .E ∧ (0x80 : Byte).getLsbD 7 = true ∧ (Chip.start .E).lock.unlocked = false ∧
    ∃ c : Chip, c.lock.unlocked = true :=
  ⟨rfl, by decide, rfl, { Chip.start .E with lock := { unlocked := true, unlockCount := 0 } }, rfl⟩

theorem witness_UnlockSequence : ∃ (s : State) (d : Byte) (rest : List Call), s.cfg.variant = .E ∧ s.chip.phase = .first ∧
    s.input = [Call.wa 0x1C, .wa 0xB9, .wd d, .wa 0x1C, .wa 0xB9] ++ rest :=
  ⟨stateOf .E (Chip.start .E) [.wa 0x1C, .wa 0xB9, .wd 0, .wa 0x1C, .wa 0xB9], 0, [], by decide⟩

theorem witness_AbortOnModeChange : (cfgOf .H).variant = .H ∧ 1 < 2 ∧
    (modeOf .H ((issued 6 [(40, 4)] [] 0xC0).setR 0 0x0A) ≠ modeOf .H (issued 6 [(40, 4)] [] 0xC0) ∧
      (issued 6 [(40, 4)] [] 0xC0).engine ≠ .idle) ∧
    modeOf .H ((issued 6 [(40, 4)] [] 0xC0).setR 1 0x60) = modeOf .H (issued 6 [(40, 4)] [] 0xC0) ∧
    (Chip.start .H).engine = .idle := by decide +kernel

theorem witness_ModeDecoding : ∃ (c : Chip) (m1 m2 m3 m4 m5 : Bool), m1 = (c.R 1).getLsbD 4 ∧ m2 = (c.R 1).getLsbD 3 ∧
    m3 = (c.R 0).getLsbD 1 ∧ m4 = (c.R 0).getLsbD 2 ∧ m5 = (c.R 0).getLsbD 3 ∧ Variant.E ≠ .H :=
  ⟨chipOf .H [(0, 6)] [], _, _, _, _, _, rfl, rfl, rfl, rfl, rfl, by decide⟩

theorem witness_DerivedGeometry : (∃ (c : Chip) (r : Nat → Nat), (∀ n, r n = (c.R n).toNat) ∧ bitmapMode (modeOf .H c) = true) ∧
    bitmapMode (modeOf .B (Chip.start .B)) = false ∧ modeOf .H (chipOf .H [(0, 6)] []) = .G4 ∧
    modeOf .H (chipOf .H [(0, 8)] []) = .G5 ∧ modeOf .H (chipOf .H [(0, 0x0A)] []) = .G6 ∧
    modeOf .H (chipOf .H [(0, 0x0E)] []) = .G7 :=
  ⟨⟨chipOf .H [(0, 2), (3, 0xFF), (4, 0xFF), (10, 7)] [], _, fun _ => rfl, by decide⟩, by decide⟩

theorem witness_InvKept : ∃ s t : State, s.Inv ∧ step s = .next t :=
  ⟨stateOf .H (issued 6 [(40, 4), (42, 1), (44, 0xAB)] [] 0xC0) [.wd 5], _, by decide +kernel, rfl⟩

theorem witness_ConfigFixed : ∃ s t : State, step s = .next t ∧ s.input ≠ [] :=
  ⟨stateOf .B (Chip.start .B) [.wd 5], _, rfl, by decide⟩

theorem witness_InterruptLine : (∃ s t : State, exec (.render 191) s = .next t ∧ t.chip.intLine ≠ s.chip.intLine) ∧
    (∃ s t : State, exec (.render 255) s = .next t ∧ t.chip.intLine ≠ s.chip.intLine) ∧
    ∃ s t : State, exec .rsS0 s = .next t ∧ t.chip.intLine ≠ s.chip.intLine := by
  refine ⟨⟨idleState .B [(1, 0x20)] [], ?_⟩, ⟨idleState .H [(0, 0x10), (19, 255)] [], ?_⟩,
    ⟨stateOf .B { Chip.start .B with intLine := true } [], _, rfl, by decide⟩⟩
  · obtain ⟨t, h, p⟩ := exists_of_nextWith (o := exec (.render 191) (idleState .B [(1, 0x20)] []))
      (p := fun t => t.chip.intLine) (by decide)
    exact ⟨t, h, by rw [p]; decide⟩
  · obtain ⟨t, h, p⟩ := exists_of_nextWith (o := exec (.render 255) (idleState .H [(0, 0x10), (19, 255)] []))
      (p := fun t => t.chip.intLine) (by decide)
    exact ⟨t, h, by rw [p]; decide⟩

theorem witness_SnapshotRestore : (idleState .H [] []).cfg.variant = (idleState .H [(7, 1)] []).cfg.variant ∧
    (idleState .H [(7, 1)] []).Inv ∧ ¬ (idleState .H [(48, 1)] []).Inv := by decide

theorem witness_DebugAccess : ∃ (s : State) (p q : Place), s.Inv ∧ 0x1FFFF % (vramMain .H + vramExp .H) = 0x1FFFF ∧
    s.cfg.variant = .H ∧ p = (if 0x1FFFF < vramMain .H then .main 0x1FFFF else .exp (0x1FFFF - vramMain .H)) ∧
    q = (if 0x20000 < vramMain .H then .main 0x20000 else .exp (0x20000 - vramMain .H)) :=
  ⟨idleState .H [] [(0x1FFFF, 1)], .main 0x1FFFF, .exp 0, by decide⟩

theorem witness_StopAndIgnored : (cfgOf .H).variant = .H ∧ commandMode (modeOf .H (Chip.start .H)) = false ∧
    commandMode (modeOf .H (chipOf .H [(0, 0x0E)] [])) = true := by decide

theorem witness_ParameterFetch : ∃ (c : Chip) (cm lo : Nibble) (r : Nat → Int) (m : Mmc) (byteOp : Bool),
    (∀ n, r n = (c.R n).toNat) ∧ m = loadParams c cm lo ∧ byteOp = decide (12 ≤ cm.toNat) ∧ cm = 15 :=
  ⟨chipOf .H [(0, 8), (40, 0xFF), (41, 0xFF)] [], 15, 0, _, _, _, fun _ => rfl, rfl, rfl, rfl⟩

theorem witness_PointReads : ∃ (s : State) (p : Byte), s.cfg.variant = .H ∧ commandMode (modeOf .H s.chip) = true ∧
    p = pointAt s.chip ((s.chip.R 45).getLsbD 4) (pair s.chip 32 9) (pair s.chip 34 10) :=
  ⟨idleState .H [(0, 6), (32, 0xFF), (33, 1)] [], _, rfl, by decide, rfl⟩

theorem witness_LogicalOperations : ∃ (s : State) (P C K M : Byte), s.cfg.variant = .H ∧ commandMode (modeOf .H s.chip) = true ∧
    P = s.byteAt s.chip.destination ∧ C = s.chip.R 44 &&& colourBits (modeOf .H s.chip) ∧
    K = C <<< pixelShift (modeOf .H s.chip) (pair s.chip 36 9) ∧
    M = ~~~(colourBits (modeOf .H s.chip) <<< pixelShift (modeOf .H s.chip) (pair s.chip 36 9)) :=
  ⟨idleState .H [(0, 8), (44, 3)] [(0, 0x5A)], _, _, _, _, rfl, by decide, rfl, rfl, rfl, rfl⟩

theorem witness_PsetFrame : (cfgOf .H).variant = .H ∧ commandMode (modeOf .H (chipOf .H [(0, 6)] [])) = true := by decide

theorem witness_BudgetedStarts : ∃ (s : State) (x : Nibble) (start : Nibble → Op → Chip), s.Inv ∧ s.cfg.variant = .H ∧
    commandMode (modeOf .H s.chip) = true ∧
    (∀ cm op, start cm op = { s.chip.setR 46 (cm ++ x) with
      mmc := loadParams s.chip cm x, engine := .running op, status := { s.chip.status with ce := true, tr := false } }) :=
  ⟨issuedState 6 [(40, 4), (42, 1)] [] 0xF0, 15, fun _ _ => _, by decide +kernel, rfl, by decide +kernel, fun _ _ => rfl⟩

theorem witness_HostDrivenStarts : ∃ (s : State) (x : Nibble) (start : Nibble → Op → Chip) (ready : Chip → Chip) (p : Byte),
    s.Inv ∧ s.cfg.variant = .H ∧ commandMode (modeOf .H s.chip) = true ∧
    (∀ cm op, start cm op = { s.chip.setR 46 (cm ++ x) with
      mmc := loadParams s.chip cm x, engine := .running op, status := { s.chip.status with ce := true, tr := false } }) ∧
    (∀ c, ready c = if c.engine = .idle then c else { c with status := { c.status with tr := true } }) ∧
    p = pointAt s.chip ((s.chip.R 45).getLsbD 4) (pair s.chip 32 9) (pair s.chip 34 10) :=
  ⟨idleState .H [(0, 0x0E), (40, 1), (42, 1)] [], 0, fun _ _ => _, fun _ => _, _, by decide, rfl, by decide, fun _ _ => rfl,
    fun _ => rfl, rfl⟩

/-- A chip of variant H with a given Command Unit State, in G4. -/
def withMmc (m : Mmc) : Chip := (chipOf .H [(0, 6)] []).setMmc m

/-- A Command Unit State at the right border, from which the rows below go by one. -/
def atBorder : Mmc := { mmcZero with TX := 1, TY := -1, MX := 256, ANX := 2, ASX := 254, ADX := 254, NY := 2, SY := 1, DY := 1 }

theorem witness_HostTransfers : (cfgOf .H).variant = .H ∧
    (∃ c : Chip, c.engine = .running .lmmc) ∧ (∃ c : Chip, c.engine = .running .hmmc) ∧
    (∃ (c : Chip) (m : Mmc) (load : Mmc → Chip), m = c.mmc ∧ m.ANX ≠ 1 ∧ crosses (m.ASX + m.TX) m.MX = false ∧
      ∀ n, load n = { (c.setMmc n).setR 44 (pointAt c n.MXS n.ASX n.SY) with
          status := { c.status with s7 := pointAt c n.MXS n.ASX n.SY } }) ∧
    (∃ m : Mmc, m.ANX = 1 ∧ (m.NY - 1) % 1024 ≠ 0 ∧ m.SY + m.TY ≠ -1) ∧
    (∃ m : Mmc, crosses (m.ASX + m.TX) m.MX = true ∧ (m.NY - 1) % 1024 = 0) ∧
    ∃ m : Mmc, m.ANX = 1 ∧ (m.NY - 1) % 1024 ≠ 0 ∧ m.SY + m.TY = -1 :=
  ⟨rfl, ⟨issued 6 [(40, 4), (42, 1)] [] 0xB0, by decide +kernel⟩, ⟨issued 6 [(40, 4), (42, 1)] [] 0xF0, by decide +kernel⟩,
    ⟨withMmc atBorder, _, fun _ => _, rfl, by decide, by decide, fun _ => rfl⟩, ⟨{ atBorder with ANX := 1 }, by decide⟩,
    ⟨{ atBorder with ASX := 255, NY := -1023 }, by decide⟩, ⟨{ atBorder with ANX := 1, SY := 0 }, by decide⟩⟩

theorem witness_PixelReadBack : Chip.ok .H (chipOf .H [(0, 6)] [(0, 0x5A)]) ∧
    commandMode (modeOf .H (chipOf .H [(0, 6)] [(0, 0x5A)])) = true ∧
    (0x0F : Byte) &&& colourBits (modeOf .H (chipOf .H [(0, 6)] [(0, 0x5A)])) = 0x0F ∧
    pixelPlace (chipOf .H [(0, 6)] []) false 1 1 ≠ pixelPlace (chipOf .H [(0, 6)] []) false 1 0 ∧
    pixelShift (modeOf .H (chipOf .H [(0, 6)] [])) 0 ≠ pixelShift (modeOf .H (chipOf .H [(0, 6)] [])) 1 := by decide

theorem witness_RowEndsD : (∃ (c : Chip) (m : Mmc), m = c.mmc ∧ m.ANX ≠ 1 ∧ crosses (m.ADX + m.TX) m.MX = false) ∧
    42 + 1 < 64 ∧ (∃ m : Mmc, crosses (m.ADX + m.TX) m.MX = true ∧ (m.NY - 1) % 1024 ≠ 0 ∧ m.DY + m.TY ≠ -1) ∧
    (∃ m : Mmc, m.ANX = 1 ∧ (m.NY - 1) % 1024 = 0) ∧
    ∃ m : Mmc, m.ANX = 1 ∧ (m.NY - 1) % 1024 ≠ 0 ∧ m.DY + m.TY = -1 :=
  ⟨⟨withMmc atBorder, _, rfl, by decide⟩, by decide, ⟨{ atBorder with ADX := 255 }, by decide⟩,
    ⟨{ atBorder with ANX := 1, NY := 1 }, by decide⟩, ⟨{ atBorder with ANX := 1, DY := 0 }, by decide⟩⟩

theorem witness_RowEndsSDY : (∃ (c : Chip) (m : Mmc), m = c.mmc ∧ m.ANX ≠ 1 ∧ crosses (m.ASX + m.TX) m.MX = false ∧
      crosses (m.ADX + m.TX) m.MX = false) ∧
    (∃ m : Mmc, crosses (m.ASX + m.TX) m.MX = true ∧ crosses (m.ADX + m.TX) m.MX = true ∧ (m.NY - 1) % 1024 = 0) ∧
    (∃ m : Mmc, crosses (m.ADX + m.TX) m.MX = true ∧ (m.NY - 1) % 1024 ≠ 0 ∧ m.SY + m.TY ≠ -1 ∧ m.DY + m.TY ≠ -1) ∧
    (∃ m : Mmc, crosses (m.ADX + m.TX) m.MX = true ∧ (m.NY - 1) % 1024 ≠ 0 ∧ m.SY + m.TY = -1) ∧
    ∃ m : Mmc, m.ANX = 1 ∧ crosses (m.ADX + m.TX) m.MX = true ∧ (m.NY - 1) % 1024 ≠ 0 ∧ m.SY + m.TY ≠ -1 ∧ m.DY + m.TY = -1 :=
  ⟨⟨withMmc atBorder, _, rfl, by decide⟩, ⟨{ atBorder with ASX := 255, ADX := 255, NY := 1 }, by decide⟩,
    ⟨{ atBorder with ADX := 255 }, by decide⟩, ⟨{ atBorder with ADX := 255, SY := 0 }, by decide⟩,
    ⟨{ atBorder with ADX := 255, ANX := 1, DY := 0 }, by decide⟩⟩

theorem witness_SearchAndLineSteps : ∃ (c : Chip) (m : Mmc) (hit minor : Bool) (endAt : Int → Bool → Chip) (m' : Mmc) (d : Chip),
    m = c.mmc ∧ hit = (decide (pointAt c m.MXS m.ASX m.SY = m.CL) != decide (m.ANX = 1)) ∧
    (∀ x bd, endAt x bd = finish { c with status := { c.status with
        bd := bd, s8 := BitVec.ofInt 8 x, s9 := if x / 256 % 2 = 1 then 0xFF else 0xFE } }) ∧
    minor = decide (m.ASX - m.NY < 0) ∧
    m' = { m with
        DX := if m.arg.getLsbD 0 = false ∨ minor = true then m.DX + m.TX else m.DX
        DY := if m.arg.getLsbD 0 = true ∨ minor = true then m.DY + m.TY else m.DY
        ASX := (if minor then m.ASX - m.NY + m.NX else m.ASX - m.NY) % 1024
        ADX := m.ADX + 1 } ∧
    d = psetAt c m.MXD m.DX m.DY m.CL m.LO :=
  ⟨withMmc atBorder, _, _, _, fun _ _ => _, _, _, rfl, rfl, fun _ _ => rfl, rfl, rfl, rfl⟩

theorem witness_BlockSteps : ∃ (c : Chip) (m : Mmc) (dst p : Place), m = c.mmc ∧ dst = pixelPlace c m.MXD m.ADX m.DY ∧
    c.target .line ≠ some p ∧ c.target .lmmv ≠ some p ∧ p ≠ dst :=
  ⟨withMmc atBorder, _, _, .exp 0, rfl, rfl, by decide⟩

theorem witness_UpdateRunsTheBudget : (cfgOf .H).variant = .H ∧ (cfgOf .H).ok ∧
    ((idleState .H [] []).Inv ∧ ∀ op, (idleState .H [] []).chip.engine = .running op → hostDriven op = true) ∧
    (issuedState 6 [(40, 4), (42, 1)] [] 0xC0).Inv ∧
    (issuedState 6 [(40, 4), (42, 1)] [] 0xC0).chip.engine = .running .hmmv ∧ hostDriven .hmmv = false :=
  ⟨rfl, by decide, ⟨by decide, fun op h => by cases h⟩, by decide +kernel, by decide +kernel, rfl⟩

/-- A running HMMV of two steps, with calls enough for one budget. -/
def oneUpdate : State := stateOf .H (issued 6 [(40, 4), (42, 1)] [] 0xC0) [.update]

/-- The same with a budget of one step a call. -/
def twoUpdates : State := { oneUpdate with cfg := { cfgOf .H with budget := 2 }, input := [.update, .update] }

theorem witness_BudgetIndependence : ∃ (s₁ s₂ t₁ t₂ : State), s₁.cfg.variant = .H ∧ s₂.cfg.variant = .H ∧ s₁.cfg.ok ∧ s₂.cfg.ok ∧
    s₁.chip = s₂.chip ∧ s₁.Inv ∧ s₁.input = List.replicate 2 .update ∧ s₂.input = List.replicate 1 .update ∧
    Host.Core.run Sys2Proof.core 2 s₁ = .next t₁ ∧ Host.Core.run Sys2Proof.core 1 s₂ = .next t₂ ∧
    t₁.chip.engine = .idle ∧ t₂.chip.engine = .idle ∧ s₁.chip.engine ≠ .idle ∧ s₁.cfg ≠ s₂.cfg := by
  obtain ⟨t₁, h₁, e₁⟩ := exists_of_nextWith (p := fun t => t.chip.engine == .idle)
    (o := Host.Core.run Sys2Proof.core 2 twoUpdates) (by decide +kernel)
  obtain ⟨t₂, h₂, e₂⟩ := exists_of_nextWith (p := fun t => t.chip.engine == .idle)
    (o := Host.Core.run Sys2Proof.core 1 oneUpdate) (by decide +kernel)
  exact ⟨twoUpdates, oneUpdate, t₁, t₂, rfl, rfl, by decide, by decide, rfl, by decide +kernel, rfl, rfl, h₁, h₂, by simpa using e₁,
    by simpa using e₂, by decide +kernel, by decide⟩

theorem witness_CommandsTerminate : commandMode (modeOf .H (chipOf .H [(0, 6)] [])) = true ∧ opOf 14 = some .ymmm ∧
    hostDriven .ymmm = false := by decide

/-- A state whose visible lines are not refused, in each variant and in each bitmap mode. -/
theorem renders_of (r0 : Byte) (h : r0 ∈ [0x00, 0x06, 0x08, 0x0A, 0x0E]) :
    (idleState .H [(0, r0), (1, 0x40), (8, 2)] []).renders 191 := by
  simp only [List.mem_cons, List.not_mem_nil, or_false] at h
  rcases h with rfl | rfl | rfl | rfl | rfl <;>
    exact ⟨by decide, fun e => absurd e (by decide), fun _ _ => by unfold Chip.refusedH; decide⟩

theorem witness_RenderRuns : (idleState .B [] []).renders 0 ∧ (idleState .B [] []).renders 261 ∧
    (idleState .H [(0, 0x0A), (1, 0x40), (8, 2)] []).renders 191 ∧ ¬ (idleState .H [(23, 1)] []).renders 191 ∧
    (cfgOf .E).totalLines ≤ 262 ∧ (idleState .E [(63, 1)] []).chip.refusedE ∧ visibleLines .B (Chip.start .B) ≤ 192 :=
  ⟨⟨by decide, fun e => absurd e (by decide), fun e => absurd e (by decide)⟩,
    ⟨by decide, fun e => absurd e (by decide), fun e => absurd e (by decide)⟩, renders_of 0x0A (by decide),
    fun h => h.2.2 rfl (by decide) (by unfold Chip.refusedH; decide), by decide, ⟨63, by decide⟩, by decide⟩

theorem witness_RenderStatus : (∃ (s t : State) (l : Nat) (v : Variant) (a b : Byte) (reported : Bool) (all : List Nat),
      v = s.cfg.variant ∧ a = s.chip.status.s0 ∧ b = t.chip.status.s0 ∧ reported = (s.chip.collisionReported && decide (l ≠ 0)) ∧
      all = spritesOn v s.chip l ∧ exec (.render l) s = .next t ∧ l < visibleLines v s.chip ∧ (s.chip.R 1).getLsbD 6 = true ∧
      spritesShown v s.chip = true ∧ all[4]? = some 4) ∧
    (spritesOn .B (chipOf .B [(1, 0x40)] []) 191).length ≤ 4 ∧
    (∃ (s t : State), exec (.render 191) s = .next t ∧ (s.chip.R 1).getLsbD 6 = false ∧ 191 + 1 = visibleLines .B s.chip) ∧
    (∃ (s t : State), exec (.render 191) s = .next t ∧ s.cfg.variant = .H ∧ spritesShown .H s.chip = false) ∧
    ∃ (s t : State), exec (.render 192) s = .next t ∧ visibleLines .B s.chip ≤ 192 := by
  obtain ⟨t, h, -⟩ := exists_of_nextWith (o := exec (.render 1) (idleState .B [(1, 0x40)] [])) (p := fun _ => true) (by decide)
  obtain ⟨t₂, h₂, -⟩ := exists_of_nextWith (o := exec (.render 191) (idleState .B [(1, 0x20)] [])) (p := fun _ => true) (by decide)
  obtain ⟨t₃, h₃, -⟩ := exists_of_nextWith (o := exec (.render 191) (idleState .H [(1, 0x40), (8, 2)] [])) (p := fun _ => true)
    (by decide)
  obtain ⟨t₄, h₄, -⟩ := exists_of_nextWith (o := exec (.render 192) (idleState .B [(1, 0x20)] [])) (p := fun _ => true) (by decide)
  exact ⟨⟨_, t, 1, .B, _, _, _, _, rfl, rfl, rfl, rfl, rfl, h, by decide, by decide, by decide, by decide⟩, by decide,
    ⟨_, t₂, h₂, by decide, by decide⟩, ⟨_, t₃, h₃, rfl, by decide⟩, _, t₄, h₄, by decide⟩

theorem witness_BitmapPixels : ∀ r0 : Byte, r0 ∈ [0x06, 0x08, 0x0A, 0x0E] →
    (idleState .H [(0, r0), (1, 0x40), (8, 2)] []).renders 191 ∧
    191 < visibleLines .H (chipOf .H [(0, r0), (1, 0x40), (8, 2)] []) ∧
    ((chipOf .H [(0, r0), (1, 0x40), (8, 2)] []).R 1).getLsbD 6 = true ∧
    commandMode (modeOf .H (chipOf .H [(0, r0), (1, 0x40), (8, 2)] [])) = true := by
  intro r0 h
  refine ⟨renders_of r0 (List.mem_cons_of_mem _ h), ?_⟩
  simp only [List.mem_cons, List.not_mem_nil, or_false] at h
  rcases h with rfl | rfl | rfl | rfl <;> decide

theorem witness_TablePixels : (∃ (s : State) (l : Nat) (v : Variant) (c : Chip) (px : List Byte) (byte : Nat → Byte)
      (name off : Nat → Nat → Nat), v = s.cfg.variant ∧ c = s.chip ∧ px = background v c l ∧
      (∀ a, byte a = s.byteAt (.main (a % if v = .H then 131072 else 16384))) ∧
      (∀ w k, name w k = (byte (nameBase v c + l / 8 * w + k)).toNat) ∧
      (∀ n row, off n row = l / 64 % 4 * 2048 + n * 8 + row) ∧
      s.renders l ∧ l < visibleLines v c ∧ (c.R 1).getLsbD 6 = true ∧ spritesShown v c = false ∧ modeOf v c = .G1) ∧
    [(0, 0), (2, 0), (0, 8), (2, 8), (0, 0x10), (2, 0x10), (0, 0x18)].map
        (fun r => modeOf .B (chipOf .B [(0, r.1), (1, r.2)] [])) =
      [Mode.G1, .G2, .MC, .BMC, .T1, .BT, .ILL] :=
  ⟨⟨idleState .H [(0, 0), (1, 0x40), (8, 2)] [], 191, .H, _, _, fun _ => _, fun _ _ => _, fun _ _ => _, rfl, rfl, rfl, fun _ => rfl,
    fun _ _ => rfl, fun _ _ => rfl, renders_of 0 (by decide), by decide⟩, by decide⟩

/-- With VRAM all 0 no sprite covers line 0 and every sprite covers line 1. -/
theorem witness_SpriteScan : (spritesOn .B (Chip.start .B) 0).length ≤ 4 ∧ (spritesOn .B (Chip.start .B) 1)[4]? = some 4 := by
  decide

theorem witness_SpritePriority : ∃ (s : State) (l : Nat) (v : Variant) (drawn : List Nat), v = s.cfg.variant ∧ s.renders l ∧
    l < visibleLines v s.chip ∧ (s.chip.R 1).getLsbD 6 = true ∧ spritesShown v s.chip = true ∧
    drawn = spritesDrawn s.cfg s.chip l ∧ drawn = [0, 1, 2, 3] :=
  ⟨idleState .B [(1, 0x40)] [], 8, .B, [0, 1, 2, 3], rfl,
    ⟨by decide, fun e => absurd e (by decide), fun e => absurd e (by decide)⟩, by decide⟩

/-- Each mode at the last pixel of its last row, in each of the two arrays. -/
theorem witness_PixelLayout : (∃ (c : Chip) (m : Mode) (a : Nat) (p : Place) (b : Byte), m = modeOf .H c ∧
      p = (if true then .exp (a % 65536) else .main (a % 131072)) ∧ b = c.readAt p ∧ m = .G4 ∧
      (a : Int) = 1023 % 1024 * 128 + 255 % 256 / 2) ∧
    (∃ (c : Chip) (m : Mode) (a : Nat) (p : Place), m = modeOf .H c ∧ p = (if false then .exp (a % 65536) else .main (a % 131072)) ∧
      m = .G5 ∧ (a : Int) = 1023 % 1024 * 128 + 511 % 512 / 4 ∧ pixelPlace c false 511 1023 = p) ∧
    (∃ (c : Chip) (a : Nat), modeOf .H c = .G6 ∧ (a : Int) = 511 / 2 % 2 * 65536 + 511 % 512 * 128 + 511 % 512 / 4) ∧
    ∃ (c : Chip) (a : Nat), modeOf .H c = .G7 ∧ (a : Int) = 255 % 2 * 65536 + 511 % 512 * 128 + 255 / 2 % 128 :=
  ⟨⟨chipOf .H [(0, 6)] [], _, 131071, _, _, rfl, rfl, rfl, by decide, by decide⟩,
    ⟨chipOf .H [(0, 8)] [], _, 131071, _, rfl, rfl, by decide, by decide, by decide⟩,
    ⟨chipOf .H [(0, 0x0A)] [], 131071, by decide, by decide⟩, ⟨chipOf .H [(0, 0x0E)] [], 131071, by decide, by decide⟩⟩

end Sys2Proof.Tests
end

section
/-! PROOFS of 00_scope: what one step does with the next call, and what decoding sees of the chip. -/

namespace Sys2Proof.Machine

/-! ### The step, one equation per case of the input and of the decoding -/

theorem step_of_input_nil {s : State} (hinput : s.input = []) : step s = .next s := by
  unfold step
  rw [hinput]

theorem step_of_decode_ok {s : State} {call : Call} {rest : List Call} {i : Instr} (hinput : s.input = call :: rest)
    (hdecode : decode s.cfg s.ctx call = .ok i) : step s = exec i { s with input := rest } := by
  have hfetch : s.fetch call = .ok i := hdecode
  simp only [step, hinput, hfetch]

theorem step_of_decode_error {s : State} {call : Call} {rest : List Call} {r : Reject} (hinput : s.input = call :: rest)
    (hdecode : decode s.cfg s.ctx call = .error r) : step s = .refused (refusalOf r) := by
  have hfetch : s.fetch call = .error r := hdecode
  simp only [step, hinput, hfetch]

/-! ### The decoding context, in the registers of the chip -/

@[simp] theorem ctx_phase (s : State) : s.ctx.phase = s.chip.phase := rfl

@[simp] theorem ctx_sel (s : State) : s.ctx.sel = statusSelect s.cfg.variant s.chip := rfl

@[simp] theorem ctx_dpm (s : State) : s.ctx.dpm = palettePort s.cfg.variant s.chip := rfl

theorem palettePort_of_ne_B {v : Variant} (hv : v ≠ .B) (c : Chip) : palettePort v c = (c.R 47).getLsbD 7 := by
  cases v with
  | B => exact absurd rfl hv
  | E => rfl
  | H => rfl

theorem statusSelect_of_ne_B {v : Variant} (hv : v ≠ .B) (c : Chip) : statusSelect v c = (c.R 15).extractLsb' 0 4 := by
  cases v with
  | B => exact absurd rfl hv
  | E => rfl
  | H => rfl

theorem toNat_statusSelect_of_ne_B {v : Variant} (hv : v ≠ .B) (c : Chip) :
    (statusSelect v c).toNat = (c.R 15).toNat % 16 := by
  simp [statusSelect_of_ne_B hv]

/-- Settles O1: each clause is the step's equation for that case of the input and of the decoding, or a field of the
decoding context read off the chip. -/
theorem stepRunsDecoded : Obligations.StepRunsDecoded := by
  intro s
  refine ⟨step_of_input_nil, fun call rest hinput => ⟨?_, ?_⟩, ctx_phase s, ctx_sel s, fun hv => ⟨?_, ?_⟩⟩
  · exact fun i hdecode => step_of_decode_ok hinput hdecode
  · exact fun r hdecode => step_of_decode_error hinput hdecode
  · rw [ctx_dpm, palettePort_of_ne_B hv]
  · rw [ctx_sel, toNat_statusSelect_of_ne_B hv]

end Sys2Proof.Machine
end

section
/-! PROOFS of 10_state: a step serves one call, changes no parameter and leaves a state the block can be in. -/

namespace Sys2Proof.Machine

/-! ### What a call leaves of the chip's invariant -/

theorem latchFirst_ok {v : Variant} {c : Chip} (h : c.ok v) : c.latchFirst.ok v := ok_congr h rfl rfl rfl rfl rfl rfl rfl

theorem setCursor_ok {v : Variant} {c : Chip} (h : c.ok v) (a : BitVec 6) : (c.setCursor a).ok v :=
  ok_congr h rfl rfl rfl rfl rfl rfl rfl

theorem clearFH_ok {v : Variant} {c : Chip} (h : c.ok v) : (clearFH c).ok v := ok_congr h rfl rfl rfl rfl rfl rfl rfl

theorem prefetch_ok {v : Variant} {c : Chip} (h : c.ok v) (b : Byte) : ({ c with prefetch := b } : Chip).ok v :=
  ok_congr h rfl rfl rfl rfl rfl rfl rfl

theorem prefetchNext_ok {v : Variant} {c : Chip} (h : c.ok v) : (prefetchNext v c).ok v :=
  advance_ok (prefetch_ok h (portRead v c))

theorem portWrite_ok {v : Variant} {c : Chip} (h : c.ok v) (b : Byte) : (portWrite v c b).ok v :=
  writeAt_ok h (portPlace_inside v c) b

/-- The opcode a restore derives is the one the saved chip runs. -/
theorem rederive_of_ok {v : Variant} {c : Chip} (h : c.ok v) : rederive c = c := by
  cases hengine : c.engine with
  | idle => simp only [rederive, hengine]
  | running op =>
    obtain ⟨-, -, hcode⟩ := running_of_ok h hengine
    simp only [rederive, hengine, hcode, Option.getD_some]
    rw [← hengine]

theorem resetDrawn_ok (v : Variant) (n : Nat) : (resetDrawn v n).ok v :=
  resetWith_ok v (tabulate_wf _ _) (tabulate_wf _ _) _ _ _

/-! ### What a call leaves of the state -/

/-- `t` comes from `s` by carrying out one call: the parameters and the calls to come are the same, and a state the block
can be in is followed by one. -/
structure ServedFrom (s t : State) : Prop where
  cfg : t.cfg = s.cfg
  input : t.input = s.input
  inv : s.Inv → t.Inv

/-- Every next state the outcome can be is one that carrying out a call in `s` leaves. -/
def Serves (s : State) (k : Host.Outcome State Fault Refusal) : Prop := ∀ t, k = .next t → ServedFrom s t

theorem serves_done {s : State} {c : Chip} (o : Output) (h : s.Inv → c.ok s.cfg.variant) : Serves s (s.done c o) := by
  rintro t ⟨⟩
  exact ⟨rfl, rfl, h⟩

theorem serves_doneDrawn {s : State} {c : Chip} (o : Output) (h : s.Inv → c.ok s.cfg.variant) :
    Serves s (s.doneDrawn c o) := by
  rintro t ⟨⟩
  exact ⟨rfl, rfl, h⟩

theorem serves_refused (s : State) (r : Refusal) : Serves s (.refused r) := by
  rintro t ⟨⟩

theorem serves_only {s : State} {v : Variant} {k : Host.Outcome State Fault Refusal}
    (h : s.cfg.variant = v → Serves s k) : Serves s (s.only v k) := by
  intro t ht
  obtain ⟨hv, hk⟩ := only_next ht
  exact h hv t hk

theorem serves_command (s : State) (b : Byte) : Serves s (s.command b) := serves_done _ fun h => regWrite_ok h _ b

/-! ### The meanings that branch -/

theorem serves_wd (d : Byte) (s : State) : Serves s (execWd d s) := by
  unfold execWd
  extract_lets c1 c2
  refine serves_done _ fun h => latchFirst_ok (advance_ok ?_)
  have h1 : c1.ok s.cfg.variant := portWrite_ok h d
  by_cases hw : s.cfg.writeUpdatesPrefetch = true
  · rw [show c2 = { c1 with prefetch := d } from if_pos hw]
    exact prefetch_ok h1 d
  · rw [show c2 = c1 from if_neg hw]
    exact h1

theorem serves_rsOtherH (s : State) : Serves s (execRsOtherH s) := by
  refine serves_only fun _ => ?_
  split_ifs
  · exact serves_done _ latchFirst_ok
  · exact serves_done _ latchFirst_ok
  · exact serves_doneDrawn _ latchFirst_ok

theorem serves_rsE (s : State) : Serves s (execRsE s) := by
  refine serves_only fun _ => ?_
  split_ifs
  · exact serves_done _ fun h => latchFirst_ok (clearFH_ok h)
  · exact serves_done _ latchFirst_ok

/-- The register pointed at is written, or is R17 itself and only advances: both keep the chip good. -/
theorem serves_wi (d : Byte) (s : State) : Serves s (execWi d s) := by
  unfold execWi
  extract_lets r c
  refine serves_only fun hv => serves_done _ fun h => ?_
  have hc : c.ok s.cfg.variant := by
    by_cases hr : r = 17
    · rw [show c = s.chip from if_pos hr]
      exact h
    · rw [show c = regWrite s.cfg s.chip r d from if_neg hr]
      exact regWrite_ok h r d
  rw [hv] at hc ⊢
  exact setR_ok hc (by decide) (by decide) _

theorem serves_render (l : Nat) (s : State) : Serves s (execRender l s) := by
  unfold execRender
  split
  · exact serves_refused s _
  · split
    · exact serves_refused s _
    · exact serves_done _ fun h => renderLine_ok h l

/-- A restore puts in a chip that is good by its own check, whatever the state before. -/
theorem serves_restore (c : Chip) (s : State) : Serves s (execRestore c s) := by
  unfold execRestore
  split_ifs with hok
  · refine serves_done _ fun _ => ?_
    rw [rederive_of_ok hok]
    exact hok
  · exact serves_refused s _

theorem serves_debugReadWrite (a : Nat) (w : Option Byte) (s : State) : Serves s (execDebugReadWrite a w s) := by
  cases w with
  | none => exact serves_done _ id
  | some b => exact serves_done _ fun h => writeAt_ok h (debugPlace_inside _ a) b

/-! ### Every instruction -/

/-- The rows of each port and of the driver by what they do to the chip; every command row is a write of R46. -/
theorem serves_exec (i : Instr) (s : State) : Serves s (exec i s) := by
  cases i with
  | waFirst p => exact serves_done _ fun h => ok_congr h rfl rfl rfl rfl rfl rfl rfl
  | waSetrd a => exact serves_done _ fun h => latchFirst_ok (prefetchNext_ok (setCursor_ok h a))
  | waSetwr a => exact serves_done _ fun h => latchFirst_ok (setCursor_ok h a)
  | waWreg _ r => exact serves_done _ fun h => latchFirst_ok (regWrite_ok h _ _)
  | wd d => exact serves_wd d s
  | wdPaletteE d => exact serves_only fun hv => serves_done _ fun h => hv ▸ latchFirst_ok (paletteByteE_ok (hv ▸ h) d)
  | wdPaletteH d => exact serves_only fun hv => serves_done _ fun h => hv ▸ latchFirst_ok (paletteByteH_ok (hv ▸ h) d)
  | rd => exact serves_done _ fun h => latchFirst_ok (prefetchNext_ok h)
  | rsS0 => exact serves_done _ fun h => latchFirst_ok (acknowledge_ok h)
  | rsS1H => exact serves_only fun _ => serves_done _ fun h => latchFirst_ok (clearFH_ok h)
  | rsS2H => exact serves_only fun _ => serves_doneDrawn _ latchFirst_ok
  | rsS7H => exact serves_only fun hv => serves_done _ fun h => hv ▸ latchFirst_ok (afterReadS7_ok (hv ▸ h))
  | rsOtherH => exact serves_rsOtherH s
  | rsE => exact serves_rsE s
  | wp d => exact serves_only fun hv => serves_done _ fun h => hv ▸ paletteByteH_ok (hv ▸ h) d
  | wi d => exact serves_wi d s
  | render l => exact serves_render l s
  | update => exact serves_only fun hv => serves_done _ fun h => hv ▸ updateCommand_ok (hv ▸ h)
  | reset => exact serves_doneDrawn _ fun _ => resetDrawn_ok _ _
  | snapshot => exact serves_done _ id
  | restore c => exact serves_restore c s
  | debugReadWrite a w => exact serves_debugReadWrite a w s
  | debugDump => exact serves_done _ id
  | stop _ | undefined1 _ | undefined2 _ | undefined3 _ | point _ | pset _ | srch _ | line _ | lmmv _ | lmmm _ | lmcm _
  | lmmc _ | hmmv _ | hmmm _ | ymmm _ | hmmc _ => exact serves_command s _
  | loImp _ | loAnd _ | loOr _ | loEor _ | loNot _ | loTimp _ | loTand _ | loTor _ | loTeor _ | loTnot _
  | loUndefined5 _ | loUndefined6 _ | loUndefined7 _ | loUndefined13 _ | loUndefined14 _ | loUndefined15 _ =>
    exact serves_command s _

/-! ### Every step -/

/-- A step takes the first call from the input and serves it; with no call to come it changes nothing. -/
theorem step_served {s t : State} (h : step s = .next t) : ServedFrom { s with input := s.input.tail } t := by
  cases hinput : s.input with
  | nil =>
    rw [step_of_input_nil hinput] at h
    cases h
    exact ⟨rfl, hinput, id⟩
  | cons call rest =>
    cases hdecode : decode s.cfg s.ctx call with
    | ok i =>
      rw [step_of_decode_ok hinput hdecode] at h
      exact serves_exec i _ t h
    | error r =>
      rw [step_of_decode_error hinput hdecode] at h
      cases h

/-- Settles O31: what serving a call does to the invariant, for the call the step takes. -/
theorem invKept : Obligations.InvKept := fun _ _ hinv hstep => (step_served hstep).inv hinv

/-- Settles O33: what serving a call leaves, for the call the step takes. -/
theorem configFixed : Obligations.ConfigFixed := fun _ _ hstep => ⟨(step_served hstep).cfg, (step_served hstep).input⟩

end Sys2Proof.Machine
end

section
/-! PROOFS of 20_memory: the byte a port address reaches, how it agrees with the engine's byte of a pixel, which
instructions leave memory alone, and what one step of SRCH and of LINE does. -/

namespace Sys2Proof.Machine

/-! ### The port address of variant H -/

theorem toNat_R14_low (c : Chip) : (c.R 14 &&& 0x07).toNat = (c.R 14).toNat % 8 := by
  rw [BitVec.toNat_and]
  exact Nat.and_two_pow_sub_one_eq_mod _ 3

theorem portAddress_lt (c : Chip) : portAddress c < 131072 := by
  have hcursor := c.cursor.isLt
  rw [portAddress, toNat_R14_low]
  omega

/-- The bank bits and the cursor do not overlap, so the sum of the port address is an `or`. -/
theorem portAddress_eq_or (c : Chip) : portAddress c = ((c.R 14).toNat % 8) <<< 14 ||| c.cursor.toNat := by
  rw [← Nat.shiftLeft_add_eq_or_of_lt c.cursor.isLt, Nat.shiftLeft_eq, portAddress, toNat_R14_low]

/-- On a 17-bit address the interleave is a rotation: bit 0 moves to bit 16. -/
theorem interleave_eq_or {a : Nat} (ha : a < 131072) : interleave a = ((a &&& 1) <<< 16) ||| (a >>> 1) := by
  have hhalf : a >>> 1 < 2 ^ 16 := by rw [Nat.shiftRight_one]; omega
  rw [← Nat.shiftLeft_add_eq_or_of_lt hhalf, Nat.shiftLeft_eq, Nat.and_one_is_mod, Nat.shiftRight_one, interleave]

theorem portPlace_H (c : Chip) :
    portPlace .H c =
      if (c.R 45).getLsbD 6 then .exp (portAddress c % 65536)
      else if modeOf .H c = .G6 ∨ modeOf .H c = .G7 then .main (interleave (portAddress c))
      else .main (portAddress c) := by
  rw [portPlace]
  congr 1
  cases modeOf .H c <;> rfl

/-- Settles O19: R102's cases of `portPlace`, with the sums of the model read as bit operations. -/
theorem portAddressReaches : Obligations.PortAddress := by
  intro c
  refine ⟨rfl, rfl, fun a ha => ?_⟩
  rw [portPlace_H, interleave_eq_or (portAddress_lt c), portAddress_eq_or, ← ha]

/-! ### The engine's byte address of a pixel with natural coordinates -/

theorem lowBits_natCast (n k : Nat) : lowBits n k = n % 2 ^ k := by
  rw [lowBits]
  exact_mod_cast Int.toNat_natCast (n % 2 ^ k)

theorem vaddr_G6_natCast (x y : Nat) : vaddr .G6 x y = x / 2 % 2 * 65536 + y % 512 * 128 + x % 512 / 4 := by
  have hhalf : (x : Int) / 2 = (x / 2 : Nat) := rfl
  simp only [vaddr, hhalf, lowBits_natCast, Nat.reducePow]

theorem vaddr_G7_natCast (x y : Nat) : vaddr .G7 x y = x % 2 * 65536 + y % 512 * 128 + x / 2 % 128 := by
  have hhalf : (x : Int) / 2 = (x / 2 : Nat) := rfl
  simp only [vaddr, hhalf, lowBits_natCast, Nat.reducePow]

/-- Settles O21: both sides put the parity of the byte's column in bit 16 and the row above half the column. -/
theorem interleaveAgrees : Obligations.InterleaveAgrees := by
  refine fun x y hy => ⟨fun hx => ?_, fun hx => ?_⟩
  · rw [vaddr_G6_natCast, interleave]
    omega
  · rw [vaddr_G7_natCast, interleave]
    omega

/-! ### Operations that leave every byte of memory -/

@[simp] theorem readAt_paletteByteE (c : Chip) (b : Byte) (p : Place) : (paletteByteE c b).readAt p = c.readAt p := by
  obtain ⟨r, pal, ph, pend, heq, -⟩ := paletteByteE_eq c b
  rw [heq]
  exact readAt_congr rfl rfl p

@[simp] theorem readAt_paletteByteH (c : Chip) (b : Byte) (p : Place) : (paletteByteH c b).readAt p = c.readAt p := by
  obtain ⟨r, pal, ph, pend, heq, -⟩ := paletteByteH_eq c b
  rw [heq]
  exact readAt_congr rfl rfl p

@[simp] theorem readAt_prefetchNext (v : Variant) (c : Chip) (p : Place) : (prefetchNext v c).readAt p = c.readAt p :=
  (readAt_advance v _ p).trans (readAt_congr rfl rfl p)

@[simp] theorem readAt_renderLine (cfg : Config) (c : Chip) (l : Nat) (p : Place) :
    (renderLine cfg c l).1.readAt p = c.readAt p := by
  obtain ⟨x, f, i, r, heq⟩ := renderLine_eq cfg c l
  rw [heq]
  exact readAt_congr rfl rfl p

@[simp] theorem readAt_endLMCM (c : Chip) (p : Place) : (endLMCM c).readAt p = c.readAt p := by
  simp only [endLMCM, readAt_finish, readAt_writeBack]

@[simp] theorem readAt_loadPixelLMCM (c : Chip) (p : Place) : (loadPixelLMCM c).readAt p = c.readAt p :=
  readAt_congr rfl rfl p

/-- LMCM reads memory and writes none. -/
@[simp] theorem readAt_transferLMCM (c : Chip) (p : Place) : (transferLMCM c).readAt p = c.readAt p := by
  obtain ⟨m, -, heq | heq⟩ := transferLMCM_cases c
  · rw [heq, readAt_endLMCM, readAt_setMmc]
  · rw [heq, readAt_loadPixelLMCM, readAt_setMmc]

@[simp] theorem readAt_afterReadS7 (c : Chip) (p : Place) : (afterReadS7 c).readAt p = c.readAt p := by
  unfold afterReadS7
  split_ifs
  · exact readAt_transferLMCM c p
  · rfl

/-- Without a Command Engine a register write reaches no byte of memory. -/
theorem readAt_regWrite_of_ne_H {cfg : Config} (hv : cfg.variant ≠ .H) (c : Chip) (n : Nat) (b : Byte) (p : Place) :
    (regWrite cfg c n b).readAt p = c.readAt p := by
  unfold regWrite
  split
  · unfold regWriteB
    split_ifs
    · rfl
    · exact readAt_setR c n b p
  · obtain ⟨r, l, heq⟩ := regWriteE_eq cfg c n b
    rw [heq]
    exact readAt_congr rfl rfl p
  · exact absurd ‹_› hv

/-! ### Calls that leave every byte of memory -/

/-- Every next state the outcome can be has the memory of `s`. -/
def KeepsMemory (s : State) (k : Host.Outcome State Fault Refusal) : Prop :=
  ∀ t, k = .next t → ∀ p, t.byteAt p = s.byteAt p

theorem keepsMemory_done {s : State} {c : Chip} (o : Output) (h : ∀ p, c.readAt p = s.chip.readAt p) :
    KeepsMemory s (s.done c o) := by
  rintro t ⟨⟩
  exact h

theorem keepsMemory_doneDrawn {s : State} {c : Chip} (o : Output) (h : ∀ p, c.readAt p = s.chip.readAt p) :
    KeepsMemory s (s.doneDrawn c o) := by
  rintro t ⟨⟩
  exact h

theorem keepsMemory_refused (s : State) (r : Refusal) : KeepsMemory s (.refused r) := by
  rintro t ⟨⟩

theorem keepsMemory_only {s : State} {v : Variant} {k : Host.Outcome State Fault Refusal}
    (h : s.cfg.variant = v → KeepsMemory s k) : KeepsMemory s (s.only v k) := by
  intro t ht
  obtain ⟨hv, hk⟩ := only_next ht
  exact h hv t hk

theorem keepsMemory_command {s : State} (hv : s.cfg.variant ≠ .H) (b : Byte) : KeepsMemory s (s.command b) :=
  keepsMemory_done _ (readAt_regWrite_of_ne_H hv _ _ _)

theorem keepsMemory_rsOtherH (s : State) : KeepsMemory s (execRsOtherH s) := by
  refine keepsMemory_only fun _ => ?_
  split_ifs
  · exact keepsMemory_done _ (readAt_latchFirst _)
  · exact keepsMemory_done _ (readAt_latchFirst _)
  · exact keepsMemory_doneDrawn _ (readAt_latchFirst _)

theorem keepsMemory_rsE (s : State) : KeepsMemory s (execRsE s) := by
  refine keepsMemory_only fun _ => ?_
  split_ifs
  · exact keepsMemory_done _ fun p => by rw [readAt_latchFirst, readAt_clearFH]
  · exact keepsMemory_done _ (readAt_latchFirst _)

theorem keepsMemory_render (l : Nat) (s : State) : KeepsMemory s (execRender l s) := by
  unfold execRender
  split
  · exact keepsMemory_refused s _
  · split
    · exact keepsMemory_refused s _
    · exact keepsMemory_done _ (readAt_renderLine _ _ l)

/-- The rows that may write memory in every variant drop out; those that may in variant H only are register writes in
the other variants, or are absent there. -/
theorem keepsMemory_exec (i : Instr) (s : State) (h : mayWriteMemory s.cfg.variant i = false) :
    KeepsMemory s (exec i s) := by
  cases i with
  | wd _ | reset | restore _ => exact Bool.noConfusion h
  | waFirst _ => exact keepsMemory_done _ fun p => readAt_congr rfl rfl p
  | waSetrd a => exact keepsMemory_done _ fun p => by rw [readAt_latchFirst, readAt_prefetchNext, readAt_setCursor]
  | waSetwr a => exact keepsMemory_done _ fun p => by rw [readAt_latchFirst, readAt_setCursor]
  | waWreg _ r =>
    exact keepsMemory_done _ fun p => by rw [readAt_latchFirst, readAt_regWrite_of_ne_H (beq_eq_false_iff_ne.mp h)]
  | wdPaletteE d =>
    exact keepsMemory_only fun _ => keepsMemory_done _ fun p => by rw [readAt_latchFirst, readAt_paletteByteE]
  | wdPaletteH d =>
    exact keepsMemory_only fun _ => keepsMemory_done _ fun p => by rw [readAt_latchFirst, readAt_paletteByteH]
  | rd => exact keepsMemory_done _ fun p => by rw [readAt_latchFirst, readAt_prefetchNext]
  | rsS0 => exact keepsMemory_done _ fun p => by rw [readAt_latchFirst, readAt_acknowledge]
  | rsS1H => exact keepsMemory_only fun _ => keepsMemory_done _ fun p => by rw [readAt_latchFirst, readAt_clearFH]
  | rsS2H => exact keepsMemory_only fun _ => keepsMemory_doneDrawn _ (readAt_latchFirst _)
  | rsS7H => exact keepsMemory_only fun _ => keepsMemory_done _ fun p => by rw [readAt_latchFirst, readAt_afterReadS7]
  | rsOtherH => exact keepsMemory_rsOtherH s
  | rsE => exact keepsMemory_rsE s
  | wp d => exact keepsMemory_only fun _ => keepsMemory_done _ (readAt_paletteByteH _ d)
  | wi _ | update => exact keepsMemory_only fun hv => absurd hv (beq_eq_false_iff_ne.mp h)
  | render l => exact keepsMemory_render l s
  | snapshot | debugDump => exact keepsMemory_done _ fun _ => rfl
  | debugReadWrite a w =>
    cases w with
    | none => exact keepsMemory_done _ fun _ => rfl
    | some _ => exact Bool.noConfusion h
  | stop _ | undefined1 _ | undefined2 _ | undefined3 _ | point _ | pset _ | srch _ | line _ | lmmv _ | lmmm _ | lmcm _
  | lmmc _ | hmmv _ | hmmm _ | ymmm _ | hmmc _ => exact keepsMemory_command (beq_eq_false_iff_ne.mp h) _
  | loImp _ | loAnd _ | loOr _ | loEor _ | loNot _ | loTimp _ | loTand _ | loTor _ | loTeor _ | loTnot _
  | loUndefined5 _ | loUndefined6 _ | loUndefined7 _ | loUndefined13 _ | loUndefined14 _ | loUndefined15 _ =>
    exact keepsMemory_command (beq_eq_false_iff_ne.mp h) _

/-- Settles O22: `keepsMemory_exec`, for the next state at hand. -/
theorem onlyTheseWriteMemory : Obligations.OnlyTheseWriteMemory := fun i s t hnext hmay =>
  keepsMemory_exec i s hmay t hnext

/-! ### The step of SRCH -/

theorem ofNat_lowBits_eight (x : Int) : BitVec.ofNat 8 (lowBits x 8) = BitVec.ofInt 8 x := by
  have hnonneg : 0 ≤ x % 2 ^ 8 := Int.emod_nonneg x (by decide)
  have hlt : x % 2 ^ 8 < 2 ^ 8 := Int.emod_lt_of_pos x (by decide)
  apply BitVec.eq_of_toNat_eq
  rw [BitVec.toNat_ofInt, BitVec.toNat_ofNat, lowBits, Nat.mod_eq_of_lt (by omega)]
  rfl

/-- S#9 shows bit 8 of the column in its bit 0, the other bits 1. -/
theorem or_ofNat_lowBits_one (x : Int) :
    (0xFE : Byte) ||| BitVec.ofNat 8 (lowBits x 1) = if x % 2 = 1 then 0xFF else 0xFE := by
  rcases Int.emod_two_eq_zero_or_one x with h | h <;> simp [lowBits, h]

/-- The end of SRCH, whose column is all it keeps of the Command Unit State. -/
theorem endSRCH_eq (c : Chip) (m : Mmc) (bd : Bool) :
    endSRCH { c with mmc := m, status := { c.status with bd := bd } } =
      finish { c with status := { c.status with
        bd := bd, s8 := BitVec.ofInt 8 m.ASX, s9 := if m.ASX / 256 % 2 = 1 then 0xFF else 0xFE } } := by
  rw [endSRCH]
  simp only [ofNat_lowBits_eight, or_ofNat_lowBits_one]
  rfl

theorem stepSRCH_eq (c : Chip) :
    stepSRCH c =
      if (decide (pointAt c c.mmc.MXS c.mmc.ASX c.mmc.SY = c.mmc.CL) != decide (c.mmc.ANX = 1)) = true then
        endSRCH { c with mmc := c.mmc, status := { c.status with bd := true } }
      else if crosses (c.mmc.ASX + c.mmc.TX) c.mmc.MX = true then
        endSRCH { c with mmc := { c.mmc with ASX := c.mmc.ASX + c.mmc.TX }, status := { c.status with bd := false } }
      else c.setMmc { c.mmc with ASX := c.mmc.ASX + c.mmc.TX } := rfl

/-! ### The step of LINE -/

/-- The Command Unit State of LINE after one pixel: the axis MAJ names steps always, the other when the error goes below
0. -/
theorem lineCounters_eq (m : Mmc) :
    lineCounters m = { m with
      DX := if m.arg.getLsbD 0 = false ∨ m.ASX - m.NY < 0 then m.DX + m.TX else m.DX
      DY := if m.arg.getLsbD 0 = true ∨ m.ASX - m.NY < 0 then m.DY + m.TY else m.DY
      ASX := (if m.ASX - m.NY < 0 then m.ASX - m.NY + m.NX else m.ASX - m.NY) % 1024
      ADX := m.ADX + 1 } := by
  have hlow : ∀ x : Int, (lowBits x 10 : Int) = x % 1024 := fun x =>
    Int.toNat_of_nonneg (Int.emod_nonneg x (by decide))
  rw [lineCounters]
  cases m.arg.getLsbD 0 <;> simp [hlow]

theorem stepLINE_eq (c : Chip) :
    stepLINE c =
      if c.mmc.ADX = c.mmc.NX ∨ crosses (lineCounters c.mmc).DX c.mmc.MX = true then
        finish (writeBack 38 (lineCounters c.mmc).DY (psetAt c c.mmc.MXD c.mmc.DX c.mmc.DY c.mmc.CL c.mmc.LO))
      else (psetAt c c.mmc.MXD c.mmc.DX c.mmc.DY c.mmc.CL c.mmc.LO).setMmc (lineCounters c.mmc) := rfl

/-- Settles O49: the equations of the two steps, with the end of SRCH and the counters of LINE in the statement's terms. -/
theorem searchAndLineSteps : Obligations.SearchAndLineSteps := by
  rintro c m rfl
  refine ⟨?_, ?_⟩
  · rintro hit endAt rfl hend
    rw [stepSRCH_eq, endSRCH_eq, endSRCH_eq, hend, hend]
  · rintro minor m' d rfl rfl rfl
    simp only [stepLINE_eq, lineCounters_eq, decide_eq_true_eq]

end Sys2Proof.Machine
end

section
/-! PROOFS of 30_encoding: decoding and encoding undo each other, and the rows of a command byte are register writes of
R46. -/

namespace Sys2Proof.Machine

open Sys2Proof.Laws

/-! ### The decoder answers a row exactly when the row exists in the machine -/

theorem wf_iff {cfg : Config} {i : Instr} :
    i.wf cfg = true ↔ i.inVariant cfg.variant = true ∧ i.lineInRange cfg = true ∧ i.savedState cfg.variant = true := by
  simp only [Instr.wf, Bool.and_eq_true, and_assoc]

theorem decode_eq_ok_iff {cfg : Config} {ctx : Ctx} {call : Call} {i : Instr} :
    decode cfg ctx call = .ok i ↔ decodeRow cfg.variant ctx call = i ∧ i.wf cfg = true := by
  simp only [decode]
  constructor
  · intro h
    split_ifs at h with hvariant hline hsaved
    cases h
    rw [Bool.not_eq_false] at hvariant hline hsaved
    exact ⟨rfl, wf_iff.mpr ⟨hvariant, hline, hsaved⟩⟩
  · rintro ⟨rfl, hwf⟩
    obtain ⟨hvariant, hline, hsaved⟩ := wf_iff.mp hwf
    simp [hvariant, hline, hsaved]

/-! ### From an instruction to its call and back -/

/-- The laws of the single rows, as one lemma over the instruction. -/
theorem decodeRow_encode (i : Instr) : RoundTrip.Statement i := by
  cases i with
  | waFirst p => exact RoundTrip.waFirst p
  | waSetrd a => exact RoundTrip.waSetrd a
  | waSetwr a => exact RoundTrip.waSetwr a
  | waWreg sub r => exact RoundTrip.waWreg sub r
  | wd d => exact RoundTrip.wd d
  | wdPaletteE d => exact RoundTrip.wdPaletteE d
  | wdPaletteH d => exact RoundTrip.wdPaletteH d
  | rd => exact RoundTrip.rd
  | rsS0 => exact RoundTrip.rsS0
  | rsS1H => exact RoundTrip.rsS1H
  | rsS2H => exact RoundTrip.rsS2H
  | rsS7H => exact RoundTrip.rsS7H
  | rsOtherH => exact RoundTrip.rsOtherH
  | rsE => exact RoundTrip.rsE
  | wp d => exact RoundTrip.wp d
  | wi d => exact RoundTrip.wi d
  | render l => exact RoundTrip.render l
  | update => exact RoundTrip.update
  | reset => exact RoundTrip.reset
  | snapshot => exact RoundTrip.snapshot
  | restore c => exact RoundTrip.restore c
  | debugReadWrite a w => exact RoundTrip.debugReadWrite a w
  | debugDump => exact RoundTrip.debugDump
  | stop x => exact RoundTrip.stop x
  | undefined1 x => exact RoundTrip.undefined1 x
  | undefined2 x => exact RoundTrip.undefined2 x
  | undefined3 x => exact RoundTrip.undefined3 x
  | point x => exact RoundTrip.point x
  | pset l => exact RoundTrip.pset l
  | srch x => exact RoundTrip.srch x
  | line l => exact RoundTrip.line l
  | lmmv l => exact RoundTrip.lmmv l
  | lmmm l => exact RoundTrip.lmmm l
  | lmcm x => exact RoundTrip.lmcm x
  | lmmc l => exact RoundTrip.lmmc l
  | hmmv x => exact RoundTrip.hmmv x
  | hmmm x => exact RoundTrip.hmmm x
  | ymmm x => exact RoundTrip.ymmm x
  | hmmc x => exact RoundTrip.hmmc x
  | loImp cm => exact RoundTrip.loImp cm
  | loAnd cm => exact RoundTrip.loAnd cm
  | loOr cm => exact RoundTrip.loOr cm
  | loEor cm => exact RoundTrip.loEor cm
  | loNot cm => exact RoundTrip.loNot cm
  | loTimp cm => exact RoundTrip.loTimp cm
  | loTand cm => exact RoundTrip.loTand cm
  | loTor cm => exact RoundTrip.loTor cm
  | loTeor cm => exact RoundTrip.loTeor cm
  | loTnot cm => exact RoundTrip.loTnot cm
  | loUndefined5 cm => exact RoundTrip.loUndefined5 cm
  | loUndefined6 cm => exact RoundTrip.loUndefined6 cm
  | loUndefined7 cm => exact RoundTrip.loUndefined7 cm
  | loUndefined13 cm => exact RoundTrip.loUndefined13 cm
  | loUndefined14 cm => exact RoundTrip.loUndefined14 cm
  | loUndefined15 cm => exact RoundTrip.loUndefined15 cm

/-- Settles O2: the row of the call is the instruction (`decodeRow_encode`), and being well-formed it is answered. -/
theorem decodeEncode : Obligations.DecodeEncode := by
  intro cfg ctx i hwf hfits
  obtain ⟨hvariant, -, -⟩ := wf_iff.mp hwf
  exact decode_eq_ok_iff.mpr ⟨decodeRow_encode i cfg.variant ctx hvariant hfits, hwf⟩

/-! ### From a call to its instruction and back: the bytes that name several rows -/

theorem extractLsb'_one_eq_ofBool {w : Nat} (b : BitVec w) (k : Nat) :
    b.extractLsb' k 1 = BitVec.ofBool (b.getLsbD k) := by
  apply BitVec.eq_of_getLsbD_eq
  intro j hj
  obtain rfl : j = 0 := by omega
  simp

/-- A byte of the address port: bit 7, bit 6 and the six bits of the operand (30_encoding R141). -/
theorem bits_append_operand (b : Byte) :
    BitVec.ofBool (b.getLsbD 7) ++ b.extractLsb' 6 1 ++ b.extractLsb' 0 6 = b := by
  rw [← extractLsb'_one_eq_ofBool, BitVec.extractLsb'_append_extractLsb'_eq_extractLsb' (by rfl)]
  exact BitVec.extractLsb'_append_extractLsb'

/-- Bits 7:6 select the row, and are the bits its encoding puts there. -/
theorem encode_decodeSecond (b : Byte) : encode (decodeSecond b) = .wa b := by
  have hb := bits_append_operand b
  unfold decodeSecond
  split_ifs with h7 h6
  · rw [h7] at hb
    exact congrArg Call.wa hb
  · rw [Bool.not_eq_true] at h7
    rw [extractLsb'_one_eq_ofBool, h7, h6] at hb
    exact congrArg Call.wa hb
  · rw [Bool.not_eq_true] at h7 h6
    rw [extractLsb'_one_eq_ofBool, h7, h6] at hb
    exact congrArg Call.wa hb

/-- The opcode selects the row, and is the nibble its encoding puts above the operand. -/
theorem encode_decodeCommand (b : Byte) : encode (decodeCommand b) = .cmd b := by
  have hb : b.extractLsb' 4 4 ++ b.extractLsb' 0 4 = b := BitVec.extractLsb'_append_extractLsb'
  unfold decodeCommand
  generalize b.extractLsb' 4 4 = opcode, b.extractLsb' 0 4 = operand at hb ⊢
  subst hb
  obtain ⟨⟨n, hn⟩⟩ := opcode
  interval_cases n <;> rfl

/-- The logical operation selects the row, and is the nibble its encoding puts below the operand. -/
theorem encode_decodeLogical (b : Byte) : encode (decodeLogical b) = .lo b := by
  have hb : b.extractLsb' 4 4 ++ b.extractLsb' 0 4 = b := BitVec.extractLsb'_append_extractLsb'
  unfold decodeLogical
  generalize b.extractLsb' 4 4 = opcode, b.extractLsb' 0 4 = operation at hb ⊢
  subst hb
  obtain ⟨⟨n, hn⟩⟩ := operation
  interval_cases n <;> rfl

theorem encode_decodeData (v : Variant) (dpm : Bool) (b : Byte) : encode (decodeData v dpm b) = .wd b := by
  cases v <;> cases dpm <;> rfl

theorem encode_decodeStatus (v : Variant) (sel : Nibble) : encode (decodeStatus v sel) = .rs := by
  cases v with
  | B => rfl
  | E | H =>
    simp only [decodeStatus]
    split_ifs <;> rfl

/-- A call whose port has one row is that row's encoding; the other ports are the lemmas above. -/
theorem encode_decodeRow (v : Variant) (ctx : Ctx) (call : Call) : encode (decodeRow v ctx call) = call := by
  cases call with
  | wa b =>
    obtain ⟨phase, dpm, sel⟩ := ctx
    cases phase with
    | first => rfl
    | second => exact encode_decodeSecond b
  | wd b => exact encode_decodeData v ctx.dpm b
  | rs => exact encode_decodeStatus v ctx.sel
  | cmd b => exact encode_decodeCommand b
  | lo b => exact encode_decodeLogical b
  | rd | wp _ | wi _ | render _ | update | reset | snapshot | restore _ | debug _ _ | dump => rfl

/-! ### The rows of a byte written to R46 -/

/-- The byte of a call of format CMD or LO, the two that write R46 (30_encoding R144, R151). -/
def commandByte : Call → Option Byte
  | .cmd b | .lo b => some b
  | _ => none

/-- A row of format CMD or LO is selected by its byte alone. -/
theorem fits_of_commandByte {i : Instr} {b : Byte} (h : commandByte (encode i) = some b) (v : Variant) (ctx : Ctx) :
    i.fits v ctx = true := by
  cases i with
  | waFirst _ | waSetrd _ | waSetwr _ | waWreg _ _ | wd _ | wdPaletteE _ | wdPaletteH _
  | rsS0 | rsS1H | rsS2H | rsS7H | rsOtherH | rsE => cases h
  | _ => rfl

/-- The one effect of a row of format CMD or LO is the write of its byte to R46. -/
theorem exec_of_commandByte {i : Instr} {b : Byte} (h : commandByte (encode i) = some b) (s : State) :
    exec i s = s.command b := by
  cases i with
  | stop _ | undefined1 _ | undefined2 _ | undefined3 _ | point _ | pset _ | srch _ | line _ | lmmv _ | lmmm _ | lmcm _
  | lmmc _ | hmmv _ | hmmm _ | ymmm _ | hmmc _
  | loImp _ | loAnd _ | loOr _ | loEor _ | loNot _ | loTimp _ | loTand _ | loTor _ | loTeor _ | loTnot _
  | loUndefined5 _ | loUndefined6 _ | loUndefined7 _ | loUndefined13 _ | loUndefined14 _ | loUndefined15 _ =>
    cases h
    rfl
  | _ => cases h

theorem commandByte_decodeCommand (b : Byte) : commandByte (encode (decodeCommand b)) = some b :=
  congrArg commandByte (encode_decodeCommand b)

theorem commandByte_decodeLogical (b : Byte) : commandByte (encode (decodeLogical b)) = some b :=
  congrArg commandByte (encode_decodeLogical b)

theorem command_eq_after (s : State) (b : Byte) :
    s.command b = s.after (regWrite s.cfg s.chip (regSelect s.cfg.variant 46) b) .none := rfl

/-- Settles O6: the row of the byte, in either format, names that byte, and so runs as its write to R46. -/
theorem commandRowsAreRegisterWrites : Obligations.CommandRowsAreRegisterWrites := fun b s =>
  ⟨(exec_of_commandByte (commandByte_decodeCommand b) s).trans (command_eq_after s b),
    (exec_of_commandByte (commandByte_decodeLogical b) s).trans (command_eq_after s b)⟩

/-! ### The row of a call fits the context that selected it -/

theorem fits_decodeSecond (v : Variant) {ctx : Ctx} (h : ctx.phase = .second) (b : Byte) :
    (decodeSecond b).fits v ctx = true := by
  unfold decodeSecond
  split_ifs <;> simp [Instr.fits, h]

theorem fits_decodeData (v : Variant) (ctx : Ctx) (b : Byte) : (decodeData v ctx.dpm b).fits v ctx = true := by
  cases v <;> cases h : ctx.dpm <;> simp [decodeData, Instr.fits, h]

theorem fits_decodeStatus (v : Variant) (ctx : Ctx) : (decodeStatus v ctx.sel).fits v ctx = true := by
  cases v with
  | B => rfl
  | E | H =>
    simp only [decodeStatus]
    split_ifs <;> simp_all [Instr.fits]

theorem fits_decodeRow (v : Variant) (ctx : Ctx) (call : Call) : (decodeRow v ctx call).fits v ctx = true := by
  cases call with
  | wa b =>
    cases h : ctx.phase with
    | first => simp [decodeRow, Instr.fits, h]
    | second => simpa only [decodeRow, h] using fits_decodeSecond v h b
  | wd b => exact fits_decodeData v ctx b
  | rs => exact fits_decodeStatus v ctx
  | cmd b => exact fits_of_commandByte (commandByte_decodeCommand b) v ctx
  | lo b => exact fits_of_commandByte (commandByte_decodeLogical b) v ctx
  | rd | wp _ | wi _ | render _ | update | reset | snapshot | restore _ | debug _ _ | dump => rfl

/-- Settles O3: an answer is the row of the call, which exists in the machine (`decode_eq_ok_iff`), encodes to the call
and fits the context. -/
theorem encodeDecode : Obligations.EncodeDecode := by
  intro cfg ctx call i hdecode
  obtain ⟨rfl, hwf⟩ := decode_eq_ok_iff.mp hdecode
  exact ⟨encode_decodeRow cfg.variant ctx call, hwf, fits_decodeRow cfg.variant ctx call⟩

/-! ### Bytes of the spec -/

/-- Settles O5: each byte is the encoding of its row (30_encoding R141, R144, R151), so `decodeRow_encode` gives the row
back; what is computed is the encoding of the nine operands and that each row fits its context. -/
theorem decodeWords : Obligations.DecodeWords :=
  ⟨decodeRow_encode (.waFirst 0b01010011) .B _ rfl rfl,
    decodeRow_encode (.waSetrd 0b010010) .B _ rfl rfl,
    decodeRow_encode (.waSetwr 0b010010) .E _ rfl rfl,
    decodeRow_encode (.waWreg 0 0b101110) .H _ rfl rfl,
    decodeRow_encode (.waWreg 1 0b101110) .H _ rfl rfl,
    decodeRow_encode (.wdPaletteE 0x0F) .E _ rfl rfl,
    decodeRow_encode .rsS7H .H _ rfl rfl,
    decodeRow_encode (.lmmv 0b0011) .H _ rfl rfl,
    decodeRow_encode (.loTor 0b1000) .H _ rfl rfl⟩

end Sys2Proof.Machine
end

section
/-! PROOFS of 40_port_protocol: what each port access does to the chip, the latch phase after every instruction, runs of
data writes and of the unlock sequence, and the calls that are turned away. -/

namespace Sys2Proof.Machine

/-! ### Bit fields of a byte -/

theorem toNat_and_lowMask (b : Byte) {k : Nat} (hk : k ≤ 8) :
    (b &&& BitVec.ofNat 8 (2 ^ k - 1)).toNat = b.toNat % 2 ^ k := by
  have hmask : 2 ^ k - 1 < 2 ^ 8 :=
    lt_of_lt_of_le (Nat.sub_lt (Nat.two_pow_pos k) Nat.one_pos) (Nat.pow_le_pow_right (by decide) hk)
  rw [BitVec.toNat_and, BitVec.toNat_ofNat, Nat.mod_eq_of_lt hmask, Nat.and_two_pow_sub_one_eq_mod]

/-- A pointer in the low `k` bits of a byte moves on by one and wraps. -/
theorem lowMask_add_one (b : Byte) {k : Nat} (hk : k ≤ 8) :
    (b &&& BitVec.ofNat 8 (2 ^ k - 1)) + 1 &&& BitVec.ofNat 8 (2 ^ k - 1) =
      BitVec.ofNat 8 ((b.toNat % 2 ^ k + 1) % 2 ^ k) := by
  have hle : 2 ^ k ≤ 2 ^ 8 := Nat.pow_le_pow_right (by decide) hk
  apply BitVec.eq_of_toNat_eq
  rw [toNat_and_lowMask _ hk, BitVec.toNat_add, toNat_and_lowMask _ hk, BitVec.toNat_ofNat,
    Nat.mod_eq_of_lt (lt_of_lt_of_le (Nat.mod_lt _ (Nat.two_pow_pos k)) hle),
    Nat.mod_mod_of_dvd _ (pow_dvd_pow 2 hk)]
  rfl

theorem toNat_and_0x3F (b : Byte) : (b &&& 0x3F).toNat = b.toNat % 64 := toNat_and_lowMask b (k := 6) (by decide)

theorem toNat_and_0x0F (b : Byte) : (b &&& 0x0F).toNat = b.toNat % 16 := toNat_and_lowMask b (k := 4) (by decide)

theorem and_0x3F_add_one (b : Byte) : (b &&& 0x3F) + 1 &&& 0x3F = BitVec.ofNat 8 ((b.toNat % 64 + 1) % 64) :=
  lowMask_add_one b (k := 6) (by decide)

theorem and_0x0F_add_one (b : Byte) : (b &&& 0x0F) + 1 &&& 0x0F = BitVec.ofNat 8 ((b.toNat % 16 + 1) % 16) :=
  lowMask_add_one b (k := 4) (by decide)

theorem and_0x07_add_one (b : Byte) : (b &&& 0x07) + 1 &&& 0x07 = BitVec.ofNat 8 ((b.toNat % 8 + 1) % 8) :=
  lowMask_add_one b (k := 3) (by decide)

/-! ### Registers and outcomes -/

theorem setR_R_self (c : Chip) (n : Nat) : c.setR n (c.R n) = c := by
  have hreg : c.reg.setIfInBounds n (c.R n) = c.reg := by
    apply Vector.ext
    intro i hi
    rw [Vector.getElem_setIfInBounds]
    split_ifs with h
    · subst h
      simp [Chip.R, hi]
    · rfl
  rw [Chip.setR, hreg]

theorem only_done_eq_after {s : State} {v : Variant} (hv : s.cfg.variant = v) (c : Chip) (o : Output) :
    s.only v (s.done c o) = s.after c o := only_of_eq _ hv

/-! ### The advance of the cursor -/

/-- `Advance()` of R201 in numbers: the cursor moves by the increment; the carry reaches R14. -/
theorem advance_eq_carry (v : Variant) (c : Chip) :
    advance v c =
      { (if v = .H ∧ c.cursor.toNat = 16383 ∧ commandMode (modeOf .H c) = true
          then c.setR 14 (BitVec.ofNat 8 (((c.R 14).toNat % 8 + 1) % 8)) else c) with
        cursor := c.cursor + increment v c } := by
  have hlast : c.cursor = 0x3FFF ↔ c.cursor.toNat = 16383 := BitVec.toNat_inj.symm
  cases v with
  | B | E => simp [advance]
  | H =>
    simp only [advance, carryR14, and_0x07_add_one, hlast, true_and, ite_and]

@[simp] theorem advance_cursor (v : Variant) (c : Chip) : (advance v c).cursor = c.cursor + increment v c := by
  rw [advance_eq_carry]

theorem advance_reg (v : Variant) (c : Chip) :
    (advance v c).reg =
      if v = .H ∧ c.cursor.toNat = 16383 ∧ commandMode (modeOf .H c) = true
      then c.reg.setIfInBounds 14 (BitVec.ofNat 8 (((c.R 14).toNat % 8 + 1) % 8)) else c.reg := by
  rw [advance_eq_carry]
  split_ifs <;> rfl

theorem advance_frame (v : Variant) (c : Chip) :
    advance v c = { c with cursor := (advance v c).cursor, reg := (advance v c).reg } := by
  rw [advance_eq_carry]
  split_ifs <;> rfl

@[simp] theorem advance_prefetch (v : Variant) (c : Chip) : (advance v c).prefetch = c.prefetch := by
  rw [advance_frame]

theorem advance_R (v : Variant) (c : Chip) (n : Nat) :
    (advance v c).R n =
      if n = 14 ∧ v = .H ∧ c.cursor.toNat = 16383 ∧ commandMode (modeOf .H c) = true
      then BitVec.ofNat 8 (((c.R 14).toNat % 8 + 1) % 8) else c.R n := by
  by_cases hcarry : v = .H ∧ c.cursor.toNat = 16383 ∧ commandMode (modeOf .H c) = true
  · have hreg : (advance v c).reg = (c.setR 14 (BitVec.ofNat 8 (((c.R 14).toNat % 8 + 1) % 8))).reg := by
      rw [advance_reg, if_pos hcarry, setR_reg]
    rw [R_congr hreg, R_setR]
    simp [hcarry, eq_comm]
  · have hreg : (advance v c).reg = c.reg := by rw [advance_reg, if_neg hcarry]
    rw [R_congr hreg, if_neg fun h => hcarry h.2]

/-- The advance reads the cursor and the registers only. -/
theorem advance_congr {c d : Chip} (v : Variant) (hreg : d.reg = c.reg) (hcursor : d.cursor = c.cursor) :
    (advance v d).cursor = (advance v c).cursor ∧ (advance v d).reg = (advance v c).reg := by
  have hincrement : increment v d = increment v c := by cases v <;> simp only [increment, R_congr hreg]
  refine ⟨?_, ?_⟩
  · rw [advance_cursor, advance_cursor, hcursor, hincrement]
  · simp only [advance_reg, hreg, hcursor, modeOf_congr .H hreg, R_congr hreg]

theorem toInt_increment (v : Variant) (c : Chip) :
    (increment v c).toInt = if v = .E then (c.R 48).toInt else 1 := by
  cases v with
  | B | H => rfl
  | E => exact BitVec.toInt_signExtend_of_le (by decide)

theorem toNat_add_eq_emod (x y : BitVec 14) : ((x + y).toNat : Int) = ((x.toNat : Int) + y.toInt) % 16384 := by
  have hy := y.isLt
  rw [BitVec.toNat_add, BitVec.toInt_eq_toNat_cond]
  split_ifs <;> omega

/-! ### The byte of the port -/

theorem portWrite_frame (v : Variant) (c : Chip) (b : Byte) :
    portWrite v c b = { c with vram := (portWrite v c b).vram, exp := (portWrite v c b).exp } := by
  unfold portWrite
  cases portPlace v c <;> rfl

theorem readAt_portWrite_same {v : Variant} {c : Chip} (h : c.ok v) (b : Byte) :
    (portWrite v c b).readAt (portPlace v c) = b :=
  readAt_writeAt_same ((ok_iff v c).mp h).1 _ b

theorem readAt_portWrite_ne (v : Variant) (c : Chip) (b : Byte) {p : Place} (hp : p ≠ portPlace v c) :
    (portWrite v c b).readAt p = c.readAt p := readAt_writeAt_ne c b hp

/-- Settles O20: the byte of the port is that of its place, and the advance is `advance_eq_carry`. -/
theorem portPrimitives : Obligations.PortPrimitives := by
  intro v c b hok
  refine ⟨rfl, readAt_portWrite_same hok b, fun p => readAt_portWrite_ne v c b, portWrite_frame v c b,
    advance_frame v c, ?_, fun n hn => ?_, ?_⟩
  · rw [advance_cursor, toNat_add_eq_emod, toInt_increment]
  · rw [advance_R, if_neg fun h => hn h.1]
  · simp only [advance_R, true_and]

/-! ### The write-address port -/

theorem prefetchNext_eq (v : Variant) (c : Chip) :
    prefetchNext v c = advance v { c with prefetch := portRead v c } := rfl

theorem setCursor_eq {c : Chip} {a : BitVec 6} {x : BitVec 14} (hx : x.toNat = a.toNat * 256 + c.pending.toNat) :
    c.setCursor a = { c with cursor := x } := by
  have happend : a ++ c.pending = x := by
    apply BitVec.eq_of_toNat_eq
    rw [BitVec.toNat_append, ← Nat.shiftLeft_add_eq_or_of_lt c.pending.isLt, Nat.shiftLeft_eq, hx]
  rw [Chip.setCursor, happend]

/-- `REG_SEL_MASK` as a remainder. -/
theorem regSelect_eq (v : Variant) (r : BitVec 6) : regSelect v r = if v = .B then r.toNat % 8 else r.toNat := by
  cases v with
  | B =>
    rw [regSelect, if_pos rfl, BitVec.toNat_and]
    exact Nat.and_two_pow_sub_one_eq_mod _ 3
  | E | H => rfl

/-- Settles O7: the four meanings of a write-address byte, with the cursor and the register number read as numbers. -/
theorem writeAddress : Obligations.WriteAddress := by
  intro s
  refine ⟨fun p => rfl, fun a x hx => ⟨?_, ?_⟩, fun sub r => ?_⟩
  · rw [exec, execWaSetrd, setCursor_eq hx, prefetchNext_eq]
    rfl
  · rw [exec, execWaSetwr, setCursor_eq hx]
    rfl
  · rw [exec, execWaWreg, regSelect_eq]
    rfl

/-! ### The data port -/

/-- The chip with a data byte stored at the port's place and, where `WRITE_UPDATES_PREFETCH` holds, in the prefetch. -/
def Chip.stored (cfg : Config) (c : Chip) (d : Byte) : Chip :=
  { c with
    vram := (portWrite cfg.variant c d).vram
    exp := (portWrite cfg.variant c d).exp
    prefetch := if cfg.writeUpdatesPrefetch then d else c.prefetch }

theorem stored_eq (cfg : Config) (c : Chip) (d : Byte) :
    c.stored cfg d =
      if cfg.writeUpdatesPrefetch then { portWrite cfg.variant c d with prefetch := d }
      else portWrite cfg.variant c d := by
  rw [Chip.stored, portWrite_frame]
  split_ifs <;> rfl

/-- WD in one equation: the byte is stored and the cursor advances from where it was. -/
theorem execWd_eq (d : Byte) (s : State) :
    execWd d s = s.after
      { s.chip.stored s.cfg d with
        cursor := (advance s.cfg.variant s.chip).cursor
        reg := (advance s.cfg.variant s.chip).reg
        phase := .first } .none := by
  obtain ⟨hcursor, hreg⟩ := advance_congr (c := s.chip) (d := s.chip.stored s.cfg d) s.cfg.variant rfl rfl
  simp only [execWd, ← stored_eq]
  rw [advance_frame, hcursor, hreg]
  rfl

/-- Settles O8: the next state is that of `execWd_eq`, and its memory is that of the port write. -/
theorem writeData : Obligations.WriteData := by
  intro d s hinv
  refine ⟨_, execWd_eq d s, ?_, fun p hp => ?_, rfl⟩
  · exact (readAt_congr rfl rfl _).trans (readAt_portWrite_same hinv d)
  · exact (readAt_congr rfl rfl p).trans (readAt_portWrite_ne _ _ d hp)

/-- Settles O11: a read returns the prefetch byte, and no debug write changes what the read setup put there. -/
theorem readData : Obligations.ReadData := by
  refine ⟨fun s => rfl, fun s a x b => ⟨_, _, _, rfl, rfl, rfl, ?_⟩⟩
  rw [writeAt_prefetch, latchFirst_prefetch, prefetchNext_eq, advance_prefetch]
  rfl

/-! ### The palette ports -/

theorem paletteByteE_of_first {c : Chip} (h : c.palPhase = .first) (b : Byte) :
    paletteByteE c b = { c with palPending := b, palPhase := .second } := by
  rw [paletteByteE, h]

theorem paletteByteE_of_second {c : Chip} (h : c.palPhase = .second) (b : Byte) :
    paletteByteE c b = { c.setR 47 (nextR47 (c.R 47)) with
      paletteE := c.paletteE.setIfInBounds (c.R 47 &&& 0x3F).toNat (entryOf c.palPending b), palPhase := .first } := by
  rw [paletteByteE, h]

theorem paletteByteH_of_first {c : Chip} (h : c.palPhase = .first) (b : Byte) :
    paletteByteH c b = { c with palPending := b, palPhase := .second } := by
  rw [paletteByteH, h]

theorem paletteByteH_of_second {c : Chip} (h : c.palPhase = .second) (b : Byte) :
    paletteByteH c b = { c.setR 16 ((c.R 16 &&& 0xF0) ||| ((c.R 16 &&& 0x0F) + 1 &&& 0x0F)) with
      paletteH := c.paletteH.setIfInBounds (c.R 16 &&& 0x0F).toNat (rgbOf c.palPending b), palPhase := .first } := by
  rw [paletteByteH, h]

theorem nextR47_eq (r : Byte) :
    nextR47 r = if r.getLsbD 6 then (r &&& 0xC0) ||| BitVec.ofNat 8 ((r.toNat % 64 + 1) % 64) else r &&& 0x7F := by
  rw [nextR47, and_0x3F_add_one]

theorem entryOf_eq {b1 b2 : Byte} {e : BitVec 12} (he : e.toNat = b1.toNat % 16 * 256 + b2.toNat) :
    entryOf b1 b2 = e := by
  apply BitVec.eq_of_toNat_eq
  rw [entryOf, BitVec.toNat_append, BitVec.extractLsb'_toNat, ← Nat.shiftLeft_add_eq_or_of_lt b2.isLt, Nat.shiftLeft_eq,
    he]
  rfl

theorem rgbOf_eq {b1 b2 : Byte} {e : Rgb} (hred : e.red.toNat = b1.toNat / 16 % 8)
    (hgreen : e.green.toNat = b2.toNat % 8) (hblue : e.blue.toNat = b1.toNat % 8) : rgbOf b1 b2 = e := by
  have field : ∀ (b : Byte) (k : Nat) (x : BitVec 3), x.toNat = b.toNat / 2 ^ k % 8 → b.extractLsb' k 3 = x := by
    intro b k x hx
    apply BitVec.eq_of_toNat_eq
    rw [BitVec.extractLsb'_toNat, Nat.shiftRight_eq_div_pow, hx]
  rw [rgbOf, field b1 4 e.red hred, field b2 0 e.green (by simpa using hgreen),
    field b1 0 e.blue (by simpa using hblue)]

/-- Settles O9: the two phases of `paletteByteE`, with its entry and its index as numbers. -/
theorem palettePortE : Obligations.PalettePortE := by
  intro d s hv
  have hexec : exec (.wdPaletteE d) s = s.after (paletteByteE s.chip d).latchFirst .none := only_done_eq_after hv _ _
  refine ⟨fun hphase => ?_, fun hphase e he => ?_⟩
  · rw [hexec, paletteByteE_of_first hphase]
    rfl
  · rw [hexec, paletteByteE_of_second hphase, nextR47_eq, toNat_and_0x3F, entryOf_eq he]
    rfl

/-- Settles O10: the two phases of `paletteByteH`, by the port that leaves the latch and by the one that resets it. -/
theorem palettePortsH : Obligations.PalettePortsH := by
  intro d s hv
  have hwp : exec (.wp d) s = s.after (paletteByteH s.chip d) .none := only_done_eq_after hv _ _
  have hwd : exec (.wdPaletteH d) s = s.after (paletteByteH s.chip d).latchFirst .none := only_done_eq_after hv _ _
  refine ⟨fun hphase => ?_, fun hphase e hred hgreen hblue c hc => ?_⟩
  · rw [hwp, hwd, paletteByteH_of_first hphase]
    exact ⟨rfl, rfl⟩
  · have hbyte : paletteByteH s.chip d = c := by
      rw [paletteByteH_of_second hphase, and_0x0F_add_one, toNat_and_0x0F, rgbOf_eq hred hgreen hblue, hc]
    rw [hwp, hwd, hbyte]
    exact ⟨rfl, rfl⟩

/-! ### The status reads -/

theorem getElem_flagBit (f : Bool) (k : Nat) {i : Nat} (hi : i < 8) : (flagBit f k)[i] = (decide (k = i) && f) := by
  cases f with
  | false => simp [flagBit]
  | true =>
    have hbit : flagBit true k = BitVec.ofNat 8 (2 ^ k) := congrArg (BitVec.ofNat 8) (Nat.one_shiftLeft k)
    rw [hbit, ← BitVec.getLsbD_eq_getElem, BitVec.getLsbD_ofNat, decide_eq_true hi, Bool.true_and,
      Nat.testBit_two_pow, Bool.and_true]

theorem toNat_flagBit_zero (f : Bool) : (flagBit f 0).toNat = if f then 1 else 0 := by cases f <;> rfl

/-- S#1 of variant H: the five bits of the identification above FH. -/
theorem toNat_statusS1H (cfg : Config) (st : Status) :
    (statusS1H cfg st).toNat = cfg.statusIdH.toNat % 32 * 2 + if st.fh then 1 else 0 := by
  have hid : (cfg.statusIdH &&& 0x1F).toNat = cfg.statusIdH.toNat % 32 := toNat_and_lowMask _ (k := 5) (by decide)
  have hflag : (if st.fh then 1 else 0) < 2 ^ 1 := by cases st.fh <;> decide
  rw [statusS1H, BitVec.toNat_or, BitVec.toNat_shiftLeft, hid, toNat_flagBit_zero, Nat.shiftLeft_eq,
    Nat.mod_eq_of_lt (by omega), ← Nat.shiftLeft_eq, ← Nat.shiftLeft_add_eq_or_of_lt hflag, Nat.shiftLeft_eq]

theorem statusS1H_bits (cfg : Config) (st : Status) :
    (statusS1H cfg st).getLsbD 7 = false ∧ (statusS1H cfg st).getLsbD 6 = false ∧
      (statusS1H cfg st).toNat / 2 % 32 = cfg.statusIdH.toNat % 32 ∧ (statusS1H cfg st).getLsbD 0 = st.fh := by
  simp only [← BitVec.testBit_toNat, Nat.testBit_eq_decide_div_mod_eq, toNat_statusS1H]
  cases st.fh <;> simp <;> omega

theorem statusS2_bits (st : Status) (d : Byte) :
    (statusS2 st d).getLsbD 7 = st.tr ∧ (statusS2 st d).getLsbD 4 = st.bd ∧ (statusS2 st d).getLsbD 3 = true ∧
      (statusS2 st d).getLsbD 2 = true ∧ (statusS2 st d).getLsbD 0 = st.ce := by
  simp [statusS2, drawnBitsS2, getElem_flagBit]

theorem execRsOtherH_of_eight {s : State} (hv : s.cfg.variant = .H) (h : statusSelect .H s.chip = 8) :
    execRsOtherH s = s.after s.chip.latchFirst (.byte s.chip.status.s8) := by
  rw [execRsOtherH, only_of_eq _ hv, if_pos h]
  rfl

theorem execRsOtherH_of_nine {s : State} (hv : s.cfg.variant = .H) (h : statusSelect .H s.chip = 9) :
    execRsOtherH s = s.after s.chip.latchFirst (.byte s.chip.status.s9) := by
  rw [execRsOtherH, only_of_eq _ hv, if_neg (by rw [h]; decide), if_pos h]
  rfl

theorem execRsOtherH_of_drawn {s : State} (hv : s.cfg.variant = .H) (h8 : statusSelect .H s.chip ≠ 8)
    (h9 : statusSelect .H s.chip ≠ 9) :
    execRsOtherH s = s.doneDrawn s.chip.latchFirst (.byte (Config.drawByte s.draws)) := by
  rw [execRsOtherH, only_of_eq _ hv, if_neg h8, if_neg h9]

/-- Settles O13: each row runs, being in variant H, and its byte has the bits of `statusS1H` and `statusS2`. -/
theorem statusH : Obligations.StatusH := by
  intro s hv
  refine ⟨⟨_, only_of_eq _ hv, statusS1H_bits s.cfg s.chip.status⟩, ⟨_, only_of_eq _ hv, statusS2_bits s.chip.status _⟩,
    only_of_eq _ hv, execRsOtherH_of_eight hv, execRsOtherH_of_nine hv,
    fun h8 h9 => ⟨_, execRsOtherH_of_drawn hv h8 h9⟩⟩

theorem execRsE_of_one {s : State} (hv : s.cfg.variant = .E) (h : statusSelect .E s.chip = 1) :
    execRsE s = s.after (clearFH s.chip).latchFirst (.byte (statusS1E s.cfg s.chip.status)) := by
  rw [execRsE, only_of_eq _ hv, if_pos h]
  rfl

theorem execRsE_of_ne_one {s : State} (hv : s.cfg.variant = .E) (h : statusSelect .E s.chip ≠ 1) :
    execRsE s = s.after s.chip.latchFirst (.byte (s.cfg.statusE[(statusSelect .E s.chip).toNat]?.getD 0)) := by
  rw [execRsE, only_of_eq _ hv, if_neg h]
  rfl

/-- S#1 of variant E: FH takes the place of bit 0 of the identification. -/
theorem statusS1E_bits (cfg : Config) (st : Status) :
    (statusS1E cfg st).toNat / 2 = cfg.statusIdE.toNat / 2 ∧ (statusS1E cfg st).getLsbD 0 = st.fh := by
  have hid := cfg.statusIdE.isLt
  have hmask : cfg.statusIdE.toNat / 2 &&& (0xFE : Byte).toNat / 2 = cfg.statusIdE.toNat / 2 :=
    (Nat.and_two_pow_sub_one_eq_mod _ 7).trans (Nat.mod_eq_of_lt (by omega))
  have hflag : (if st.fh then 1 else 0) / 2 = 0 := by cases st.fh <;> rfl
  refine ⟨?_, ?_⟩
  · rw [statusS1E, BitVec.toNat_or, BitVec.toNat_and, toNat_flagBit_zero, Nat.or_div_two, Nat.and_div_two, hmask, hflag,
      Nat.or_zero]
  · simp [statusS1E, getElem_flagBit]

/-- Settles O14: S#1 has the bits of `statusS1E`; the other selects index the parameter. -/
theorem statusE : Obligations.StatusE := by
  intro s hv
  refine ⟨fun h => ⟨_, execRsE_of_one hv h, statusS1E_bits s.cfg s.chip.status⟩, fun k hk hsel => ?_⟩
  have hne : statusSelect .E s.chip ≠ 1 := by
    intro h
    rw [h] at hsel
    have hone : 1 = k.val := hsel
    omega
  rw [exec, execRsE_of_ne_one hv hne, hsel, Vector.getElem?_eq_getElem k.isLt]
  rfl

/-- Settles O12: the acknowledgement, with the latch reset. -/
theorem statusZero : Obligations.StatusZero := by
  intro s
  rw [exec, execRsS0, acknowledge, clearedS0]
  rfl

/-! ### The indirect port -/

theorem nextR17_eq (r : Byte) :
    nextR17 r = if r.getLsbD 7 then r else (r &&& 0xC0) ||| BitVec.ofNat 8 ((r.toNat % 64 + 1) % 64) := by
  rw [nextR17, and_0x3F_add_one]

theorem R_sideEffectH (c : Chip) (n : Nat) (b : Byte) {m : Nat} (hm : m < 34 ∨ 45 ≤ m) :
    (sideEffectH c n b).R m = c.R m := by
  unfold sideEffectH
  split_ifs
  · rfl
  · exact (progress_writeR44 c).1.regs m hm
  · exact (frame_issue b c).regs m hm
  · rfl

/-- A register write of variant H leaves every other register that the Command Engine does not write. -/
theorem R_regWriteH_ne (c : Chip) {n m : Nat} (b : Byte) (hne : n ≠ m) (hm : m < 34 ∨ 45 ≤ m) :
    (regWriteH c n b).R m = c.R m := by
  have hside : (sideEffectH (c.setR n b) n b).R m = c.R m := by rw [R_sideEffectH _ n b hm, R_setR_ne c b hne]
  unfold regWriteH
  split
  · rfl
  · extract_lets c1
    split_ifs
    · exact ((frame_finish c1).regs m hm).trans hside
    · exact hside

/-- Settles O15: the write of another register leaves the pointer in R17, which then moves or is inhibited. -/
theorem writeIndirect : Obligations.WriteIndirect := by
  rintro d s r c hv rfl hc
  have hexec : exec (.wi d) s = s.after (c.setR 17 (nextR17 (c.R 17))) .none := by
    rw [exec, execWi, only_of_eq _ hv, toNat_and_0x3F, hc]
    simp only [ite_not]
    rfl
  have hpointer : c.R 17 = s.chip.R 17 := by
    rw [hc]
    split_ifs with h17
    · rw [regWrite, hv]
      exact R_regWriteH_ne s.chip d h17 (by decide)
    · rfl
  rw [hexec, nextR17_eq]
  cases h7 : (c.R 17).getLsbD 7 with
  | true => simp [setR_R_self]
  | false => simp [hpointer]

/-! ### The latch phase -/

theorem phase_budgetLoop (op : Op) (cost fuel : Nat) (c : Chip) : (budgetLoop op cost fuel c).phase = c.phase := by
  induction fuel generalizing c with
  | zero => rfl
  | succ fuel ih =>
    have hstep : (stepOp op { c with budget := c.budget - cost }).phase = c.phase := (progress_stepOp op _).1.phase
    simp only [budgetLoop]
    split_ifs
    · rfl
    · exact hstep
    · rw [ih, hstep]

theorem phase_updateCommand (cfg : Config) (c : Chip) : (updateCommand cfg c).phase = c.phase := by
  unfold updateCommand
  extract_lets c0
  split
  · rfl
  · split
    · rfl
    · exact phase_budgetLoop _ _ _ c0

theorem phase_paletteByteH (c : Chip) (b : Byte) : (paletteByteH c b).phase = c.phase := by
  obtain ⟨r, pal, ph, pend, heq, -⟩ := paletteByteH_eq c b
  rw [heq]

theorem phase_renderLine (cfg : Config) (c : Chip) (l : Nat) : (renderLine cfg c l).1.phase = c.phase := by
  obtain ⟨x, f, i, r, heq⟩ := renderLine_eq cfg c l
  rw [heq]

theorem phase_regWrite (cfg : Config) (c : Chip) (n : Nat) (b : Byte) : (regWrite cfg c n b).phase = c.phase :=
  (registerFrame_regWrite cfg c n b).phase

/-- Every next state the outcome can be has the latch in the given phase. -/
def LeavesPhase (p : Phase) (k : Host.Outcome State Fault Refusal) : Prop := ∀ t, k = .next t → t.chip.phase = p

theorem leavesPhase_done {s : State} {c : Chip} {p : Phase} (o : Output) (h : c.phase = p) :
    LeavesPhase p (s.done c o) := by
  rintro t ⟨⟩
  exact h

theorem leavesPhase_doneDrawn {s : State} {c : Chip} {p : Phase} (o : Output) (h : c.phase = p) :
    LeavesPhase p (s.doneDrawn c o) := by
  rintro t ⟨⟩
  exact h

theorem leavesPhase_refused (p : Phase) (r : Refusal) : LeavesPhase p (.refused r) := by
  rintro t ⟨⟩

theorem leavesPhase_only {s : State} {v : Variant} {p : Phase} {k : Host.Outcome State Fault Refusal}
    (h : LeavesPhase p k) : LeavesPhase p (s.only v k) := fun t ht => h t (only_next ht).2

theorem leavesPhase_command (s : State) (b : Byte) : LeavesPhase s.chip.phase (s.command b) :=
  leavesPhase_done _ (phase_regWrite _ _ _ b)

theorem leavesPhase_rsOtherH (s : State) : LeavesPhase .first (execRsOtherH s) := by
  refine leavesPhase_only ?_
  split_ifs
  · exact leavesPhase_done _ rfl
  · exact leavesPhase_done _ rfl
  · exact leavesPhase_doneDrawn _ rfl

theorem leavesPhase_rsE (s : State) : LeavesPhase .first (execRsE s) := by
  refine leavesPhase_only ?_
  split_ifs
  · exact leavesPhase_done _ rfl
  · exact leavesPhase_done _ rfl

theorem leavesPhase_wi (d : Byte) (s : State) : LeavesPhase s.chip.phase (execWi d s) := by
  refine leavesPhase_only (leavesPhase_done _ ?_)
  rw [setR_phase]
  split_ifs
  · rfl
  · exact phase_regWrite _ _ _ d

theorem leavesPhase_render (l : Nat) (s : State) : LeavesPhase s.chip.phase (execRender l s) := by
  unfold execRender
  split
  · exact leavesPhase_refused _ _
  · split
    · exact leavesPhase_refused _ _
    · exact leavesPhase_done _ (phase_renderLine _ _ l)

/-- A saved state keeps its own phase: a restore derives no more than the running opcode. -/
theorem leavesPhase_restore (c : Chip) (s : State) : LeavesPhase c.phase (execRestore c s) := by
  unfold execRestore
  split_ifs with hok
  · exact leavesPhase_done _ (by rw [rederive_of_ok hok])
  · exact leavesPhase_refused _ _

theorem leavesPhase_debugReadWrite (a : Nat) (w : Option Byte) (s : State) :
    LeavesPhase s.chip.phase (execDebugReadWrite a w s) := by
  cases w with
  | none => exact leavesPhase_done _ rfl
  | some b => exact leavesPhase_done _ (writeAt_phase _ _ b)

/-- The port accesses that end with `latchFirst`, those that leave the latch, and the calls that load it. -/
theorem leavesPhase_exec (i : Instr) (s : State) : LeavesPhase (phaseAfter s.chip.phase i) (exec i s) := by
  cases i with
  | waFirst _ | waSetrd _ | waSetwr _ | waWreg _ _ | wd _ | rd | rsS0 => exact leavesPhase_done _ rfl
  | wdPaletteE _ | wdPaletteH _ | rsS1H | rsS7H => exact leavesPhase_only (leavesPhase_done _ rfl)
  | rsS2H => exact leavesPhase_only (leavesPhase_doneDrawn _ rfl)
  | rsOtherH => exact leavesPhase_rsOtherH s
  | rsE => exact leavesPhase_rsE s
  | wp d => exact leavesPhase_only (leavesPhase_done _ (phase_paletteByteH _ d))
  | wi d => exact leavesPhase_wi d s
  | render l => exact leavesPhase_render l s
  | update => exact leavesPhase_only (leavesPhase_done _ (phase_updateCommand _ _))
  | reset => exact leavesPhase_doneDrawn _ rfl
  | snapshot | debugDump => exact leavesPhase_done _ rfl
  | restore c => exact leavesPhase_restore c s
  | debugReadWrite a w => exact leavesPhase_debugReadWrite a w s
  | stop _ | undefined1 _ | undefined2 _ | undefined3 _ | point _ | pset _ | srch _ | line _ | lmmv _ | lmmm _ | lmcm _
  | lmmc _ | hmmv _ | hmmm _ | ymmm _ | hmmc _ => exact leavesPhase_command s _
  | loImp _ | loAnd _ | loOr _ | loEor _ | loNot _ | loTimp _ | loTand _ | loTor _ | loTeor _ | loTnot _
  | loUndefined5 _ | loUndefined6 _ | loUndefined7 _ | loUndefined13 _ | loUndefined14 _ | loUndefined15 _ =>
    exact leavesPhase_command s _

/-- Settles O17: `leavesPhase_exec`, for the next state at hand. -/
theorem latchPhase : Obligations.LatchPhase := fun i s t hnext => leavesPhase_exec i s t hnext

/-! ### Runs -/

theorem run_succ {M : Host.Core} {s t : M.State} (h : M.step s = .next t) (k : Nat) : M.run (k + 1) s = M.run k t := by
  rw [Host.Core.run, h]

theorem run_add {M : Host.Core} {m : Nat} {s t : M.State} (h : M.run m s = .next t) (k : Nat) :
    M.run (m + k) s = M.run k t := by
  induction m generalizing s with
  | zero =>
    cases h
    rw [Nat.zero_add]
  | succ m ih =>
    rw [Nat.add_right_comm]
    cases hstep : M.step s with
    | next u =>
      rw [run_succ hstep] at h ⊢
      exact ih h
    | fault r | refused r =>
      rw [Host.Core.run, hstep] at h
      cases h

theorem run_two {s t u : State} (hfirst : step s = .next t) (hsecond : step t = .next u) :
    Host.Core.run Sys2Proof.core 2 s = .next u :=
  (run_succ (M := Sys2Proof.core) hfirst 1).trans (run_succ (M := Sys2Proof.core) hsecond 0)

/-! ### Data writes in variant B -/

theorem step_wd_of_B {s : State} {d : Byte} {rest : List Call} (hv : s.cfg.variant = .B)
    (hinput : s.input = .wd d :: rest) : step s = exec (.wd d) { s with input := rest } := by
  refine step_of_decode_ok hinput (decode_eq_ok_iff.mpr ⟨?_, rfl⟩)
  rw [hv, decodeRow]
  cases s.ctx.dpm <;> rfl

/-- One data write in variant B: the byte stands where the cursor was, and the cursor is one further on. -/
theorem exists_step_wd_of_B {s : State} {d : Byte} {rest : List Call} (hinv : s.Inv) (hv : s.cfg.variant = .B)
    (hinput : s.input = .wd d :: rest) :
    ∃ t, step s = .next t ∧ t.Inv ∧ t.cfg.variant = .B ∧ t.input = rest ∧
      t.chip.cursor.toNat = (s.chip.cursor.toNat + 1) % 16384 ∧
      t.byteAt (.main s.chip.cursor.toNat) = d ∧ ∀ p, p ≠ .main s.chip.cursor.toNat → t.byteAt p = s.byteAt p := by
  obtain ⟨t, hexec, hsame, hother, heq⟩ := writeData d { s with input := rest } hinv
  have hstep : step s = .next t := (step_wd_of_B hv hinput).trans hexec
  have hplace : portPlace s.cfg.variant s.chip = .main s.chip.cursor.toNat := by rw [hv, portPlace]
  rw [hplace] at hsame hother
  refine ⟨t, hstep, (step_served hstep).inv hinv, ?_, ?_, ?_, hsame, hother⟩
  · rw [(step_served hstep).cfg, hv]
  · rw [heq]
  · rw [heq, advance_cursor, hv]
    exact BitVec.toNat_add _ _

/-- Settles O18, by induction on the bytes: the first lands at the cursor, where none of the later ones comes back to
while there are at most 16384. -/
theorem dataPortWrites : Obligations.DataPortWrites := by
  intro s bs rest hinv hv hinput
  induction bs generalizing s with
  | nil =>
    refine ⟨s, rfl, hinput, ?_, fun _ => ⟨fun i h => absurd h (Nat.not_lt_zero i), fun p _ => rfl⟩⟩
    exact (Nat.mod_eq_of_lt s.chip.cursor.isLt).symm
  | cons d bs ih =>
    obtain ⟨t, hstep, htinv, htv, htinput, hcursor, hsame, hother⟩ := exists_step_wd_of_B hinv hv hinput
    obtain ⟨u, hrun, huinput, hucursor, humem⟩ := ih t htinv htv htinput
    have hlt := s.chip.cursor.isLt
    refine ⟨u, ?_, huinput, ?_, fun hlen => ?_⟩
    · exact (run_succ (M := Sys2Proof.core) hstep bs.length).trans hrun
    · rw [hucursor, hcursor, List.length_cons]
      omega
    · rw [List.length_cons] at hlen
      obtain ⟨hbytes, hrest⟩ := humem (by omega)
      have hnext : ∀ i, (t.chip.cursor.toNat + i) % 16384 = (s.chip.cursor.toNat + (i + 1)) % 16384 := by
        intro i
        rw [hcursor]
        omega
      simp only [hnext] at hbytes hrest
      refine ⟨fun i hi => ?_, fun p hp => ?_⟩
      · cases i with
        | zero =>
          rw [Nat.add_zero, Nat.mod_eq_of_lt hlt, hrest _ fun j hj => ?_, hsame, List.getElem_cons_zero]
          rw [ne_eq, Place.main.injEq]
          omega
        | succ i =>
          rw [List.getElem_cons_succ]
          exact hbytes i (Nat.lt_of_succ_lt_succ hi)
      · have hfirst : p ≠ .main s.chip.cursor.toNat := by
          simpa only [Nat.add_zero, Nat.mod_eq_of_lt hlt] using hp 0 (Nat.succ_pos _)
        rw [hrest p fun i hi => hp (i + 1) (Nat.succ_lt_succ hi), hother p hfirst]

/-! ### The unlock sequence -/

theorem regWriteE_57 (cfg : Config) (c : Chip) (b : Byte) :
    regWriteE cfg c 57 b = { c.setR 57 b with lock := lockAfter cfg c.lock 57 b } := rfl

/-- Whatever the count was, two writes of 0x1C reach it; a lock that the first one opens stays open. -/
theorem unlocked_lockAfter_lockAfter (cfg : Config) (l : Lock) :
    (lockAfter cfg (lockAfter cfg l 57 0x1C) 57 0x1C).unlocked = true := by
  by_cases h : l.unlockCount = 1 <;> simp [lockAfter, h]

theorem step_wa_of_first {s : State} {b : Byte} {rest : List Call} (hphase : s.chip.phase = .first)
    (hinput : s.input = .wa b :: rest) : step s = exec (.waFirst b) { s with input := rest } := by
  refine step_of_decode_ok hinput (decode_eq_ok_iff.mpr ⟨?_, rfl⟩)
  rw [decodeRow, ctx_phase, hphase]

theorem step_wa_of_second {s : State} {b : Byte} {rest : List Call} {i : Instr} (hphase : s.chip.phase = .second)
    (hrow : decodeSecond b = i) (hwf : i.wf s.cfg = true) (hinput : s.input = .wa b :: rest) :
    step s = exec i { s with input := rest } := by
  refine step_of_decode_ok hinput (decode_eq_ok_iff.mpr ⟨?_, hwf⟩)
  rw [decodeRow, ctx_phase, hphase, hrow]

/-- A register write by the address port: the value, then a byte with bit 7 that names the register (R205). -/
theorem run_registerWrite {s : State} {p b : Byte} {rest : List Call} (hphase : s.chip.phase = .first)
    (hinput : s.input = .wa p :: .wa b :: rest) (hbit : b.getLsbD 7 = true) :
    Host.Core.run Sys2Proof.core 2 s = .next { s with
      chip := (regWrite s.cfg { s.chip with pending := p, phase := .second }
        (regSelect s.cfg.variant (b.extractLsb' 0 6)) p).latchFirst
      input := rest
      out := .none } := by
  refine run_two (t := { s with
    chip := { s.chip with pending := p, phase := .second }, input := .wa b :: rest, out := .none }) ?_ ?_
  · exact step_wa_of_first hphase hinput
  · exact step_wa_of_second (i := .waWreg (b.extractLsb' 6 1) (b.extractLsb' 0 6)) (rest := rest) rfl
      (if_pos hbit) rfl rfl

theorem exists_run_unlockWrite {s : State} {rest : List Call} (hv : s.cfg.variant = .E) (hphase : s.chip.phase = .first)
    (hinput : s.input = .wa 0x1C :: .wa 0xB9 :: rest) :
    ∃ t, Host.Core.run Sys2Proof.core 2 s = .next t ∧ t.cfg = s.cfg ∧ t.input = rest ∧ t.chip.phase = .first ∧
      t.chip.lock = lockAfter s.cfg s.chip.lock 57 0x1C ∧ t.chip.R 57 = 0x1C := by
  have hwrite : ∀ c, regWrite s.cfg c (regSelect s.cfg.variant (BitVec.extractLsb' 0 6 (0xB9 : Byte))) 0x1C =
      { c.setR 57 0x1C with lock := lockAfter s.cfg c.lock 57 0x1C } := by
    intro c
    rw [regWrite, hv]
    exact regWriteE_57 s.cfg c 0x1C
  refine ⟨_, run_registerWrite hphase hinput (by decide), rfl, rfl, rfl, ?_, ?_⟩
  · rw [hwrite]
    rfl
  · rw [hwrite]
    exact R_setR_self _ _ (by decide)

/-- A data write in variant E, to VRAM or to the palette, leaves the lock and the calls after it. -/
theorem exists_step_wd_of_E {s : State} {d : Byte} {rest : List Call} (hv : s.cfg.variant = .E)
    (hinput : s.input = .wd d :: rest) :
    ∃ t, step s = .next t ∧ t.cfg = s.cfg ∧ t.input = rest ∧ t.chip.phase = .first ∧ t.chip.lock = s.chip.lock := by
  cases hdpm : s.ctx.dpm with
  | false =>
    have hdecode : decode s.cfg s.ctx (.wd d) = .ok (.wd d) :=
      decode_eq_ok_iff.mpr ⟨by rw [hv, decodeRow, hdpm]; rfl, rfl⟩
    exact ⟨_, (step_of_decode_ok hinput hdecode).trans (execWd_eq d _), rfl, rfl, rfl, rfl⟩
  | true =>
    have hdecode : decode s.cfg s.ctx (.wd d) = .ok (.wdPaletteE d) :=
      decode_eq_ok_iff.mpr ⟨by rw [hv, decodeRow, hdpm]; rfl, wf_iff.mpr ⟨by rw [hv]; rfl, rfl, rfl⟩⟩
    obtain ⟨r, pal, ph, pend, hpalette, -⟩ := paletteByteE_eq s.chip d
    have hexec : exec (.wdPaletteE d) { s with input := rest } =
        State.after { s with input := rest } (paletteByteE s.chip d).latchFirst .none :=
      only_done_eq_after (s := { s with input := rest }) hv _ _
    refine ⟨_, (step_of_decode_ok hinput hdecode).trans hexec, rfl, rfl, rfl, ?_⟩
    rw [latchFirst_lock, hpalette]

/-- Settles O26: the first write counts or opens, the data write leaves the lock, the second write opens it or leaves it
open. -/
theorem unlockSequence : Obligations.UnlockSequence := by
  intro s d rest hv hphase hinput
  obtain ⟨t, ht, htcfg, htinput, htphase, htlock, -⟩ := exists_run_unlockWrite hv hphase hinput
  obtain ⟨u, hu, hucfg, huinput, huphase, hulock⟩ := exists_step_wd_of_E (htcfg ▸ hv) htinput
  obtain ⟨w, hw, hwcfg, hwinput, -, hwlock, hwR57⟩ := exists_run_unlockWrite (hucfg ▸ htcfg ▸ hv) huphase huinput
  refine ⟨w, ?_, ?_, hwR57, hwinput⟩
  · exact (run_add (M := Sys2Proof.core) ht 3).trans ((run_succ (M := Sys2Proof.core) hu 2).trans hw)
  · rw [hwlock, hulock, htlock, hucfg, htcfg]
    exact unlocked_lockAfter_lockAfter s.cfg s.chip.lock

/-! ### The calls that are turned away -/

/-- A row that fits the context is decoded from its own call and from no other. -/
theorem decodeRow_eq_iff {v : Variant} {ctx : Ctx} {call : Call} {i : Instr} (hvariant : i.inVariant v = true)
    (hfits : i.fits v ctx = true) : decodeRow v ctx call = i ↔ call = encode i := by
  constructor
  · rintro rfl
    exact (encode_decodeRow v ctx call).symm
  · rintro rfl
    exact decodeRow_encode i v ctx hvariant hfits

theorem lineInRange_eq_false_iff {cfg : Config} {i : Instr} :
    i.lineInRange cfg = false ↔ ∃ l, i = .render l ∧ cfg.totalLines ≤ l := by
  cases i <;> simp [Instr.lineInRange]

theorem savedState_eq_false_iff {v : Variant} {i : Instr} :
    i.savedState v = false ↔ ∃ c, i = .restore c ∧ ¬ c.ok v := by
  constructor
  · intro h
    cases i with
    | restore c => exact ⟨c, rfl, of_decide_eq_false h⟩
    | _ => exact Bool.noConfusion h
  · rintro ⟨c, rfl, hc⟩
    exact decide_eq_false hc

theorem inVariant_of_commandByte {i : Instr} {b : Byte} (h : commandByte (encode i) = some b) (v : Variant) :
    i.inVariant v = true := by
  cases i with
  | wp _ | wi _ | update | wdPaletteE _ | wdPaletteH _ | rsS1H | rsS2H | rsS7H | rsOtherH | rsE => cases h
  | _ => rfl

theorem inVariant_decodeSecond (v : Variant) (b : Byte) : (decodeSecond b).inVariant v = true := by
  unfold decodeSecond
  split_ifs <;> rfl

theorem inVariant_decodeData (v : Variant) (dpm : Bool) (b : Byte) : (decodeData v dpm b).inVariant v = true := by
  cases v <;> cases dpm <;> rfl

theorem inVariant_decodeStatus (v : Variant) (sel : Nibble) : (decodeStatus v sel).inVariant v = true := by
  cases v with
  | B => rfl
  | E | H =>
    simp only [decodeStatus]
    split_ifs <;> rfl

/-- Decoding picks the form of a port the variant has; absent are the ports and the call that H alone has. -/
theorem inVariant_decodeRow_eq_false_iff {v : Variant} {ctx : Ctx} {call : Call} :
    (decodeRow v ctx call).inVariant v = false ↔
      v ≠ .H ∧ ((∃ b, call = .wp b) ∨ (∃ b, call = .wi b) ∨ call = .update) := by
  cases call with
  | wp b | wi b | update => simp [decodeRow, Instr.inVariant]
  | wa b =>
    obtain ⟨phase, dpm, sel⟩ := ctx
    cases phase with
    | first => simp [decodeRow, Instr.inVariant]
    | second => simp [decodeRow, inVariant_decodeSecond]
  | wd b => simp [decodeRow, inVariant_decodeData]
  | rs => simp [decodeRow, inVariant_decodeStatus]
  | cmd b => simp [decodeRow, inVariant_of_commandByte (commandByte_decodeCommand b)]
  | lo b => simp [decodeRow, inVariant_of_commandByte (commandByte_decodeLogical b)]
  | rd | render _ | reset | snapshot | restore _ | debug _ _ | dump => simp [decodeRow, Instr.inVariant]

theorem decode_eq_absentInVariant_iff {cfg : Config} {ctx : Ctx} {call : Call} :
    decode cfg ctx call = .error .absentInVariant ↔ (decodeRow cfg.variant ctx call).inVariant cfg.variant = false := by
  simp only [decode]
  split_ifs with hvariant hline hsaved <;> simp [hvariant]

/-- A row with a line index exists in every variant, so the check of its line is the one that fails. -/
theorem decode_eq_lineOutOfRange_iff {cfg : Config} {ctx : Ctx} {call : Call} :
    decode cfg ctx call = .error .lineOutOfRange ↔ (decodeRow cfg.variant ctx call).lineInRange cfg = false := by
  have hearlier : ∀ i : Instr, i.lineInRange cfg = false → i.inVariant cfg.variant = true := by
    intro i h
    obtain ⟨l, rfl, -⟩ := lineInRange_eq_false_iff.mp h
    rfl
  constructor
  · intro h
    simp only [decode] at h
    split_ifs at h with hvariant hline hsaved
    · cases h
    · exact hline
    · cases h
  · intro h
    simp [decode, h, hearlier _ h]

/-- A restore exists in every variant and has no line index, so the check of its state is the one that fails. -/
theorem decode_eq_notASavedState_iff {cfg : Config} {ctx : Ctx} {call : Call} :
    decode cfg ctx call = .error .notASavedState ↔
      (decodeRow cfg.variant ctx call).savedState cfg.variant = false := by
  have hearlier : ∀ i : Instr, i.savedState cfg.variant = false →
      i.inVariant cfg.variant = true ∧ i.lineInRange cfg = true := by
    intro i h
    obtain ⟨c, rfl, -⟩ := savedState_eq_false_iff.mp h
    exact ⟨rfl, rfl⟩
  constructor
  · intro h
    simp only [decode] at h
    split_ifs at h with hvariant hline hsaved
    · cases h
    · cases h
    · exact hsaved
  · intro h
    simp [decode, h, hearlier _ h]

/-- Settles O4: each reason is its own check (`decode_eq_absentInVariant_iff` and the two after it), and the rows that
fail a check are those of the calls named. -/
theorem decodeRejects : Obligations.DecodeRejects := by
  intro cfg ctx call
  have hrender : ∀ l, decodeRow cfg.variant ctx call = .render l ↔ call = .render l := fun _ => decodeRow_eq_iff rfl rfl
  have hrestore : ∀ c, decodeRow cfg.variant ctx call = .restore c ↔ call = .restore c :=
    fun _ => decodeRow_eq_iff rfl rfl
  refine ⟨decode_eq_absentInVariant_iff.trans inVariant_decodeRow_eq_false_iff, ?_, ?_⟩
  · simp only [decode_eq_lineOutOfRange_iff, lineInRange_eq_false_iff, hrender]
  · simp only [decode_eq_notASavedState_iff, savedState_eq_false_iff, hrestore]

theorem step_refused_of_absent {s : State} {call : Call} {rest : List Call} (hv : s.cfg.variant ≠ .H)
    (hcall : (∃ b, call = .wp b) ∨ (∃ b, call = .wi b) ∨ call = .update) (hinput : s.input = call :: rest) :
    step s = .refused .absentInVariant :=
  step_of_decode_error hinput ((decodeRejects s.cfg s.ctx call).1.mpr ⟨hv, hcall⟩)

/-- Settles O16: decoding turns the calls away, and each of the rows runs in its own variant only. -/
theorem absentPortsRefused : Obligations.AbsentPortsRefused := by
  intro s d rest
  refine ⟨?_, fun hv i hi => ?_, fun hv i hi => ?_⟩
  · rintro hv (hinput | hinput | hinput)
    · exact step_refused_of_absent hv (.inl ⟨d, rfl⟩) hinput
    · exact step_refused_of_absent hv (.inr (.inl ⟨d, rfl⟩)) hinput
    · exact step_refused_of_absent hv (.inr (.inr rfl)) hinput
  · simp only [List.mem_cons, List.not_mem_nil, or_false] at hi
    rcases hi with rfl | rfl | rfl | rfl | rfl | rfl | rfl | rfl <;> exact only_of_ne _ hv
  · simp only [List.mem_cons, List.not_mem_nil, or_false] at hi
    rcases hi with rfl | rfl <;> exact only_of_ne _ hv

end Sys2Proof.Machine
end

section
/-! PROOFS of 41_register_bank: what a register write stores and what else it does, in each variant, the mode tables and
the derived geometry in numbers. -/

namespace Sys2Proof.Machine

/-! ### The register write of each variant -/

theorem regWrite_of_B {cfg : Config} (hv : cfg.variant = .B) (c : Chip) (n : Nat) (b : Byte) :
    regWrite cfg c n b = regWriteB c n b := by rw [regWrite, hv]

theorem regWrite_of_E {cfg : Config} (hv : cfg.variant = .E) (c : Chip) (n : Nat) (b : Byte) :
    regWrite cfg c n b = regWriteE cfg c n b := by rw [regWrite, hv]

theorem regWrite_of_H {cfg : Config} (hv : cfg.variant = .H) (c : Chip) (n : Nat) (b : Byte) :
    regWrite cfg c n b = regWriteH c n b := by rw [regWrite, hv]

theorem regWriteB_of_lt (c : Chip) {n : Nat} (hn : n < 8) (b : Byte) : regWriteB c n b = c.setR n b :=
  if_neg (Nat.not_le.mpr hn)

/-! ### Plain stores of variant H -/

theorem regWriteH_of_le (c : Chip) {n : Nat} (hn : 48 ≤ n) (b : Byte) : regWriteH c n b = c := if_pos hn

theorem sideEffectH_of_plain (c : Chip) {n : Nat} (h16 : n ≠ 16) (h44 : n ≠ 44) (h46 : n ≠ 46) (b : Byte) :
    sideEffectH c n b = c := by
  rw [sideEffectH, if_neg h16, if_neg h44, if_neg h46]

/-- R44 has an effect on the two host-driven writes of the engine only (R268). -/
theorem writeR44_of_no_transfer {c : Chip} (hlmmc : c.engine ≠ .running .lmmc) (hhmmc : c.engine ≠ .running .hmmc) :
    writeR44 c = c := by
  unfold writeR44
  split
  · exact absurd ‹_› hlmmc
  · exact absurd ‹_› hhmmc
  all_goals rfl

/-- Settles O23: a number from 2 up changes no mode, so what remains of a write is its side effect. -/
theorem registerStores : Obligations.RegisterStores := by
  refine fun cfg c n b => ⟨fun hv hn => ?_, fun hv hn => ?_, fun hv h2 hn h16 h44 h46 => ?_, fun hv hn => ?_,
    fun hv hn hlmmc hhmmc => ?_⟩
  · rw [regWrite_of_B hv, regWriteB_of_lt c hn]
  · rw [regWrite_of_H hv, regWriteH_of_le c hn]
  · rw [regWrite_of_H hv, regWriteH_eq c h2 hn, sideEffectH_of_plain _ h16 h44 h46]
  · subst hn
    rw [regWrite_of_H hv, regWriteH_eq c (by decide) (by decide)]
    rfl
  · subst hn
    rw [regWrite_of_H hv, regWriteH_eq c (by decide) (by decide)]
    exact writeR44_of_no_transfer (c := c.setR 44 b) hlmmc hhmmc

/-! ### The lock of variant E -/

theorem lockAfter_of_ne (cfg : Config) (l : Lock) {n : Nat} (hn : n ≠ 57) (b : Byte) :
    lockAfter cfg l n b = { unlocked := l.unlocked, unlockCount := 0 } := if_neg hn

/-- While locked the numbers past the base set fold into it, and those of the base set stay (R290). -/
theorem lockTarget_of_locked {c : Chip} (hlock : c.lock.unlocked = false) {n : Nat} (hn : n ≠ 57) :
    lockTarget c n = n % 8 := by
  rw [lockTarget, if_neg hn, hlock]
  by_cases h8 : 8 ≤ n
  · rw [if_pos ⟨rfl, h8⟩]
  · rw [if_neg fun h => h8 h.2, Nat.mod_eq_of_lt (Nat.not_le.mp h8)]

theorem lockTarget_of_unlocked {c : Chip} (hlock : c.lock.unlocked = true) (n : Nat) : lockTarget c n = n := by
  rw [lockTarget, hlock]
  split_ifs with h57 hfold
  · exact h57.symm
  · exact absurd hfold.1 (by decide)
  · rfl

/-- A write that the lock filter sends to register `k` stores there, unless it is a bank reset. -/
theorem regWriteE_store (cfg : Config) {c : Chip} {n k : Nat} {b : Byte} (htarget : lockTarget c n = k) (hk : k < 64)
    (hreset : ¬ (k = 50 ∧ b.getLsbD 7 = true)) :
    regWriteE cfg c n b = { c.setR k b with lock := lockAfter cfg c.lock n b } := by
  rw [regWriteE, htarget]
  simp only [sideEffectE, if_neg hreset, if_neg (show ¬ nreg .E ≤ k from Nat.not_le.mpr hk)]
  rfl

/-- A locked write lands in the base set, where no bank reset is. -/
theorem regWriteE_of_locked (cfg : Config) {c : Chip} (hlock : c.lock.unlocked = false) {n : Nat} (hn : n ≠ 57) (b : Byte) :
    regWriteE cfg c n b = { c.setR (n % 8) b with lock := { unlocked := false, unlockCount := 0 } } := by
  have htarget := lockTarget_of_locked hlock hn
  rw [regWriteE_store cfg htarget (by omega) (by omega), lockAfter_of_ne cfg _ hn, hlock]

/-- Settles O24: the write lands where the lock filter sends it, and the lock moves as R290 says. -/
theorem lockFilter : Obligations.LockFilter := by
  refine fun cfg c n b hv => ⟨?_, fun _ hne hlock => ?_, fun hn hne hlock hreset => ?_⟩
  · rw [regWrite_of_E hv, regWriteE_57]
    rfl
  · rw [regWrite_of_E hv, regWriteE_of_locked cfg hlock hne]
  · rw [regWrite_of_E hv, regWriteE_store cfg (lockTarget_of_unlocked hlock n) hn hreset, lockAfter_of_ne cfg _ hne, hlock]

/-! ### The bank reset of variant E -/

theorem regWriteE_bankReset (cfg : Config) {c : Chip} (hlock : c.lock.unlocked = true) {b : Byte}
    (hbit : b.getLsbD 7 = true) : regWriteE cfg c 50 b = bankReset c := by
  rw [regWriteE, lockTarget_of_unlocked hlock]
  simp only [sideEffectE, hbit]
  rfl

theorem R_bankReset (c : Chip) (n : Nat) : (bankReset c).R n = if n = 48 then 0x01 else 0x00 := by
  show ((Vector.replicate 64 (0 : Byte)).setIfInBounds 48 0x01)[n]?.getD 0 = _
  rw [Vector.getElem?_setIfInBounds, Vector.getElem?_replicate]
  by_cases h48 : n = 48
  · simp [h48]
  · by_cases h64 : n < 64 <;> simp [h48, h64, Ne.symm h48]

/-- Settles O25: an unlocked write to R50 with bit 7 is `bankReset`; a locked one is an ordinary write to R2. -/
theorem bankResetOnR50 : Obligations.BankReset := by
  refine fun cfg c b hv hbit => ⟨fun hlock => ?_, fun hlock => ?_⟩
  · exact ⟨bankReset c, by rw [regWrite_of_E hv, regWriteE_bankReset cfg hlock hbit], rfl, fun n _ => R_bankReset c n⟩
  · rw [regWrite_of_E hv, regWriteE_of_locked cfg hlock (by decide)]

/-! ### A mode change in variant H -/

/-- R0 and R1 have no side effect of their own, so a write of them stores, and then stops a command if the mode changed. -/
theorem regWriteH_of_lt_two (c : Chip) {n : Nat} (hn : n < 2) (b : Byte) :
    regWriteH c n b =
      if modeOf .H (c.setR n b) ≠ modeOf .H c ∧ c.engine ≠ .idle then finish (c.setR n b) else c.setR n b := by
  rw [regWriteH, if_neg (Nat.not_le.mpr (lt_trans hn (by decide))), sideEffectH_of_plain _ (by omega) (by omega) (by omega)]
  rfl

/-- Settles O27: a write of R0 or R1 has no effect but the abort. -/
theorem abortOnModeChangeStops : Obligations.AbortOnModeChange := by
  refine fun cfg c n b hv hn => ⟨fun hmode hengine => ?_, fun hkeep => ?_⟩
  · rw [regWrite_of_H hv, regWriteH_of_lt_two c hn, if_pos ⟨hmode, hengine⟩]
    rfl
  · rw [regWrite_of_H hv, regWriteH_of_lt_two c hn, if_neg]
    exact fun ⟨hmode, hengine⟩ => hkeep.elim hmode hengine

/-! ### The mode tables -/

theorem modeOf_of_ne_H {v : Variant} (hv : v ≠ .H) (c : Chip) :
    modeOf v c = modeBE ((c.R 1).getLsbD 4) ((c.R 1).getLsbD 3) ((c.R 0).getLsbD 1) := by
  cases v with
  | B | E => rfl
  | H => exact absurd rfl hv

theorem modeOf_H (c : Chip) :
    modeOf .H c = modeH ((c.R 0).getLsbD 3) ((c.R 0).getLsbD 2) ((c.R 0).getLsbD 1) ((c.R 1).getLsbD 3)
      ((c.R 1).getLsbD 4) := rfl

/-- Settles O29: every row of the two tables, over the eight and the thirty-two combinations of the mode bits. -/
theorem modeDecoding : Obligations.ModeDecoding := by
  intro c m1 m2 m3 m4 m5 h1 h2 h3 h4 h5
  refine ⟨fun v hv => ?_, ?_⟩
  · rw [modeOf_of_ne_H hv, ← h1, ← h2, ← h3]
    clear h1 h2 h3
    revert m1 m2 m3
    decide
  · rw [modeOf_H, ← h1, ← h2, ← h3, ← h4, ← h5]
    clear h1 h2 h3 h4 h5
    revert m1 m2 m3 m4 m5
    decide

/-! ### Bit fields of a register -/

/-- The field of `k` bits from bit `i` up, left in its place. -/
theorem toNat_and_field (b : Byte) {i k : Nat} (h : i + k ≤ 8) :
    (b &&& BitVec.ofNat 8 ((2 ^ k - 1) <<< i)).toNat = b.toNat / 2 ^ i % 2 ^ k * 2 ^ i := by
  have hmask : (2 ^ k - 1) <<< i < 2 ^ 8 := by
    have hlt : 2 ^ k - 1 < 2 ^ k := Nat.sub_lt (Nat.two_pow_pos k) Nat.one_pos
    calc (2 ^ k - 1) <<< i = (2 ^ k - 1) * 2 ^ i := Nat.shiftLeft_eq _ _
      _ < 2 ^ k * 2 ^ i := Nat.mul_lt_mul_of_pos_right hlt (Nat.two_pow_pos i)
      _ = 2 ^ (i + k) := by rw [← Nat.pow_add, Nat.add_comm]
      _ ≤ 2 ^ 8 := Nat.pow_le_pow_right (by decide) h
  rw [BitVec.toNat_and, BitVec.toNat_ofNat, Nat.mod_eq_of_lt hmask, ← Nat.shiftRight_eq_div_pow,
    ← Nat.and_two_pow_sub_one_eq_mod, ← Nat.shiftLeft_eq]
  apply Nat.eq_of_testBit_eq
  intro j
  by_cases hj : i ≤ j <;> simp [hj, Bool.and_comm]

theorem toNat_and_0x03 (b : Byte) : (b &&& 0x03).toNat = b.toNat % 4 := toNat_and_lowMask b (k := 2) (by decide)

theorem toNat_and_0x07 (b : Byte) : (b &&& 0x07).toNat = b.toNat % 8 := toNat_and_lowMask b (k := 3) (by decide)

theorem toNat_and_0x7F (b : Byte) : (b &&& 0x7F).toNat = b.toNat % 128 := toNat_and_lowMask b (k := 7) (by decide)

theorem toNat_and_0x04 (b : Byte) : (b &&& 0x04).toNat = b.toNat / 4 % 2 * 4 :=
  toNat_and_field b (i := 2) (k := 1) (by decide)

theorem toNat_and_0x3C (b : Byte) : (b &&& 0x3C).toNat = b.toNat / 4 % 16 * 4 :=
  toNat_and_field b (i := 2) (k := 4) (by decide)

theorem toNat_and_0x20 (b : Byte) : (b &&& 0x20).toNat = b.toNat / 32 % 2 * 32 :=
  toNat_and_field b (i := 5) (k := 1) (by decide)

theorem toNat_and_0x60 (b : Byte) : (b &&& 0x60).toNat = b.toNat / 32 % 4 * 32 :=
  toNat_and_field b (i := 5) (k := 2) (by decide)

theorem toNat_and_0x80 (b : Byte) : (b &&& 0x80).toNat = b.toNat / 128 * 128 := by
  have hfield : (b &&& 0x80).toNat = b.toNat / 128 % 2 * 128 := toNat_and_field b (i := 7) (k := 1) (by decide)
  have hb := b.isLt
  omega

theorem getLsbD_iff_div_mod {w : Nat} (b : BitVec w) (k : Nat) : b.getLsbD k = true ↔ b.toNat / 2 ^ k % 2 = 1 := by
  rw [BitVec.getLsbD, Nat.testBit_eq_decide_div_mod_eq, decide_eq_true_iff]

/-! ### Table bases and masks as numbers -/

/-- A base above its low bits: `or` of the two fields is their sum. -/
theorem shiftLeft_or_eq_add (a : Nat) {k x : Nat} (hx : x < 2 ^ k) : a <<< k ||| x = a * 2 ^ k + x := by
  rw [← Nat.shiftLeft_add_eq_or_of_lt hx, Nat.shiftLeft_eq]

theorem nameBase_eq (v : Variant) (c : Chip) :
    nameBase v c = (if v = .H then (c.R 2).toNat % 128 else (c.R 2).toNat % 16) * 1024 := by
  cases v with
  | B | E =>
    rw [nameBase, toNat_and_0x0F, Nat.shiftLeft_eq]
    rfl
  | H =>
    rw [nameBase, toNat_and_0x7F, Nat.shiftLeft_eq]
    rfl

theorem colourMask_eq (c : Chip) : colourMask c = (c.R 3).toNat % 128 * 64 + 63 := by
  rw [colourMask, toNat_and_0x7F]
  exact shiftLeft_or_eq_add _ (k := 6) (by decide)

theorem patternMask_eq (c : Chip) : patternMask c = (c.R 4).toNat % 4 * 2048 + colourMask c % 2048 := by
  have hlow : colourMask c &&& 0x7FF = colourMask c % 2048 := Nat.and_two_pow_sub_one_eq_mod _ 11
  rw [patternMask, toNat_and_0x03, hlow]
  exact shiftLeft_or_eq_add _ (k := 11) (Nat.mod_lt _ (by decide))

/-- `CThi` lies above any colour table offset of 14 bits. -/
theorem colourHigh_or (v : Variant) (c : Chip) {x : Nat} (hx : x < 16384) :
    colourHigh v c ||| x = (if v = .H then (c.R 10).toNat % 8 * 16384 else 0) + x := by
  cases v with
  | B | E => simp [colourHigh]
  | H =>
    rw [colourHigh, toNat_and_0x07]
    exact shiftLeft_or_eq_add _ (k := 14) hx

theorem colourBase_of_not_bitmap {v : Variant} {c : Chip} (h : bitmapMode (modeOf v c) = false) :
    colourBase v c = (if v = .H then (c.R 10).toNat % 8 * 16384 else 0) + (c.R 3).toNat * 64 := by
  have hr := (c.R 3).isLt
  simp only [colourBase, h, Bool.false_eq_true, if_false, Nat.shiftLeft_eq]
  exact colourHigh_or v c (by omega)

theorem colourBase_of_bitmap {v : Variant} {c : Chip} (h : bitmapMode (modeOf v c) = true) :
    colourBase v c = (if v = .H then (c.R 10).toNat % 8 * 16384 else 0) + (c.R 3).toNat / 128 * 8192 := by
  have hr := (c.R 3).isLt
  simp only [colourBase, h, if_true, toNat_and_0x80, Nat.shiftLeft_eq]
  rw [colourHigh_or v c (by omega), Nat.mul_assoc]

theorem patternBase_of_not_bitmap {v : Variant} {c : Chip} (h : bitmapMode (modeOf v c) = false) :
    patternBase v c = (if v = .H then (c.R 4).toNat % 64 else (c.R 4).toNat % 8) * 2048 := by
  unfold patternBase
  rw [if_neg (Bool.eq_false_iff.mp h)]
  cases v with
  | B | E => simp only [toNat_and_0x07, Nat.shiftLeft_eq, Nat.reducePow, reduceCtorEq, if_false]
  | H => simp only [toNat_and_0x3F, Nat.shiftLeft_eq, Nat.reducePow, if_true]

theorem patternBase_of_bitmap {v : Variant} {c : Chip} (h : bitmapMode (modeOf v c) = true) :
    patternBase v c = (if v = .H then (c.R 4).toNat / 4 % 16 else (c.R 4).toNat / 4 % 2) * 8192 := by
  unfold patternBase
  rw [if_pos h]
  cases v with
  | B | E =>
    simp only [toNat_and_0x04, Nat.shiftLeft_eq, Nat.mul_assoc, Nat.reducePow, Nat.reduceMul, reduceCtorEq, if_false]
  | H => simp only [toNat_and_0x3C, Nat.shiftLeft_eq, Nat.mul_assoc, Nat.reducePow, Nat.reduceMul, if_true]

theorem spriteBase_eq (v : Variant) (c : Chip) :
    spriteBase v c =
      if v = .H then (c.R 11).toNat % 4 * 32768 + (c.R 5).toNat * 128 else (c.R 5).toNat % 128 * 128 := by
  cases v with
  | B | E =>
    rw [spriteBase, toNat_and_0x7F, Nat.shiftLeft_eq]
    rfl
  | H =>
    have hr := (c.R 5).isLt
    rw [spriteBase, if_pos rfl, toNat_and_0x03, Nat.shiftLeft_eq (c.R 5).toNat]
    exact shiftLeft_or_eq_add _ (k := 15) (by omega)

theorem spritePatternBase_eq (v : Variant) (c : Chip) :
    spritePatternBase v c = (if v = .H then (c.R 6).toNat % 64 else (c.R 6).toNat % 8) * 2048 := by
  cases v with
  | B | E =>
    rw [spritePatternBase, toNat_and_0x07, Nat.shiftLeft_eq]
    rfl
  | H =>
    rw [spritePatternBase, toNat_and_0x3F, Nat.shiftLeft_eq]
    rfl

theorem pageBase_of_G4_G5 {v : Variant} {c : Chip} (h : modeOf v c = .G4 ∨ modeOf v c = .G5) :
    pageBase v c = (c.R 2).toNat / 32 % 4 * 32768 := by
  rcases h with h | h <;> simp only [pageBase, h, toNat_and_0x60, Nat.shiftLeft_eq, Nat.mul_assoc, Nat.reducePow, Nat.reduceMul]

theorem pageBase_of_G6_G7 {v : Variant} {c : Chip} (h : modeOf v c = .G6 ∨ modeOf v c = .G7) :
    pageBase v c = (c.R 2).toNat / 32 % 2 * 65536 := by
  rcases h with h | h <;> simp only [pageBase, h, toNat_and_0x20, Nat.shiftLeft_eq, Nat.mul_assoc, Nat.reducePow, Nat.reduceMul]

/-! ### Colours and sprite sizes as numbers -/

theorem toNat_textColour (c : Chip) : (textColour c).toNat = (c.R 7).toNat / 16 := by
  rw [textColour, BitVec.toNat_ushiftRight]
  exact Nat.shiftRight_eq_div_pow _ 4

theorem toNat_backdrop (v : Variant) (c : Chip) :
    (backdrop v c).toNat = if modeOf v c = .G7 then (c.R 7).toNat else (c.R 7).toNat % 16 := by
  rw [backdrop, apply_ite BitVec.toNat, toNat_and_0x0F]

theorem spriteSize_eq (c : Chip) : spriteSize c = if (c.R 1).toNat / 2 % 2 = 1 then 16 else 8 := by
  simp only [spriteSize, getLsbD_iff_div_mod, pow_one]

theorem spriteMag_eq (c : Chip) : spriteMag c = if (c.R 1).toNat % 2 = 1 then 2 else 1 := by
  simp only [spriteMag, getLsbD_iff_div_mod, pow_zero, Nat.div_one]

/-! ### Masked table addresses -/

theorem colourMask_lt (c : Chip) : colourMask c < 8192 := by
  rw [colourMask_eq]
  omega

theorem patternMask_lt (c : Chip) : patternMask c < 8192 := by
  rw [patternMask_eq]
  omega

/-- In the bitmap modes the colour table has 8192 bytes of its own, aligned and inside the address range. -/
theorem colourBase_aligned {v : Variant} {c : Chip} (h : bitmapMode (modeOf v c) = true) :
    8192 ∣ colourBase v c ∧ colourBase v c + 8192 ≤ addrSize v := by
  have hr := (c.R 3).isLt
  rw [colourBase_of_bitmap h]
  cases v with
  | B | E | H =>
    simp only [addrSize, reduceCtorEq, if_true, if_false]
    omega

/-- In the bitmap modes the pattern table has 8192 bytes of its own, aligned and inside the address range. -/
theorem patternBase_aligned {v : Variant} {c : Chip} (h : bitmapMode (modeOf v c) = true) :
    8192 ∣ patternBase v c ∧ patternBase v c + 8192 ≤ addrSize v := by
  rw [patternBase_of_bitmap h]
  cases v with
  | B | E | H =>
    simp only [addrSize, reduceCtorEq, if_true, if_false]
    omega

/-- A masked offset above an aligned base is a sum, and stays inside the address range (R281). -/
theorem masked_address {size base mask : Nat} (hbase : 8192 ∣ base ∧ base + 8192 ≤ size) (hmask : mask < 8192)
    (off : Nat) : (base ||| (off &&& mask)) = base + (off &&& mask) ∧ base + (off &&& mask) < size := by
  obtain ⟨⟨m, rfl⟩, hsize⟩ := hbase
  have hlow : off &&& mask < 8192 := lt_of_le_of_lt Nat.and_le_right hmask
  exact ⟨(Nat.two_pow_add_eq_or_of_lt (i := 13) hlow m).symm, by omega⟩

/-- Settles O30: each value by its own equation, and the masked addresses from the aligned bases. -/
theorem derivedGeometry : Obligations.DerivedGeometry := by
  intro v c r hr
  obtain rfl : r = fun n => (c.R n).toNat := funext hr
  refine ⟨nameBase_eq v c, colourMask_eq c, ?_, fun h => ⟨colourBase_of_not_bitmap h, patternBase_of_not_bitmap h⟩,
    fun h => ⟨colourBase_of_bitmap h, patternBase_of_bitmap h, fun off => ?_⟩, spriteBase_eq v c,
    spritePatternBase_eq v c, pageBase_of_G4_G5, pageBase_of_G6_G7, toNat_textColour c, toNat_backdrop v c,
    spriteSize_eq c, spriteMag_eq c⟩
  · rw [patternMask_eq, colourMask_eq]
  · obtain ⟨hcolourSum, hcolourLt⟩ := masked_address (colourBase_aligned h) (colourMask_lt c) off
    obtain ⟨hpatternSum, hpatternLt⟩ := masked_address (patternBase_aligned h) (patternMask_lt c) off
    exact ⟨hcolourSum, hcolourLt, hpatternSum, hpatternLt⟩

end Sys2Proof.Machine
end

section
/-! PROOFS of 42_renderer: when a render runs and what its events do, the pixels of each background, the sprite scan, and
the sprites of a line as one list of plotted pixels, from which priority and collision follow. -/

namespace Sys2Proof.Machine

/-! ### When a render runs -/

theorem extendedInUse_iff (c : Chip) : extendedInUse c = true ↔ c.refusedE := by
  simp only [extendedInUse, describedE, Chip.refusedE, List.any_eq_true, List.mem_range, Bool.and_eq_true,
    Bool.not_eq_true', Bool.or_eq_false_iff, decide_eq_false_iff_not, beq_eq_false_iff_ne, bne_iff_ne, Nat.not_lt]
  exact exists_congr fun n => by tauto

theorem if_some_eq_none_iff {α : Type} {p : Prop} [Decidable p] {r : α} {o : Option α} :
    (if p then some r else o) = none ↔ ¬ p ∧ o = none := by
  by_cases h : p <;> simp [h]

theorem renderRefusal_eq_none_iff (v : Variant) (c : Chip) (l : Nat) :
    renderRefusal v c l = none ↔
      (v = .E → ¬ c.refusedE) ∧ (v = .H → l < visibleLines .H c → ¬ c.refusedH) := by
  cases v with
  | B => simp [renderRefusal]
  | E => simp [renderRefusal, ← extendedInUse_iff]
  | H =>
    simp only [renderRefusal, Chip.refusedH, ite_eq_left_iff, if_some_eq_none_iff, not_or, forall_const, reduceCtorEq,
      false_implies, true_and, and_true, and_assoc, not_le]

/-- A render that is not refused ends with the rendered line. -/
theorem exec_render_of_renders {s : State} {l : Nat} (h : s.renders l) :
    exec (.render l) s = s.after (renderLine s.cfg s.chip l).1 (renderLine s.cfg s.chip l).2 := by
  obtain ⟨hframe, hconfig⟩ := h
  show execRender l s = _
  rw [execRender, if_neg (Nat.not_le.mpr hframe), (renderRefusal_eq_none_iff _ _ _).mpr hconfig]
  rfl

theorem exec_render_past_frame {s : State} {l : Nat} (h : s.cfg.totalLines ≤ l) :
    exec (.render l) s = .refused .lineOutOfRange := if_pos h

theorem exec_render_of_refusal {s : State} {l : Nat} {r : Refusal} (hframe : l < s.cfg.totalLines)
    (h : renderRefusal s.cfg.variant s.chip l = some r) : exec (.render l) s = .refused r := by
  show execRender l s = _
  rw [execRender, if_neg (Nat.not_le.mpr hframe), h]

theorem exec_render_of_not_renders {s : State} {l : Nat} (h : ¬ s.renders l) :
    ∃ r, exec (.render l) s = .refused r := by
  by_cases hframe : s.cfg.totalLines ≤ l
  · exact ⟨_, exec_render_past_frame hframe⟩
  · cases hr : renderRefusal s.cfg.variant s.chip l with
    | none => exact absurd ⟨Nat.not_le.mp hframe, (renderRefusal_eq_none_iff _ _ _).mp hr⟩ h
    | some r => exact ⟨r, exec_render_of_refusal (Nat.not_le.mp hframe) hr⟩

/-- The next state of a render is that of a render that is not refused. -/
theorem exec_render_next {s t : State} {l : Nat} (h : exec (.render l) s = .next t) :
    t = { s with chip := (renderLine s.cfg s.chip l).1, out := (renderLine s.cfg s.chip l).2 } := by
  by_cases hr : s.renders l
  · rw [exec_render_of_renders hr] at h
    cases h
    rfl
  · obtain ⟨r, hrefused⟩ := exec_render_of_not_renders hr
    rw [hrefused] at h
    cases h

theorem visibleLines_eq (v : Variant) (c : Chip) :
    visibleLines v c = if v = .H ∧ (c.R 9).getLsbD 7 = true then 212 else 192 := by
  cases v <;> simp [visibleLines]

/-! ### The start of a line -/

/-- What reads neither the status registers nor the interrupt output nor the collision latch, the start of a line leaves. -/
theorem apply_beginLine {α : Type} (F : Chip → α)
    (hF : ∀ (c : Chip) (f i r : Bool),
      F { c with status := { c.status with fh := f }, intLine := i, collisionReported := r } = F c)
    (v : Variant) (c : Chip) (l : Nat) : F (beginLine v c l) = F c := by
  obtain ⟨f, i, r, h⟩ := beginLine_eq v c l
  rw [h, hF]

section
variable (v w : Variant) (c : Chip) (l : Nat)

@[simp] theorem R_beginLine (n : Nat) : (beginLine w c l).R n = c.R n :=
  apply_beginLine (·.R n) (fun _ _ _ _ => rfl) w c l

@[simp] theorem modeOf_beginLine : modeOf v (beginLine w c l) = modeOf v c :=
  apply_beginLine (modeOf v) (fun _ _ _ _ => rfl) w c l

@[simp] theorem blankLine_beginLine : blankLine v (beginLine w c l) = blankLine v c :=
  apply_beginLine (blankLine v) (fun _ _ _ _ => rfl) w c l

@[simp] theorem background_beginLine (k : Nat) : background v (beginLine w c l) k = background v c k :=
  apply_beginLine (background v · k) (fun _ _ _ _ => rfl) w c l

@[simp] theorem spritesShown_beginLine : spritesShown v (beginLine w c l) = spritesShown v c :=
  apply_beginLine (spritesShown v) (fun _ _ _ _ => rfl) w c l

@[simp] theorem spritesOn_beginLine (k : Nat) : spritesOn v (beginLine w c l) k = spritesOn v c k :=
  apply_beginLine (spritesOn v · k) (fun _ _ _ _ => rfl) w c l

@[simp] theorem spritesDrawn_beginLine (cfg : Config) (k : Nat) :
    spritesDrawn cfg (beginLine w c l) k = spritesDrawn cfg c k :=
  apply_beginLine (spritesDrawn cfg · k) (fun _ _ _ _ => rfl) w c l

@[simp] theorem spriteCovers_beginLine (k x i : Nat) :
    spriteCovers v (beginLine w c l) k x i = spriteCovers v c k x i :=
  apply_beginLine (spriteCovers v · k x i) (fun _ _ _ _ => rfl) w c l

@[simp] theorem spriteColour_beginLine (i : Nat) : spriteColour v (beginLine w c l) i = spriteColour v c i :=
  apply_beginLine (spriteColour v · i) (fun _ _ _ _ => rfl) w c l

@[simp] theorem spritesCollide_beginLine (cfg : Config) (k : Nat) :
    spritesCollide cfg (beginLine w c l) k ↔ spritesCollide cfg c k := by
  rw [apply_beginLine (spritesCollide cfg · k) (fun _ _ _ _ => rfl) w c l]

/-- The start of a line in its flags: line 0 opens the collision latch (R322), and the line R19 names sets FH (R353). -/
theorem beginLine_eq_flags :
    beginLine v c l = { c with
      status := { c.status with fh := c.status.fh || (decide (v ≠ .B) && decide (l = (c.R 19).toNat)) }
      intLine := c.intLine || (decide (v ≠ .B) && decide (l = (c.R 19).toNat) && (c.R 0).getLsbD 4)
      collisionReported := c.collisionReported && decide (l ≠ 0) } := by
  have hstart : (if l = 0 then { c with collisionReported := false } else c) =
      { c with collisionReported := c.collisionReported && decide (l ≠ 0) } := by
    by_cases h : l = 0 <;> simp [h]
  have hR : ∀ (r : Bool) (n : Nat), ({ c with collisionReported := r } : Chip).R n = c.R n := fun _ _ => rfl
  simp only [beginLine, hstart, lineEvent, hR, ne_eq, ← Bool.decide_and]
  split_ifs with hline <;> simp [hline]

end

/-! ### The chip after a line -/

/-- The chip a line leaves, before the frame event. -/
def lineChip (cfg : Config) (c : Chip) (l : Nat) : Chip :=
  if l < visibleLines cfg.variant c then (drawLine cfg (beginLine cfg.variant c l) l).1 else beginLine cfg.variant c l

theorem renderLine_fst (cfg : Config) (c : Chip) (l : Nat) :
    (renderLine cfg c l).1 =
      if l + 1 = visibleLines cfg.variant c then frameEvent (lineChip cfg c l) else lineChip cfg c l := by
  unfold renderLine lineChip
  by_cases hvisible : l < visibleLines cfg.variant c
  · simp only [hvisible, if_true]
  · simp only [hvisible, if_false, if_neg (show ¬ l + 1 = visibleLines cfg.variant c by omega)]

theorem renderLine_snd_of_visible {cfg : Config} {c : Chip} {l : Nat} (h : l < visibleLines cfg.variant c) :
    (renderLine cfg c l).2 = .line (drawLine cfg (beginLine cfg.variant c l) l).2 := by
  simp only [renderLine, if_pos h]

theorem renderLine_snd_of_invisible {cfg : Config} {c : Chip} {l : Nat} (h : visibleLines cfg.variant c ≤ l) :
    (renderLine cfg c l).2 = .none := by
  simp only [renderLine, if_neg (Nat.not_lt.mpr h)]

theorem drawLine_of_blank {cfg : Config} {c : Chip} (l : Nat) (h : (c.R 1).getLsbD 6 = false) :
    drawLine cfg c l = (c, blankLine cfg.variant c) := if_pos h

theorem drawLine_of_sprites {cfg : Config} {c : Chip} (l : Nat) (hon : (c.R 1).getLsbD 6 = true)
    (h : spritesShown cfg.variant c = true) :
    drawLine cfg c l =
      ({ c with status := { c.status with s0 := (composeSprites cfg c l).s0 }
                collisionReported := (composeSprites cfg c l).reported },
        overlay (background cfg.variant c l) (composeSprites cfg c l).buf.toList) := by
  simp only [drawLine, hon, h, Bool.true_eq_false, if_true, if_false]

theorem drawLine_of_no_sprites {cfg : Config} {c : Chip} (l : Nat) (hon : (c.R 1).getLsbD 6 = true)
    (h : spritesShown cfg.variant c = false) : drawLine cfg c l = (c, background cfg.variant c l) := by
  simp only [drawLine, hon, h, Bool.true_eq_false, Bool.false_eq_true, if_false]

theorem lineWidth_eq (m : Mode) : lineWidth m = if m = .G5 ∨ m = .G6 then 512 else 256 := by
  cases m <;> rfl

/-- Settles O54: `exec_render_of_renders` and the refusals, with the widths of `length_drawLine`. -/
theorem renderRuns : Obligations.RenderRuns := by
  intro s l
  refine ⟨visibleLines_eq _ _, fun hr => ?_, exec_render_of_not_renders, exec_render_past_frame, fun hframe hE hrefused =>
    exec_render_of_refusal hframe ?_⟩
  · refine ⟨_, exec_render_of_renders hr, ?_, fun hvisible => ?_, renderLine_snd_of_invisible, fun hblank px hpx x hx => ?_⟩
    · obtain ⟨x, f, i, r, h⟩ := renderLine_eq s.cfg s.chip l
      rw [h]
    · refine ⟨_, renderLine_snd_of_visible hvisible, ?_⟩
      rw [length_drawLine, modeOf_beginLine, lineWidth_eq]
    · by_cases hvisible : l < visibleLines s.cfg.variant s.chip
      · have hline := (renderLine_snd_of_visible hvisible).symm.trans hpx
        rw [drawLine_of_blank l (by rw [R_beginLine, hblank]), blankLine_beginLine] at hline
        cases hline
        rw [List.eq_of_mem_replicate hx, toNat_backdrop]
      · cases (renderLine_snd_of_invisible (Nat.not_lt.mp hvisible)).symm.trans hpx
  · rw [hE]
    exact if_pos ((extendedInUse_iff _).mpr hrefused)

/-! ### Pixels of a line -/

/-- A line without sprites shows its background. -/
theorem render_background {s : State} {l : Nat} (hr : s.renders l) (hvisible : l < visibleLines s.cfg.variant s.chip)
    (hon : (s.chip.R 1).getLsbD 6 = true) (hplain : spritesShown s.cfg.variant s.chip = false) :
    ∃ t, exec (.render l) s = .next t ∧ t.out = .line (background s.cfg.variant s.chip l) := by
  refine ⟨_, exec_render_of_renders hr, (renderLine_snd_of_visible hvisible).trans ?_⟩
  rw [drawLine_of_no_sprites l (by rw [R_beginLine, hon]) (by rw [spritesShown_beginLine, hplain]), background_beginLine]

theorem vis_eq (v : Variant) (c : Chip) (x : Byte) :
    vis v c x = if x = 0 ∧ (v = .H → (c.R 8).getLsbD 5 = false) then backdrop v c else x := by
  cases v <;> simp [vis, colourZeroTransparent]

/-- `VRAM[a]` of the renderer and of the claims (00_scope R15). -/
theorem tableByte_eq_tableRead (v : Variant) (c : Chip) (a : Nat) : tableByte v c a = tableRead v c a := by
  cases v <;> rfl

/-- Pixel `x` of a row of cells of one width lies in cell `x / k`. -/
theorem getElem?_cells {α : Type} {n k x : Nat} {f : Nat → List α} (hlen : ∀ i, (f i).length = k) (hx : x < n * k) :
    ((List.range n).flatMap f)[x]? = (f (x / k))[x % k]? := by
  induction n with
  | zero => exact absurd hx (by simp)
  | succ n ih =>
    have hrow : ((List.range n).flatMap f).length = n * k := by simp [List.length_flatMap, hlen]
    rw [List.range_succ, List.flatMap_append, List.flatMap_singleton]
    by_cases hlt : x < n * k
    · rw [List.getElem?_append_left (by rwa [hrow]), ih hlt]
    · have hle := Nat.not_lt.mp hlt
      have hcell : x / k = n := Nat.div_eq_of_lt_le hle hx
      rw [List.getElem?_append_right (by rwa [hrow]), hrow, hcell, ← hcell, Nat.mul_comm, ← Nat.mod_eq_sub_mul_div]

theorem getElem?_patternPixels {n x : Nat} (hx : x < n) (pat fg bg : Byte) :
    (patternPixels n pat fg bg)[x]? = some (if pat.getLsbD (7 - x) then fg else bg) := by
  simp [patternPixels, hx]

theorem getElem?_two_runs {n m x : Nat} (hx : x < n + m) (a b : Byte) :
    (List.replicate n a ++ List.replicate m b)[x]? = some (if x < n then a else b) := by
  rw [List.getElem?_append, List.length_replicate]
  split_ifs with h
  · exact List.getElem?_replicate_of_lt h
  · exact List.getElem?_replicate_of_lt (by omega)

theorem length_textPixels (v : Variant) (c : Chip) (pat : Byte) : (textPixels v c pat).length = 6 :=
  length_patternPixels _ _ _ _

theorem getElem?_multicolorPixels {x : Nat} (hx : x < 8) (v : Variant) (c : Chip) (b : Byte) :
    (multicolorPixels v c b)[x]? = some (vis v c (if x < 4 then highNibble b else lowNibble b)) := by
  rw [multicolorPixels, getElem?_two_runs hx, apply_ite (vis v c)]

theorem getElem?_withBorder_inside (v : Variant) (c : Chip) {px : List Byte} {x : Nat} (hx : x < px.length) :
    (withBorder v c px)[x + 8]? = px[x]? := by
  rw [withBorder, List.append_assoc, List.getElem?_append_right (by simp), List.length_replicate, Nat.add_sub_cancel,
    List.getElem?_append_left hx]

theorem getElem?_withBorder_border (v : Variant) (c : Chip) {px : List Byte} (hpx : px.length = 240) {x : Nat}
    (hx : x < 256) (hborder : x < 8 ∨ 248 ≤ x) : (withBorder v c px)[x]? = some (backdrop v c) := by
  rcases hborder with hleft | hright
  · rw [withBorder, List.append_assoc, List.getElem?_append_left (by simpa using hleft),
      List.getElem?_replicate_of_lt hleft]
  · rw [withBorder, List.getElem?_append_right (by simp [hpx, hright]), List.getElem?_replicate_of_lt]
    simp only [List.length_append, List.length_replicate, hpx]
    omega

/-- The field of `k` bits from bit `i` up, left in its place. -/
theorem nat_and_field (n i k : Nat) : n &&& (2 ^ k - 1) <<< i = n / 2 ^ i % 2 ^ k * 2 ^ i := by
  rw [← Nat.shiftRight_eq_div_pow, ← Nat.and_two_pow_sub_one_eq_mod, ← Nat.shiftLeft_eq]
  apply Nat.eq_of_testBit_eq
  intro j
  by_cases hj : i ≤ j <;> simp [hj, Bool.and_comm]

/-- The offset of the bitmap modes in numbers (R327). -/
theorem bitmapOffset_eq (l name row : Nat) : bitmapOffset l name row = l / 64 % 4 * 2048 + name * 8 + row := by
  have hthird : l &&& 0xC0 = l / 64 % 4 * 64 := nat_and_field l 6 2
  rw [bitmapOffset, hthird, Nat.mul_assoc]

/-! ### The background of each mode -/

theorem getElem?_patternCells {x : Nat} (hx : x < 256) (v : Variant) (c : Chip) (pat col : Nat → Byte) :
    ((List.range 32).flatMap fun k =>
      patternPixels 8 (pat k) (vis v c (highNibble (col k))) (vis v c (lowNibble (col k))))[x]? =
      some (vis v c (if (pat (x / 8)).getLsbD (7 - x % 8) then highNibble (col (x / 8)) else lowNibble (col (x / 8)))) := by
  rw [getElem?_cells (n := 32) (k := 8) (fun _ => length_patternPixels _ _ _ _) hx,
    getElem?_patternPixels (Nat.mod_lt _ (by decide)), apply_ite (vis v c)]

theorem getElem?_multicolorCells {x : Nat} (hx : x < 256) (v : Variant) (c : Chip) (b : Nat → Byte) :
    ((List.range 32).flatMap fun k => multicolorPixels v c (b k))[x]? =
      some (vis v c (if x % 8 < 4 then highNibble (b (x / 8)) else lowNibble (b (x / 8)))) := by
  rw [getElem?_cells (n := 32) (k := 8) (fun _ => length_multicolorPixels _ _ _) hx,
    getElem?_multicolorPixels (Nat.mod_lt _ (by decide))]

/-- Forty glyphs of six pixels, between the borders. -/
theorem getElem?_glyphs {x : Nat} (hx : x < 240) (v : Variant) (c : Chip) {f : Nat → List Byte}
    (hlen : ∀ k, (f k).length = 6) :
    (withBorder v c ((List.range 40).flatMap f))[x + 8]? = (f (x / 6))[x % 6]? := by
  rw [getElem?_withBorder_inside v c (by rwa [length_cells hlen]), getElem?_cells (n := 40) hlen hx]

theorem getElem?_textCells {x : Nat} (hx : x < 240) (v : Variant) (c : Chip) (pat : Nat → Byte) :
    (withBorder v c ((List.range 40).flatMap fun k => textPixels v c (pat k)))[x + 8]? =
      some (vis v c (if (pat (x / 6)).getLsbD (7 - x % 6) then textColour c else backdrop v c)) := by
  rw [getElem?_glyphs hx v c fun k => length_textPixels v c (pat k), textPixels,
    getElem?_patternPixels (Nat.mod_lt _ (by decide)), apply_ite (vis v c)]

section
variable {v : Variant} {c : Chip} {x : Nat}

theorem getElem?_background_G1 (hm : modeOf v c = .G1) (l : Nat) (hx : x < 256) {n : Nat} (hn : n = nameAt v c l 32 (x / 8)) :
    (background v c l)[x]? = some (vis v c
      (if (tableByte v c (patternBase v c + n * 8 + l % 8)).getLsbD (7 - x % 8)
        then highNibble (tableByte v c (colourBase v c + n / 8)) else lowNibble (tableByte v c (colourBase v c + n / 8)))) := by
  subst hn
  simp only [background, hm]
  exact getElem?_patternCells hx v c _ _

theorem getElem?_background_G2 (hm : modeOf v c = .G2) (l : Nat) (hx : x < 256) {o : Nat}
    (ho : o = bitmapOffset l (nameAt v c l 32 (x / 8)) (l % 8)) :
    (background v c l)[x]? = some (vis v c
      (if (tableByte v c (patternBase v c ||| (o &&& patternMask c))).getLsbD (7 - x % 8)
        then highNibble (tableByte v c (colourBase v c ||| (o &&& colourMask c)))
        else lowNibble (tableByte v c (colourBase v c ||| (o &&& colourMask c))))) := by
  subst ho
  simp only [background, hm]
  exact getElem?_patternCells hx v c _ _

theorem getElem?_background_MC (hm : modeOf v c = .MC) (l : Nat) (hx : x < 256) {b : Byte}
    (hb : b = tableByte v c (patternBase v c + nameAt v c l 32 (x / 8) * 8 + l / 4 % 8)) :
    (background v c l)[x]? = some (vis v c (if x % 8 < 4 then highNibble b else lowNibble b)) := by
  subst hb
  simp only [background, hm]
  exact getElem?_multicolorCells hx v c _

theorem getElem?_background_BMC (hm : modeOf v c = .BMC) (l : Nat) (hx : x < 256) {b : Byte}
    (hb : b = tableByte v c
      (patternBase v c ||| (bitmapOffset l (nameAt v c l 32 (x / 8)) (l / 4 % 8) &&& patternMask c))) :
    (background v c l)[x]? = some (vis v c (if x % 8 < 4 then highNibble b else lowNibble b)) := by
  subst hb
  simp only [background, hm]
  exact getElem?_multicolorCells hx v c _

theorem getElem?_background_T1 (hm : modeOf v c = .T1) (l : Nat) (hx : x < 240) :
    (background v c l)[x + 8]? = some (vis v c
      (if (tableByte v c (patternBase v c + nameAt v c l 40 (x / 6) * 8 + l % 8)).getLsbD (7 - x % 6)
        then textColour c else backdrop v c)) := by
  simp only [background, hm]
  exact getElem?_textCells hx v c _

theorem getElem?_background_BT (hm : modeOf v c = .BT) (l : Nat) (hx : x < 240) :
    (background v c l)[x + 8]? = some (vis v c
      (if (tableByte v c
          (patternBase v c ||| (bitmapOffset l (nameAt v c l 40 (x / 6)) (l % 8) &&& patternMask c))).getLsbD (7 - x % 6)
        then textColour c else backdrop v c)) := by
  simp only [background, hm]
  exact getElem?_textCells hx v c _

theorem getElem?_background_ILL (hm : modeOf v c = .ILL) (l : Nat) (hx : x < 240) :
    (background v c l)[x + 8]? = some (if x % 6 < 4 then vis v c (textColour c) else backdrop v c) := by
  simp only [background, hm]
  exact (getElem?_glyphs hx v c fun _ => by simp).trans (getElem?_two_runs (Nat.mod_lt _ (by decide)) _ _)

/-- The modes of 240 pixels show the backdrop at both edges. -/
theorem getElem?_background_border (hm : modeOf v c ∈ [Mode.T1, .BT, .ILL]) (l : Nat) (hx : x < 256)
    (hborder : x < 8 ∨ 248 ≤ x) : (background v c l)[x]? = some (backdrop v c) := by
  simp only [List.mem_cons, List.not_mem_nil, or_false] at hm
  rcases hm with hm | hm | hm <;> simp only [background, hm]
  · exact getElem?_withBorder_border v c (length_cells fun _ => length_textPixels v c _) hx hborder
  · exact getElem?_withBorder_border v c (length_cells fun _ => length_textPixels v c _) hx hborder
  · exact getElem?_withBorder_border v c (length_cells (n := 40) (k := 6) fun _ => by simp) hx hborder

end

theorem spritesShown_of_no_spriteMode {v : Variant} {c : Chip} (h : spriteMode (modeOf v c) = false) :
    spritesShown v c = false := by rw [spritesShown, h, Bool.false_and]

/-- Settles O57: the lemma of each mode, with the bytes and names of the statement read as the renderer's. -/
theorem tablePixels : Obligations.TablePixels := by
  intro s l v c px byte name off hv hc hpx hbyte hname hoff
  obtain rfl : byte = tableByte v c := funext fun a => by rw [hbyte, hc, tableByte_eq_tableRead]; rfl
  obtain rfl : name = nameAt v c l := funext fun w => funext fun k => hname w k
  obtain rfl : off = bitmapOffset l := funext fun n => funext fun row => by rw [hoff, bitmapOffset_eq]
  subst hpx
  refine ⟨fun hr hvisible hon hplain => ?_, vis_eq v c, fun m => by cases m <;> decide, fun hm => ?_,
    fun x hx n pat col hn => ⟨?_, ?_, ?_, ?_⟩, fun hm x hx => getElem?_background_border hm l hx,
    fun x hx n pat hn => ⟨?_, ?_, ?_⟩⟩
  · subst hv hc
    exact render_background hr hvisible hon hplain
  · refine spritesShown_of_no_spriteMode ?_
    simp only [List.mem_cons, List.not_mem_nil, or_false] at hm
    rcases hm with hm | hm | hm <;> rw [hm] <;> rfl
  · rintro hm rfl rfl
    exact getElem?_background_G1 hm l hx hn
  · rintro hm rfl rfl
    exact getElem?_background_G2 hm l hx (by rw [hn])
  · rintro hm rfl
    exact getElem?_background_MC hm l hx (by rw [hn])
  · rintro hm rfl
    exact getElem?_background_BMC hm l hx (by rw [hn])
  · rintro hm rfl
    rw [getElem?_background_T1 hm l hx, hn]
  · rintro hm rfl
    rw [getElem?_background_BT hm l hx, hn]
  · exact fun hm => getElem?_background_ILL hm l hx

/-! ### The bitmap modes of variant H -/

theorem toNat_highNibble (b : Byte) : (highNibble b).toNat = b.toNat / 16 := by
  rw [highNibble, BitVec.toNat_ushiftRight]
  exact Nat.shiftRight_eq_div_pow _ 4

theorem toNat_lowNibble (b : Byte) : (lowNibble b).toNat = b.toNat % 16 := toNat_and_0x0F b

theorem toNat_nibble (b : Byte) (p : Prop) [Decidable p] :
    (if p then highNibble b else lowNibble b).toNat = if p then b.toNat / 16 else b.toNat % 16 := by
  rw [apply_ite BitVec.toNat, toNat_highNibble, toNat_lowNibble]

/-- Two bits of a byte, the leftmost pair first (R334). -/
theorem toNat_bitPair (b : Byte) {k : Nat} (hk : k < 4) :
    ((b >>> (6 - 2 * k)) &&& 3).toNat = b.toNat / 4 ^ (3 - k) % 4 := by
  have hpow : 2 ^ (6 - 2 * k) = 4 ^ (3 - k) := by
    rw [show 6 - 2 * k = 2 * (3 - k) by omega, Nat.pow_mul]
  calc ((b >>> (6 - 2 * k)) &&& 3).toNat = (b >>> (6 - 2 * k)).toNat % 4 := toNat_and_0x03 _
    _ = b.toNat / 4 ^ (3 - k) % 4 := by rw [BitVec.toNat_ushiftRight, Nat.shiftRight_eq_div_pow, hpow]

theorem getElem?_map_range {α : Type} (f : Nat → α) {n x : Nat} (hx : x < n) : ((List.range n).map f)[x]? = some (f x) := by
  simp [hx]

theorem spriteMode_of_commandMode (m : Mode) : commandMode m = true → spriteMode m = false := by
  cases m <;> decide

/-- Settles O56: a line of G4 to G7 has no sprites, and each background is a map over its columns. -/
theorem bitmapPixels : Obligations.BitmapPixels := by
  intro s l np byte hH hr hvisible hon hnp hbyte hcommand
  have hplain := spritesShown_of_no_spriteMode (spriteMode_of_commandMode _ hcommand)
  obtain ⟨t, ht, hout⟩ := render_background hr (hH ▸ hvisible) hon (hH ▸ hplain)
  obtain rfl : byte = Memory.read s.chip.vram := funext hbyte
  subst hnp
  rw [hH] at hout
  refine ⟨t, _, ht, hout, fun x => ?_, fun hm x hx => ?_, fun hm x hx => ?_, fun hm x hx => ?_, fun hm x hx a ha => ?_⟩
  · rw [vis_eq]
    simp
  · simp only [background, hm, backgroundG4]
    exact ⟨_, getElem?_map_range _ hx, toNat_nibble _ _⟩
  · simp only [background, hm, backgroundG5]
    exact ⟨_, getElem?_map_range _ hx, toNat_bitPair _ (Nat.mod_lt _ (by decide))⟩
  · simp only [background, hm, backgroundG6]
    refine ⟨_, getElem?_map_range _ hx, fun a ha => ?_⟩
    subst ha
    exact toNat_nibble _ _
  · subst ha
    simp only [background, hm, backgroundG7]
    exact getElem?_map_range _ hx

/-! ### Sprites in numbers and as the renderer computes them -/

theorem spriteEntry_eq (v : Variant) (c : Chip) (i k : Nat) : spriteEntry v c i k = attributeByte v c i k :=
  tableByte_eq_tableRead v c _

theorem spriteTop_eq (v : Variant) (c : Chip) (i : Nat) : spriteTop v c i = firstLine v c i := by
  simp only [spriteTop, firstLine, spriteEntry_eq]
  split_ifs <;> omega

theorem spriteExtent_eq (c : Chip) : spriteSize c * spriteMag c = spriteExtent c := rfl

theorem onLine_eq (v : Variant) (c : Chip) (l i : Nat) :
    onLine v c l i = decide (firstLine v c i ≤ l ∧ (l : Int) < firstLine v c i + spriteExtent c) := by
  rw [onLine, spriteTop_eq, spriteExtent_eq, Bool.decide_and]

/-! ### The scan of the sprite table -/

/-- The sprites among `xs` on line `l` before the end of the table (R341), as the renderer reads them. -/
def spritesAmong (v : Variant) (c : Chip) (l : Nat) (xs : List Nat) : List Nat :=
  (xs.takeWhile fun i => spriteEntry v c i 0 != 0xD0).filter (onLine v c l)

theorem spritesAmong_range (v : Variant) (c : Chip) (l : Nat) : spritesAmong v c l (List.range 32) = spritesOn v c l := by
  have hend : ∀ i, (spriteEntry v c i 0 != 0xD0) = ((attributeByte v c i 0).toNat != 208) := fun i => by
    rw [spriteEntry_eq, Bool.eq_iff_iff, bne_iff_ne, bne_iff_ne, ← BitVec.toNat_ne_iff_ne]
    rfl
  simp only [spritesAmong, spritesOn, hend, funext (onLine_eq v c l)]

theorem spritesAmong_cons (v : Variant) (c : Chip) (l i : Nat) (xs : List Nat) :
    spritesAmong v c l (i :: xs) =
      if spriteEntry v c i 0 = 0xD0 then []
      else if onLine v c l i then i :: spritesAmong v c l xs else spritesAmong v c l xs := by
  simp only [spritesAmong, List.takeWhile_cons, bne_iff_ne]
  split_ifs with hend hon <;> simp_all

/-- The fifth sprite, where there is one, is reported in S#0 (R343). -/
def reportFifth (s0 : Byte) (fifth : Option Nat) : Byte := fifth.elim s0 (fifthSprite s0)

section
variable {cfg : Config} {c : Chip} {l i : Nat}

theorem scanSprites_cons_end (h : spriteEntry cfg.variant c i 0 = 0xD0) (xs : List Nat) (a : Scan) :
    scanSprites cfg c l (i :: xs) a = a := if_pos h

theorem scanSprites_cons_off (hend : spriteEntry cfg.variant c i 0 ≠ 0xD0) (hoff : onLine cfg.variant c l i ≠ true)
    (xs : List Nat) (a : Scan) : scanSprites cfg c l (i :: xs) a = scanSprites cfg c l xs a := by
  rw [scanSprites, if_neg hend, if_neg hoff]

/-- The fifth sprite on a line ends a scan whose cap is not raised. -/
theorem scanSprites_cons_full (hend : spriteEntry cfg.variant c i 0 ≠ 0xD0) (hon : onLine cfg.variant c l i = true)
    (hcap : cfg.unlimitedSprites = false) (xs : List Nat) {a : Scan} (hfull : a.count = 4) :
    scanSprites cfg c l (i :: xs) a = { a with s0 := fifthSprite a.s0 i } := by
  simp only [scanSprites, if_neg hend, hon, hfull, hcap, spriteCap, if_true, and_self]

/-- Any other sprite on the line is counted, and taken while there is room. -/
theorem scanSprites_cons_on (hend : spriteEntry cfg.variant c i 0 ≠ 0xD0) (hon : onLine cfg.variant c l i = true)
    (xs : List Nat) {a : Scan} (hroom : ¬ (a.count = 4 ∧ cfg.unlimitedSprites = false)) :
    scanSprites cfg c l (i :: xs) a = scanSprites cfg c l xs
      { count := a.count + 1
        list := if a.count < 4 ∨ cfg.unlimitedSprites = true then a.list ++ [i] else a.list
        s0 := if a.count = 4 then fifthSprite a.s0 i else a.s0 } := by
  rw [scanSprites, if_neg hend, if_pos hon]
  exact if_neg hroom

end

/-- The scan adds the sprites on the line: all where the cap is raised, otherwise up to four. -/
theorem scanSprites_list (cfg : Config) (c : Chip) (l : Nat) (xs : List Nat) (a : Scan) :
    (scanSprites cfg c l xs a).list = a.list ++
      if cfg.unlimitedSprites then spritesAmong cfg.variant c l xs
      else (spritesAmong cfg.variant c l xs).take (4 - a.count) := by
  induction xs generalizing a with
  | nil => simp [scanSprites, spritesAmong]
  | cons i xs ih =>
    rw [spritesAmong_cons]
    by_cases hend : spriteEntry cfg.variant c i 0 = 0xD0
    · simp [scanSprites_cons_end hend, hend]
    by_cases hon : onLine cfg.variant c l i = true
    · rw [if_neg hend, if_pos hon]
      by_cases hfull : a.count = 4 ∧ cfg.unlimitedSprites = false
      · simp [scanSprites_cons_full hend hon hfull.2 xs hfull.1, hfull.1, hfull.2]
      · rw [scanSprites_cons_on hend hon xs hfull, ih]
        cases hcap : cfg.unlimitedSprites with
        | true => simp
        | false =>
          by_cases hlt : a.count < 4
          · obtain ⟨k, hk⟩ : ∃ k, 4 - a.count = k + 1 := ⟨3 - a.count, by omega⟩
            simp [hlt, hk, show 4 - (a.count + 1) = k by omega]
          · simp [hlt, show 4 - a.count = 0 by omega, show 4 - (a.count + 1) = 0 by omega]
    · rw [scanSprites_cons_off hend hon, ih, if_neg hend, if_neg hon]

/-- The scan reports the fifth sprite on the line, once. -/
theorem scanSprites_s0 (cfg : Config) (c : Chip) (l : Nat) (xs : List Nat) (a : Scan) :
    (scanSprites cfg c l xs a).s0 =
      if a.count ≤ 4 then reportFifth a.s0 (spritesAmong cfg.variant c l xs)[4 - a.count]? else a.s0 := by
  induction xs generalizing a with
  | nil => simp [scanSprites, spritesAmong, reportFifth]
  | cons i xs ih =>
    rw [spritesAmong_cons]
    by_cases hend : spriteEntry cfg.variant c i 0 = 0xD0
    · simp [scanSprites_cons_end hend, hend, reportFifth]
    by_cases hon : onLine cfg.variant c l i = true
    · rw [if_neg hend, if_pos hon]
      by_cases hfull : a.count = 4 ∧ cfg.unlimitedSprites = false
      · simp [scanSprites_cons_full hend hon hfull.2 xs hfull.1, hfull.1, reportFifth]
      · rw [scanSprites_cons_on hend hon xs hfull, ih]
        rcases Nat.lt_trichotomy a.count 4 with hlt | heq | hgt
        · obtain ⟨k, hk⟩ : ∃ k, 4 - a.count = k + 1 := ⟨3 - a.count, by omega⟩
          simp [hlt.ne, hlt.le, Nat.succ_le_of_lt hlt, hk, show 4 - (a.count + 1) = k by omega]
        · simp [heq, reportFifth]
        · simp [hgt.ne', Nat.not_le.mpr hgt, show ¬ a.count + 1 ≤ 4 by omega]
    · rw [scanSprites_cons_off hend hon, ih, if_neg hend, if_neg hon]

theorem scan_list (cfg : Config) (c : Chip) (l : Nat) (b : Byte) :
    (scanSprites cfg c l (List.range 32) { count := 0, list := [], s0 := b }).list = spritesDrawn cfg c l := by
  rw [scanSprites_list, spritesAmong_range, List.nil_append]
  rfl

theorem scan_s0 (cfg : Config) (c : Chip) (l : Nat) (b : Byte) :
    (scanSprites cfg c l (List.range 32) { count := 0, list := [], s0 := b }).s0 =
      reportFifth b (spritesOn cfg.variant c l)[4]? := by
  rw [scanSprites_s0, spritesAmong_range]
  rfl

theorem spritesOn_sublist_range (v : Variant) (c : Chip) (l : Nat) : (spritesOn v c l).Sublist (List.range 32) :=
  List.filter_sublist.trans (List.takeWhile_sublist _)

theorem lt_of_mem_spritesOn {v : Variant} {c : Chip} {l i : Nat} (h : i ∈ spritesOn v c l) : i < 32 :=
  List.mem_range.mp ((spritesOn_sublist_range v c l).subset h)

/-- Settles O58: the scan's two results over the whole table. -/
theorem spriteScan : Obligations.SpriteScan := by
  intro cfg c l b all a hall ha
  subst hall ha
  refine ⟨scan_list cfg c l b, fun hle => ?_, fun i hi => ⟨lt_of_mem_spritesOn (List.mem_of_getElem? hi), ?_⟩⟩
  · rw [scan_s0, List.getElem?_eq_none hle]
    rfl
  · rw [scan_s0, hi]
    rfl

/-! ### A plotted pixel -/

/-- Column `x` of the composite is taken. -/
def Composite.takenAt (m : Composite) (x : Nat) : Bool := m.taken[x]?.getD false

/-- The colour the composite shows at column `x`, 0 where it shows none. -/
def Composite.shownAt (m : Composite) (x : Nat) : Byte := m.buf[x]?.getD 0

/-- A pixel of this colour counts for collision (R345). -/
def colourCounts (cfg : Config) (color : Byte) : Bool := decide (color ≠ 0 ∨ cfg.collideTransparent = true)

theorem countsForCollision_iff (cfg : Config) (c : Chip) (i : Nat) :
    countsForCollision cfg c i ↔ colourCounts cfg (spriteColour cfg.variant c i) = true := by
  rw [countsForCollision, colourCounts, decide_eq_true_iff]

theorem getD_setIfInBounds {α : Type} (w : Vector α 256) (col : Nat) (a d : α) {x : Nat} (hx : x < 256) :
    (w.setIfInBounds col a)[x]?.getD d = if col = x then a else w[x]?.getD d := by
  rw [Vector.getElem?_setIfInBounds]
  by_cases h : col = x <;> simp [h, hx]

section
variable (cfg : Config) (m : Composite) (col : Nat) (color : Byte)

theorem plot_taken :
    (plot cfg m col color).taken = if colourCounts cfg color then m.taken.setIfInBounds col true else m.taken := by
  simp only [plot, colourCounts, decide_eq_true_iff]

theorem plot_buf :
    (plot cfg m col color).buf = if color ≠ 0 ∧ m.shownAt col = 0 then m.buf.setIfInBounds col color else m.buf := rfl

theorem reported_plot :
    (plot cfg m col color).reported = (m.reported || (colourCounts cfg color && m.takenAt col)) := by
  simp only [plot, colourCounts, Composite.takenAt]
  split_ifs with hcollides
  · rw [decide_eq_true hcollides.1, hcollides.2.1, Bool.and_self, Bool.or_true]
  · cases hreported : m.reported with
    | true => rfl
    | false =>
      rw [Bool.false_or, eq_comm, Bool.and_eq_false_iff, decide_eq_false_iff_not, ← Bool.not_eq_true, ← not_and_or]
      exact fun h => hcollides ⟨h.1, h.2, hreported⟩

/-- The report of a collision sets C (R345). -/
theorem s0_plot :
    (plot cfg m col color).s0 = if (plot cfg m col color).reported ≠ m.reported then m.s0 ||| 0x20 else m.s0 := by
  simp only [plot]
  split_ifs with hcollides hreported hreported
  · rfl
  · cases (not_not.mp hreported).trans hcollides.2.2
  · exact absurd rfl hreported
  · rfl

theorem takenAt_plot {x : Nat} (hx : x < 256) :
    (plot cfg m col color).takenAt x = (m.takenAt x || (decide (col = x) && colourCounts cfg color)) := by
  rw [Composite.takenAt, plot_taken]
  cases colourCounts cfg color with
  | false => simp [Composite.takenAt]
  | true =>
    rw [if_pos rfl, getD_setIfInBounds _ _ _ _ hx]
    by_cases hcol : col = x <;> simp [hcol, Composite.takenAt]

theorem shownAt_plot {x : Nat} (hx : x < 256) :
    (plot cfg m col color).shownAt x = if (col = x ∧ color ≠ 0) ∧ m.shownAt x = 0 then color else m.shownAt x := by
  rw [Composite.shownAt, plot_buf]
  by_cases hcol : col = x
  · subst hcol
    rw [apply_ite (fun w : Vector Byte 256 => w[col]?.getD 0), getD_setIfInBounds _ _ _ _ hx, if_pos rfl]
    exact if_congr (by simp only [true_and]) rfl rfl
  · rw [if_neg (show ¬ ((col = x ∧ color ≠ 0) ∧ m.shownAt x = 0) from fun h => hcol h.1.1),
      apply_ite (fun w : Vector Byte 256 => w[x]?.getD 0), getD_setIfInBounds _ _ _ _ hx, if_neg hcol, ite_self]
    rfl

end

/-! ### A list of plotted pixels -/

/-- The pixels of a list, column and colour, plotted in order. -/
def plotAll (cfg : Config) (m : Composite) (ps : List (Nat × Byte)) : Composite :=
  ps.foldl (fun m q => plot cfg m q.1 q.2) m

/-- The columns of the pixels that count for collision. -/
def countingColumns (cfg : Config) (ps : List (Nat × Byte)) : List Nat :=
  (ps.filter fun q => colourCounts cfg q.2).map Prod.fst

theorem plotAll_cons (cfg : Config) (m : Composite) (q : Nat × Byte) (ps : List (Nat × Byte)) :
    plotAll cfg m (q :: ps) = plotAll cfg (plot cfg m q.1 q.2) ps := rfl

/-- A column shows the first pixel of a colour other than 0 that is plotted there. -/
theorem shownAt_plotAll (cfg : Config) (m : Composite) (ps : List (Nat × Byte)) {x : Nat} (hx : x < 256) :
    (plotAll cfg m ps).shownAt x =
      if m.shownAt x = 0 then ((ps.find? fun q => decide (q.1 = x ∧ q.2 ≠ 0)).map Prod.snd).getD 0 else m.shownAt x := by
  induction ps generalizing m with
  | nil => simp [plotAll]
  | cons q ps ih =>
    rw [plotAll_cons, ih]
    by_cases hq : q.1 = x ∧ q.2 ≠ 0
    · rw [List.find?_cons_of_pos (by exact decide_eq_true hq)]
      by_cases hfree : m.shownAt x = 0
      · have hplot : (plot cfg m q.1 q.2).shownAt x = q.2 := by rw [shownAt_plot cfg m _ _ hx, if_pos ⟨hq, hfree⟩]
        rw [hplot, if_neg hq.2, if_pos hfree]
        rfl
      · have hplot : (plot cfg m q.1 q.2).shownAt x = m.shownAt x := by
          rw [shownAt_plot cfg m _ _ hx, if_neg fun h => hfree h.2]
        rw [hplot, if_neg hfree, if_neg hfree]
    · have hplot : (plot cfg m q.1 q.2).shownAt x = m.shownAt x := by
        rw [shownAt_plot cfg m _ _ hx, if_neg fun h => hq h.1]
      rw [hplot, List.find?_cons_of_neg (by simpa using hq)]

theorem reported_le_plotAll (cfg : Config) {m : Composite} (ps : List (Nat × Byte)) (h : m.reported = true) :
    (plotAll cfg m ps).reported = true := by
  induction ps generalizing m with
  | nil => exact h
  | cons q ps ih => exact ih (by rw [reported_plot, h, Bool.true_or])

/-- A collision is reported where a counting pixel meets a column that is taken, or two counting pixels meet. -/
theorem reported_plotAll (cfg : Config) (m : Composite) {ps : List (Nat × Byte)} (hps : ∀ q ∈ ps, q.1 < 256) :
    (plotAll cfg m ps).reported = true ↔ m.reported = true ∨
      ¬ ((countingColumns cfg ps).Nodup ∧ ∀ x ∈ countingColumns cfg ps, m.takenAt x = false) := by
  induction ps generalizing m with
  | nil => simp [plotAll, countingColumns]
  | cons q ps ih =>
    have hlt : ∀ x ∈ countingColumns cfg ps, x < 256 := by
      intro x hx
      obtain ⟨r, hr, rfl⟩ := List.mem_map.mp hx
      exact hps r (List.mem_cons_of_mem _ (List.mem_of_mem_filter hr))
    have htaken : (∀ x ∈ countingColumns cfg ps, (plot cfg m q.1 q.2).takenAt x = false) ↔
        ∀ x ∈ countingColumns cfg ps, m.takenAt x = false ∧ (q.1 = x → colourCounts cfg q.2 = false) :=
      forall₂_congr fun x hx => by simp [takenAt_plot cfg m q.1 q.2 (hlt x hx)]
    rw [plotAll_cons, ih _ fun r hr => hps r (List.mem_cons_of_mem _ hr), reported_plot, htaken]
    cases hcounts : colourCounts cfg q.2 with
    | false => simp [countingColumns, hcounts]
    | true =>
      have hcons : countingColumns cfg (q :: ps) = q.1 :: countingColumns cfg ps := by simp [countingColumns, hcounts]
      have hnew : (∀ x ∈ countingColumns cfg ps, m.takenAt x = false ∧ (q.1 = x → true = false)) ↔
          q.1 ∉ countingColumns cfg ps ∧ ∀ x ∈ countingColumns cfg ps, m.takenAt x = false := by
        simp only [Bool.true_eq_false, imp_false]
        exact ⟨fun h => ⟨fun hq => (h _ hq).2 rfl, fun x hx => (h x hx).1⟩,
          fun h x hx => ⟨h.2 x hx, fun hq => h.1 (hq ▸ hx)⟩⟩
      rw [hcons, List.nodup_cons, List.forall_mem_cons, hnew, Bool.true_and, Bool.or_eq_true,
        ← Bool.not_eq_false (m.takenAt q.1)]
      tauto

/-- The first report of a collision sets C. -/
theorem s0_plotAll (cfg : Config) (m : Composite) (ps : List (Nat × Byte)) :
    (plotAll cfg m ps).s0 = if (plotAll cfg m ps).reported ≠ m.reported then m.s0 ||| 0x20 else m.s0 := by
  induction ps generalizing m with
  | nil => exact (if_neg fun h => h rfl).symm
  | cons q ps ih =>
    rw [plotAll_cons, ih, s0_plot]
    by_cases hsame : (plot cfg m q.1 q.2).reported = m.reported
    · rw [hsame, if_neg (not_not.mpr rfl)]
    · have hm : m.reported = false := by
        by_contra h
        exact hsame (by rw [reported_plot, (Bool.not_eq_false _).mp h, Bool.true_or])
      have hq : (plot cfg m q.1 q.2).reported = true := by simpa [hm] using hsame
      rw [if_pos hsame, hq, reported_le_plotAll cfg ps hq, hm]
      rfl

/-! ### The pixels of a sprite -/

/-- The column of pixel `p` of the row of sprite `i`, where its bit is set and the column is on the screen (R344). -/
def pixelColumn (v : Variant) (c : Chip) (l i p : Nat) : Option Nat :=
  if 0 ≤ spriteLeft v c i + (p : Int) ∧ spriteLeft v c i + (p : Int) ≤ 255 ∧
      spriteBit (spriteMag c) (spriteRow v c l i) p = true
  then some (spriteLeft v c i + (p : Int)).toNat else none

/-- The columns sprite `i` lights on line `l`. -/
def litColumns (v : Variant) (c : Chip) (l i : Nat) : List Nat :=
  (List.range (spriteExtent c)).filterMap (pixelColumn v c l i)

/-- The pixels sprite `i` plots on line `l`. -/
def spritePixels (v : Variant) (c : Chip) (l i : Nat) : List (Nat × Byte) :=
  (litColumns v c l i).map fun x => (x, spriteColour v c i)

theorem lowNibble_spriteEntry (v : Variant) (c : Chip) (i : Nat) : lowNibble (spriteEntry v c i 3) = spriteColour v c i := by
  rw [spriteEntry_eq]
  rfl

theorem drawSprite_eq_plotAll (cfg : Config) (c : Chip) (l : Nat) (m : Composite) (i : Nat) :
    drawSprite cfg c l m i = plotAll cfg m (spritePixels cfg.variant c l i) := by
  simp only [drawSprite, plotAll, spritePixels, litColumns, List.foldl_map, List.foldl_filterMap, spriteExtent_eq,
    lowNibble_spriteEntry]
  refine List.foldl_ext _ _ _ fun m p _ => ?_
  rw [pixelColumn]
  split_ifs <;> rfl

theorem spriteLeft_eq (v : Variant) (c : Chip) (i : Nat) : spriteLeft v c i = firstColumn v c i := by
  have hclock : (attributeByte v c i 3).getLsbD 7 = true ↔ 128 ≤ (attributeByte v c i 3).toNat := by
    have hlt := (attributeByte v c i 3).isLt
    rw [getLsbD_iff_div_mod]
    omega
  simp only [spriteLeft, firstColumn, spriteEntry_eq, hclock]

theorem toNat_and_0xFC (b : Byte) : (b &&& 0xFC).toNat = b.toNat / 4 * 4 := by
  have hfield : (b &&& 0xFC).toNat = b.toNat / 4 % 64 * 4 := toNat_and_field b (i := 2) (k := 6) (by decide)
  have hb := b.isLt
  omega

/-- Pixel `p` of a row is the bit of column `p / mag` of the pattern (R344). -/
theorem spriteBit_eq (v : Variant) (c : Chip) (l i : Nat) {p : Nat} (hp : p < spriteExtent c) :
    spriteBit (spriteMag c) (spriteRow v c l i) p =
      patternBit v c i (p / spriteMag c) ((l - firstLine v c i) / (spriteMag c : Int)).toNat := by
  have hk : p / spriteMag c < if (c.R 1).getLsbD 1 then 16 else 8 :=
    Nat.div_lt_of_lt_mul (by rwa [Nat.mul_comm])
  simp only [spriteBit, spriteRow, patternBit, spriteTop_eq, spriteEntry_eq, tableByte_eq_tableRead]
  generalize p / spriteMag c = k at hk
  cases hbig : (c.R 1).getLsbD 1 with
  | false =>
    rw [hbig] at hk
    have h8 : k < 8 := hk
    simp only [h8, Nat.div_eq_of_lt h8, Nat.mod_eq_of_lt h8, Bool.false_eq_true, if_true, if_false, Nat.zero_mul,
      Nat.add_zero]
  | true =>
    rw [hbig] at hk
    have h16 : k < 16 := hk
    simp only [if_true, toNat_and_0xFC]
    by_cases h8 : k < 8
    · simp only [h8, Nat.div_eq_of_lt h8, Nat.mod_eq_of_lt h8, if_true, Nat.zero_mul, Nat.add_zero]
    · have hright : k / 8 = 1 := by omega
      have hbit : 15 - k = 7 - k % 8 := by omega
      simp only [h8, hright, hbit, if_false, Nat.one_mul]

theorem mem_litColumns (v : Variant) (c : Chip) (l i x : Nat) :
    x ∈ litColumns v c l i ↔ x < 256 ∧ spriteCovers v c l x i = true := by
  have hmag : (if (c.R 1).getLsbD 0 then 2 else 1 : Int) = (spriteMag c : Int) := by
    unfold spriteMag
    split <;> rfl
  simp only [litColumns, pixelColumn, List.mem_filterMap, List.mem_range, Option.ite_none_right_eq_some,
    Option.some.injEq, spriteLeft_eq, spriteCovers, Bool.and_eq_true, decide_eq_true_iff, hmag]
  have hcolumn : ∀ p : Nat, ((p : Int) / (spriteMag c : Int)).toNat = p / spriteMag c := fun p => by
    rw [← Int.natCast_div, Int.toNat_natCast]
  constructor
  · rintro ⟨p, hp, ⟨hleft, hright, hbit⟩, rfl⟩
    rw [spriteBit_eq v c l i hp] at hbit
    have hoffset : ((firstColumn v c i + (p : Int)).toNat : Int) - firstColumn v c i = p := by omega
    rw [hoffset, hcolumn]
    exact ⟨by omega, ⟨by omega, by omega⟩, hbit⟩
  · rintro ⟨hx, ⟨hfirst, hlast⟩, hbit⟩
    obtain ⟨p, hp⟩ := Int.eq_ofNat_of_zero_le hfirst
    have hpe : p < spriteExtent c := by omega
    refine ⟨p, hpe, ⟨by omega, by omega, ?_⟩, by omega⟩
    rwa [spriteBit_eq v c l i hpe, ← hcolumn, ← hp]

theorem nodup_litColumns (v : Variant) (c : Chip) (l i : Nat) : (litColumns v c l i).Nodup := by
  refine List.nodup_range.filterMap fun p q x hp hq => ?_
  simp only [pixelColumn, Option.mem_def, Option.ite_none_right_eq_some, Option.some.injEq] at hp hq
  omega

/-! ### The composite of a line -/

/-- The pixels of a list of sprites, in the order of the list. -/
def pixelsOf (v : Variant) (c : Chip) (l : Nat) (sprites : List Nat) : List (Nat × Byte) :=
  sprites.flatMap (spritePixels v c l)

/-- The composite before the first sprite: no column taken, no colour shown. -/
def emptyComposite (s0 : Byte) (reported : Bool) : Composite where
  taken := Vector.replicate 256 false
  buf := Vector.replicate 256 0
  s0 := s0
  reported := reported

theorem takenAt_emptyComposite (s0 : Byte) (r : Bool) (x : Nat) : (emptyComposite s0 r).takenAt x = false := by
  simp only [Composite.takenAt, emptyComposite, Vector.getElem?_replicate]
  split <;> rfl

theorem shownAt_emptyComposite (s0 : Byte) (r : Bool) (x : Nat) : (emptyComposite s0 r).shownAt x = 0 := by
  simp only [Composite.shownAt, emptyComposite, Vector.getElem?_replicate]
  split <;> rfl

/-- The composite of a line plots the pixels of the drawn sprites in their order, after the report of the fifth. -/
theorem composeSprites_eq_plotAll (cfg : Config) (c : Chip) (l : Nat) :
    composeSprites cfg c l =
      plotAll cfg (emptyComposite (reportFifth c.status.s0 (spritesOn cfg.variant c l)[4]?) c.collisionReported)
        (pixelsOf cfg.variant c l (spritesDrawn cfg c l)) := by
  rw [← scan_list cfg c l c.status.s0, ← scan_s0 cfg c l c.status.s0, plotAll, pixelsOf, List.foldl_flatMap]
  exact List.foldl_ext _ _ _ fun m i _ => drawSprite_eq_plotAll cfg c l m i

/-! ### Priority -/

theorem find?_spritePixels (v : Variant) (c : Chip) (l i : Nat) {x : Nat} (hx : x < 256) :
    ((spritePixels v c l i).find? fun q => decide (q.1 = x ∧ q.2 ≠ 0)) =
      if (spriteCovers v c l x i && spriteColour v c i != 0) then some (x, spriteColour v c i) else none := by
  cases hfind : (spritePixels v c l i).find? fun q => decide (q.1 = x ∧ q.2 ≠ 0) with
  | some q =>
    obtain ⟨y, hy, rfl⟩ := List.mem_map.mp (List.mem_of_find?_eq_some hfind)
    have hq := List.find?_some hfind
    obtain ⟨rfl, hcolour⟩ := of_decide_eq_true hq
    rw [((mem_litColumns v c l i y).mp hy).2, Bool.true_and, if_pos (bne_iff_ne.mpr hcolour)]
  | none =>
    refine (if_neg fun hshown => ?_).symm
    obtain ⟨hcovers, hcolour⟩ := Bool.and_eq_true_iff.mp hshown
    have hpixel : (x, spriteColour v c i) ∈ spritePixels v c l i :=
      List.mem_map_of_mem ((mem_litColumns v c l i x).mpr ⟨hx, hcovers⟩)
    exact List.find?_eq_none.mp hfind _ hpixel (decide_eq_true ⟨rfl, bne_iff_ne.mp hcolour⟩)

/-- The first pixel of a colour at a column is that of the first sprite that shows one there. -/
theorem find?_pixelsOf (v : Variant) (c : Chip) (l : Nat) {x : Nat} (hx : x < 256) (sprites : List Nat) :
    ((pixelsOf v c l sprites).find? fun q => decide (q.1 = x ∧ q.2 ≠ 0)) =
      (sprites.find? fun i => spriteCovers v c l x i && spriteColour v c i != 0).map
        fun i => (x, spriteColour v c i) := by
  induction sprites with
  | nil => rfl
  | cons i sprites ih =>
    rw [pixelsOf, List.flatMap_cons, List.find?_append, find?_spritePixels v c l i hx, ← pixelsOf, ih, List.find?_cons]
    cases spriteCovers v c l x i && spriteColour v c i != 0 <;> rfl

theorem shownAt_composeSprites (cfg : Config) (c : Chip) (l : Nat) {x : Nat} (hx : x < 256) :
    (composeSprites cfg c l).shownAt x =
      (((spritesDrawn cfg c l).find? fun i =>
        spriteCovers cfg.variant c l x i && spriteColour cfg.variant c i != 0).map
          fun i => spriteColour cfg.variant c i).getD 0 := by
  rw [composeSprites_eq_plotAll, shownAt_plotAll _ _ _ hx, shownAt_emptyComposite, if_pos rfl, find?_pixelsOf _ _ _ hx,
    Option.map_map]
  rfl

theorem getElem?_overlay {bg : List Byte} (hbg : bg.length = 256) (m : Composite) {x : Nat} (hx : x < 256) :
    (overlay bg m.buf.toList)[x]? = if m.shownAt x = 0 then bg[x]? else some (m.shownAt x) := by
  have hbuf : m.buf[x]? = some m.buf[x] := Vector.getElem?_eq_getElem hx
  simp only [overlay, Composite.shownAt, hbuf, Option.getD_some, List.getElem?_zipWith, List.getElem?_eq_getElem (hbg ▸ hx),
    Vector.getElem?_toList]
  split_ifs <;> rfl

theorem lineWidth_of_spritesShown {v : Variant} {c : Chip} (h : spritesShown v c = true) : lineWidth (modeOf v c) = 256 := by
  have hmode : spriteMode (modeOf v c) = true := (Bool.and_eq_true_iff.mp h).1
  rw [lineWidth_eq, if_neg]
  rintro (hm | hm) <;> rw [hm] at hmode <;> cases hmode

/-- Settles O59: the composite shows the first sprite of the list, and `overlay` puts it over the background. -/
theorem spritePriority : Obligations.SpritePriority := by
  intro s l v drawn hv hr hvisible hon hshown hdrawn
  subst hv hdrawn
  have hwidth := lineWidth_of_spritesShown hshown
  refine ⟨_, _, exec_render_of_renders hr, renderLine_snd_of_visible hvisible, ?_, fun x hx => ?_⟩
  · rw [length_drawLine, modeOf_beginLine, hwidth]
  · have hbg : (background s.cfg.variant s.chip l).length = 256 := by rw [length_background, hwidth]
    rw [drawLine_of_sprites l (by rw [R_beginLine, hon]) (by rw [spritesShown_beginLine, hshown]), background_beginLine,
      getElem?_overlay hbg _ hx, shownAt_composeSprites _ _ _ hx, List.head?_filter]
    simp only [spritesDrawn_beginLine, spriteCovers_beginLine, spriteColour_beginLine]
    cases hfind : (spritesDrawn s.cfg s.chip l).find? fun i =>
        spriteCovers s.cfg.variant s.chip l x i && spriteColour s.cfg.variant s.chip i != 0 with
    | none => rfl
    | some i =>
      have hi := List.find?_some hfind
      exact if_neg (bne_iff_ne.mp (Bool.and_eq_true_iff.mp hi).2)

/-! ### Collision -/

theorem countingColumns_pixelsOf (cfg : Config) (c : Chip) (l : Nat) (sprites : List Nat) :
    countingColumns cfg (pixelsOf cfg.variant c l sprites) =
      (sprites.filter fun i => colourCounts cfg (spriteColour cfg.variant c i)).flatMap (litColumns cfg.variant c l) := by
  induction sprites with
  | nil => rfl
  | cons i sprites ih =>
    rw [pixelsOf, List.flatMap_cons, countingColumns, List.filter_append, List.map_append, ← countingColumns,
      ← countingColumns, ← pixelsOf, ih, List.filter_cons]
    cases hcounts : colourCounts cfg (spriteColour cfg.variant c i) <;>
      simp [countingColumns, spritePixels, List.filter_map, hcounts, Function.comp_def]

/-- Columns of a list of sprites repeat exactly where two of the sprites have a pixel at one column. -/
theorem nodup_flatMap_litColumns (v : Variant) (c : Chip) (l : Nat) {sprites : List Nat} (hsprites : sprites.Nodup) :
    (sprites.flatMap (litColumns v c l)).Nodup ↔
      ∀ i ∈ sprites, ∀ j ∈ sprites, i ≠ j → ∀ x < 256, ¬ (spriteCovers v c l x i = true ∧ spriteCovers v c l x j = true) := by
  have hsymm : Std.Symm (Function.onFun List.Disjoint (litColumns v c l)) := ⟨fun _ _ h => h.symm⟩
  rw [List.nodup_flatMap, ← hsprites.pairwise_coe]
  simp only [nodup_litColumns, implies_true, true_and, Set.Pairwise, Set.mem_ofPred_eq, Function.onFun, List.Disjoint,
    mem_litColumns]
  exact ⟨fun h i hi j hj hne x hx hc => h hi hj hne ⟨hx, hc.1⟩ ⟨hx, hc.2⟩,
    fun h i hi j hj hne x hxi hxj => h i hi j hj hne x hxi.1 ⟨hxi.2, hxj.2⟩⟩

theorem nodup_spritesDrawn (cfg : Config) (c : Chip) (l : Nat) : (spritesDrawn cfg c l).Nodup := by
  have hon : (spritesOn cfg.variant c l).Nodup := List.nodup_range.sublist (spritesOn_sublist_range _ _ _)
  unfold spritesDrawn
  split
  · exact hon
  · exact hon.sublist (List.take_sublist _ _)

theorem reported_composeSprites (cfg : Config) (c : Chip) (l : Nat) :
    (composeSprites cfg c l).reported = true ↔ c.collisionReported = true ∨ spritesCollide cfg c l := by
  have hlt : ∀ q ∈ pixelsOf cfg.variant c l (spritesDrawn cfg c l), q.1 < 256 := by
    intro q hq
    obtain ⟨i, -, hi⟩ := List.mem_flatMap.mp hq
    obtain ⟨x, hx, rfl⟩ := List.mem_map.mp hi
    exact ((mem_litColumns _ _ _ _ _).mp hx).1
  rw [composeSprites_eq_plotAll, reported_plotAll _ _ hlt, countingColumns_pixelsOf,
    nodup_flatMap_litColumns _ _ _ ((nodup_spritesDrawn cfg c l).filter _)]
  simp only [takenAt_emptyComposite, implies_true, and_true, List.mem_filter, ← countsForCollision_iff, spritesCollide,
    not_forall, not_not]
  refine or_congr Iff.rfl ⟨?_, ?_⟩
  · rintro ⟨i, ⟨hi, hci⟩, j, ⟨hj, hcj⟩, hne, x, hx, hcovers⟩
    exact ⟨x, hx, i, hi, j, hj, hne, hci, hcj, hcovers⟩
  · rintro ⟨x, hx, i, hi, j, hj, hne, hci, hcj, hcovers⟩
    exact ⟨i, ⟨hi, hci⟩, j, ⟨hj, hcj⟩, hne, x, hx, hcovers⟩

theorem s0_composeSprites (cfg : Config) (c : Chip) (l : Nat) :
    (composeSprites cfg c l).s0 =
      if (composeSprites cfg c l).reported ≠ c.collisionReported
      then reportFifth c.status.s0 (spritesOn cfg.variant c l)[4]? ||| 0x20
      else reportFifth c.status.s0 (spritesOn cfg.variant c l)[4]? := by
  rw [composeSprites_eq_plotAll]
  exact s0_plotAll _ _ _

/-! ### The flags after a line -/

section
variable {cfg : Config} {c : Chip} {l : Nat}

theorem lineChip_of_sprites (hvisible : l < visibleLines cfg.variant c) (hon : (c.R 1).getLsbD 6 = true)
    (hshown : spritesShown cfg.variant c = true) :
    lineChip cfg c l =
      { beginLine cfg.variant c l with
        status := { (beginLine cfg.variant c l).status with s0 := (composeSprites cfg (beginLine cfg.variant c l) l).s0 }
        collisionReported := (composeSprites cfg (beginLine cfg.variant c l) l).reported } := by
  rw [lineChip, if_pos hvisible,
    drawLine_of_sprites l (by rw [R_beginLine, hon]) (by rw [spritesShown_beginLine, hshown])]

theorem lineChip_of_no_sprites
    (h : (c.R 1).getLsbD 6 = false ∨ spritesShown cfg.variant c = false ∨ visibleLines cfg.variant c ≤ l) :
    lineChip cfg c l = beginLine cfg.variant c l := by
  unfold lineChip
  split_ifs with hvisible
  · cases hon : (c.R 1).getLsbD 6 with
    | false => rw [drawLine_of_blank l (by rw [R_beginLine, hon])]
    | true =>
      have hplain : spritesShown cfg.variant c = false := by
        rcases h with h | h | h
        · cases hon.symm.trans h
        · exact h
        · exact absurd hvisible (Nat.not_lt.mpr h)
      rw [drawLine_of_no_sprites l (by rw [R_beginLine, hon]) (by rw [spritesShown_beginLine, hplain])]
  · rfl

end

/-- A line leaves registers, FH and the interrupt output as its start does. -/
theorem lineChip_frame (cfg : Config) (c : Chip) (l : Nat) :
    (∀ n, (lineChip cfg c l).R n = c.R n) ∧ (lineChip cfg c l).status.fh = (beginLine cfg.variant c l).status.fh ∧
      (lineChip cfg c l).intLine = (beginLine cfg.variant c l).intLine := by
  obtain ⟨x, r, hdraw⟩ := drawLine_eq cfg (beginLine cfg.variant c l) l
  unfold lineChip
  split_ifs
  · rw [hdraw]
    exact ⟨fun n => R_beginLine cfg.variant c l n, rfl, rfl⟩
  · exact ⟨fun n => R_beginLine cfg.variant c l n, rfl, rfl⟩

section
variable (cfg : Config) (c : Chip) (l : Nat)

theorem renderLine_fh : (renderLine cfg c l).1.status.fh = (beginLine cfg.variant c l).status.fh := by
  rw [renderLine_fst, ← (lineChip_frame cfg c l).2.1]
  split_ifs <;> rfl

theorem renderLine_intLine :
    (renderLine cfg c l).1.intLine =
      ((beginLine cfg.variant c l).intLine || (decide (l + 1 = visibleLines cfg.variant c) && (c.R 1).getLsbD 5)) := by
  obtain ⟨hR, -, hint⟩ := lineChip_frame cfg c l
  rw [renderLine_fst, ← hint, ← hR 1]
  split_ifs with hlast <;> simp [hlast]

theorem renderLine_collisionReported : (renderLine cfg c l).1.collisionReported = (lineChip cfg c l).collisionReported := by
  rw [renderLine_fst]
  split_ifs <;> rfl

/-- The frame event sets F. -/
theorem renderLine_s0 :
    (renderLine cfg c l).1.status.s0 =
      if l + 1 = visibleLines cfg.variant c then (lineChip cfg c l).status.s0 ||| 0x80 else (lineChip cfg c l).status.s0 := by
  rw [renderLine_fst]
  split_ifs <;> rfl

end

/-! ### Bits of S#0 -/

/-- Bits that are set where a condition holds. -/
theorem getLsbD_ite_or (p : Prop) [Decidable p] (x m : Byte) (k : Nat) :
    (if p then x ||| m else x).getLsbD k = (x.getLsbD k || (decide p && m.getLsbD k)) := by
  by_cases h : p <;> simp [h]

/-- Bits that are set above the low `k` leave those. -/
theorem toNat_mod_ite_or (p : Prop) [Decidable p] (x : Byte) {m : Byte} {k : Nat} (hk : k ≤ 8)
    (hm : m &&& BitVec.ofNat 8 (2 ^ k - 1) = 0) : (if p then x ||| m else x).toNat % 2 ^ k = x.toNat % 2 ^ k := by
  split_ifs
  · rw [← toNat_and_lowMask _ hk, ← toNat_and_lowMask _ hk, BitVec.and_or_distrib_right, hm]
    exact congrArg BitVec.toNat BitVec.or_zero
  · rfl

theorem getLsbD_fifthSprite {k : Nat} (hk : k = 5 ∨ k = 7) (s0 : Byte) {i : Nat} (hi : i < 32) :
    (fifthSprite s0 i).getLsbD k = s0.getLsbD k := by
  have hpow : 2 ^ 5 ≤ 2 ^ k := Nat.pow_le_pow_right (by decide) (by omega)
  have hnumber : i.testBit k = false := Nat.testBit_lt_two_pow (lt_of_lt_of_le hi hpow)
  unfold fifthSprite
  split_ifs
  · rfl
  · rw [BitVec.getLsbD_or, BitVec.getLsbD_or, BitVec.getLsbD_and, BitVec.getLsbD_ofNat, hnumber]
    rcases hk with rfl | rfl <;> simp

theorem getLsbD_6_fifthSprite (s0 : Byte) (i : Nat) : (fifthSprite s0 i).getLsbD 6 = true := by
  unfold fifthSprite
  split_ifs with h
  · exact h
  · simp

theorem toNat_mod_fifthSprite (s0 : Byte) {i : Nat} (hi : i < 32) :
    (fifthSprite s0 i).toNat % 32 = if s0.getLsbD 6 then s0.toNat % 32 else i := by
  unfold fifthSprite
  split_ifs
  · rfl
  · have hlow : ((s0 &&& 0xE0 ||| 0x40 ||| BitVec.ofNat 8 i) &&& 0x1F : Byte) = BitVec.ofNat 8 i &&& 0x1F := by
      rw [BitVec.and_or_distrib_right, BitVec.and_or_distrib_right, BitVec.and_assoc]
      simp
    calc (s0 &&& 0xE0 ||| 0x40 ||| BitVec.ofNat 8 i).toNat % 32
        = ((s0 &&& 0xE0 ||| 0x40 ||| BitVec.ofNat 8 i) &&& 0x1F).toNat := (toNat_and_lowMask _ (k := 5) (by decide)).symm
      _ = (BitVec.ofNat 8 i).toNat % 32 := by rw [hlow]; exact toNat_and_lowMask _ (k := 5) (by decide)
      _ = i := by rw [BitVec.toNat_ofNat]; omega

/-- The report of the fifth sprite leaves C and F. -/
theorem getLsbD_reportFifth {k : Nat} (hk : k = 5 ∨ k = 7) (s0 : Byte) (v : Variant) (c : Chip) (l : Nat) :
    (reportFifth s0 (spritesOn v c l)[4]?).getLsbD k = s0.getLsbD k := by
  cases hfifth : (spritesOn v c l)[4]? with
  | none => rfl
  | some i => exact getLsbD_fifthSprite hk s0 (lt_of_mem_spritesOn (List.mem_of_getElem? hfifth))

/-! ### S#0 and the collision latch after a line -/

section
variable {cfg : Config} {c : Chip} {l : Nat}

theorem beginLine_s0 (v : Variant) (c : Chip) (l : Nat) : (beginLine v c l).status.s0 = c.status.s0 := by
  rw [beginLine_eq_flags]

theorem lineChip_s0_of_sprites (hvisible : l < visibleLines cfg.variant c) (hon : (c.R 1).getLsbD 6 = true)
    (hshown : spritesShown cfg.variant c = true) :
    (lineChip cfg c l).status.s0 =
      if (lineChip cfg c l).collisionReported ≠ (beginLine cfg.variant c l).collisionReported
      then reportFifth c.status.s0 (spritesOn cfg.variant c l)[4]? ||| 0x20
      else reportFifth c.status.s0 (spritesOn cfg.variant c l)[4]? := by
  rw [lineChip_of_sprites hvisible hon hshown]
  exact (s0_composeSprites _ _ _).trans (by rw [beginLine_s0, spritesOn_beginLine])

theorem lineChip_reported_of_sprites (hvisible : l < visibleLines cfg.variant c) (hon : (c.R 1).getLsbD 6 = true)
    (hshown : spritesShown cfg.variant c = true) :
    (lineChip cfg c l).collisionReported = true ↔
      (beginLine cfg.variant c l).collisionReported = true ∨ spritesCollide cfg c l := by
  rw [lineChip_of_sprites hvisible hon hshown, ← spritesCollide_beginLine cfg.variant c l cfg l]
  exact reported_composeSprites _ _ _

/-- F is left by a line; only its event sets it. -/
theorem lineChip_F (cfg : Config) (c : Chip) (l : Nat) :
    (lineChip cfg c l).status.s0.getLsbD 7 = c.status.s0.getLsbD 7 := by
  by_cases hplain : (c.R 1).getLsbD 6 = false ∨ spritesShown cfg.variant c = false ∨ visibleLines cfg.variant c ≤ l
  · rw [lineChip_of_no_sprites hplain, beginLine_s0]
  · simp only [not_or, Bool.not_eq_false, Nat.not_le] at hplain
    obtain ⟨hon, hshown, hvisible⟩ := hplain
    rw [lineChip_s0_of_sprites hvisible hon hshown, getLsbD_ite_or, getLsbD_reportFifth (.inr rfl)]
    exact (congrArg _ (Bool.and_false _)).trans (Bool.or_false _)

end

theorem spriteMode_iff (m : Mode) : spriteMode m = true ↔ m ∈ [Mode.G1, .G2, .MC, .BMC] := by
  cases m <;> decide

theorem spritesShown_iff (v : Variant) (c : Chip) :
    spritesShown v c = true ↔
      modeOf v c ∈ [Mode.G1, .G2, .MC, .BMC] ∧ (v = .H → (c.R 8).getLsbD 1 = false) := by
  rw [spritesShown, Bool.and_eq_true, spriteMode_iff]
  refine and_congr_right fun _ => ?_
  rw [Bool.not_eq_true', Bool.and_eq_false_imp, beq_iff_eq]

/-- Settles O55: F and FH from the events, 5S and its number from the scan, C and the latch from the composite. -/
theorem renderStatus : Obligations.RenderStatus := by
  intro s t l v a b reported all hv ha hb hreported hall hexec
  obtain rfl := exec_render_next hexec
  subst hv ha hall
  have hstart : (beginLine s.cfg.variant s.chip l).collisionReported = reported := by rw [hreported, beginLine_eq_flags]
  replace hb := hb.trans (renderLine_s0 s.cfg s.chip l)
  have hlatch := renderLine_collisionReported s.cfg s.chip l
  refine ⟨?_, ?_, ?_, ?_, fun hvisible hon hshown => ?_, fun hplain => ⟨?_, ?_⟩⟩
  · rw [hb, getLsbD_ite_or, lineChip_F]
    exact congrArg _ (Bool.and_true _)
  · exact (renderLine_fh s.cfg s.chip l).trans (by rw [beginLine_eq_flags])
  · exact (renderLine_intLine s.cfg s.chip l).trans (by rw [beginLine_eq_flags])
  · exact spritesShown_iff _ _
  · have hline := lineChip_s0_of_sprites hvisible hon hshown
    have hcollide := lineChip_reported_of_sprites hvisible hon hshown
    rw [hline] at hb
    have hlow : b.toNat % 32 = (reportFifth s.chip.status.s0 (spritesOn s.cfg.variant s.chip l)[4]?).toNat % 32 := by
      rw [hb]
      exact (toNat_mod_ite_or _ _ (k := 5) (by decide) (by decide)).trans
        (toNat_mod_ite_or _ _ (k := 5) (by decide) (by decide))
    have hfifth : b.getLsbD 6 = (reportFifth s.chip.status.s0 (spritesOn s.cfg.variant s.chip l)[4]?).getLsbD 6 := by
      rw [hb, getLsbD_ite_or, getLsbD_ite_or]
      simp
    refine ⟨fun hle => ?_, fun i hi => ?_, ?_, ?_⟩
    · rw [hlow, hfifth, List.getElem?_eq_none hle]
      exact ⟨rfl, rfl⟩
    · rw [hlow, hfifth, hi]
      exact ⟨getLsbD_6_fifthSprite _ _, toNat_mod_fifthSprite _ (lt_of_mem_spritesOn (List.mem_of_getElem? hi))⟩
    · have hnew : (lineChip s.cfg s.chip l).collisionReported ≠ reported ↔
          reported = false ∧ spritesCollide s.cfg s.chip l := by
        cases reported <;> simp [hcollide, hstart]
      rw [hb, getLsbD_ite_or, getLsbD_ite_or, getLsbD_reportFifth (.inl rfl), hstart, ← hnew]
      simp
    · rw [← hstart]
      exact (Bool.eq_iff_iff.mp hlatch).trans hcollide
  · rw [hb, lineChip_of_no_sprites hplain, ← beginLine_s0 s.cfg.variant s.chip l]
    exact toNat_mod_ite_or _ _ (k := 7) (by decide) (by decide)
  · rw [← hstart, ← lineChip_of_no_sprites hplain]
    exact hlatch

end Sys2Proof.Machine
end

section
/-! PROOFS of 43_command_engine, the issue of a command: what the write of R46 does in variant H. -/

namespace Sys2Proof.Machine

/-! ### The write of R46 in variant H -/

/-- A command row stores its byte in R46 and issues it (R402). -/
theorem exec_of_commandByte_of_H {s : State} (hv : s.cfg.variant = .H) {i : Instr} {b : Byte}
    (h : commandByte (encode i) = some b) : exec i s = s.after (issue b (s.chip.setR 46 b)) .none := by
  rw [exec_of_commandByte h, command_eq_after, hv, regWrite_of_H hv]
  exact congrArg (s.after · .none) (regWriteH_eq s.chip (n := 46) (by decide) (by decide) b)

theorem modeOf_setR46 (c : Chip) (b : Byte) : modeOf .H (c.setR 46 b) = modeOf .H c := modeOf_setR .H c 46 b (by decide)

/-- R46 is no parameter of a command (44_command_ops R460). -/
theorem loadParams_setR46 (c : Chip) (b : Byte) (cm lo : Nibble) :
    loadParams (c.setR 46 b) cm lo = loadParams c cm lo := by
  simp [loadParams, pair, R_setR, modeOf_setR46]

/-! ### The issue, one equation per kind of opcode -/

theorem issue_of_not_commandMode {c : Chip} (hmode : commandMode (modeOf .H c) = false) (b : Byte) : issue b c = c :=
  if_pos hmode

section
variable {c : Chip} (hmode : commandMode (modeOf .H c) = true)
include hmode

theorem issue_stop (x : Nibble) : issue (0x0#4 ++ x) c = finish c := by
  rw [issue, BitVec.extractLsb'_append_eq_left, hmode]
  rfl

theorem issue_undefined {cm : Nibble} (hcm : cm ∈ [1, 2, 3]) (x : Nibble) : issue (cm ++ x) c = c := by
  rw [issue, BitVec.extractLsb'_append_eq_left, hmode]
  simp only [List.mem_cons, List.not_mem_nil, or_false] at hcm
  rcases hcm with rfl | rfl | rfl <;> rfl

theorem issue_pset (lo : Nibble) : issue (0x5#4 ++ lo) c = issuePSET lo c := by
  rw [issue, BitVec.extractLsb'_append_eq_left, BitVec.extractLsb'_append_eq_right, hmode]
  rfl

/-- The ten codes that start a command, 6 to 15, less the host-driven ones. -/
theorem issue_budgeted {cm : Nibble} {op : Op} (hcm : opOf cm = some op) (hop : hostDriven op = false) (lo : Nibble) :
    issue (cm ++ lo) c = enter cm lo op c := by
  rw [issue, BitVec.extractLsb'_append_eq_left, BitVec.extractLsb'_append_eq_right, hmode]
  obtain ⟨⟨n, hn⟩⟩ := cm
  interval_cases n <;> cases hcm
  · rfl
  · rfl
  · rfl
  · rfl
  · cases hop
  · cases hop
  · rfl
  · rfl
  · rfl
  · cases hop

end

/-- Settles O38: outside G4 to G7 the issue does nothing; in them it is `finish` for STOP and nothing for codes 1 to 3. -/
theorem stopAndIgnored : Obligations.StopAndIgnored := by
  refine fun s hv => ⟨fun hmode b => ?_, fun hmode x => ?_⟩
  · have hissue : issue b (s.chip.setR 46 b) = s.chip.setR 46 b :=
      issue_of_not_commandMode (by rw [modeOf_setR46]; exact hmode) b
    rw [exec_of_commandByte_of_H hv (commandByte_decodeCommand b), exec_of_commandByte_of_H hv (commandByte_decodeLogical b),
      hissue]
    exact ⟨rfl, rfl⟩
  · have hmode' : ∀ b, commandMode (modeOf .H (s.chip.setR 46 b)) = true := fun b => by rw [modeOf_setR46]; exact hmode
    have hundefined : ∀ {i : Instr} {cm : Nibble}, commandByte (encode i) = some (cm ++ x) → cm ∈ [1, 2, 3] →
        exec i s = s.after (s.chip.setR 46 (cm ++ x)) .none := fun hi hcm => by
      rw [exec_of_commandByte_of_H hv hi, issue_undefined (hmode' _) hcm]
    refine ⟨?_, hundefined rfl (by decide), hundefined rfl (by decide), hundefined rfl (by decide)⟩
    rw [exec_of_commandByte_of_H hv (b := 0x0#4 ++ x) rfl, issue_stop (hmode' _)]
    rfl

/-! ### The start of a budgeted command -/

/-- On a good chip TR is 0 after the discard of whatever ran before (R420). -/
theorem enter_of_ok {c : Chip} (h : c.ok .H) (cm lo : Nibble) (op : Op) :
    enter cm lo op c =
      { c with
        mmc := loadParams c cm lo, engine := .running op, status := { c.status with ce := true, tr := false } } := by
  rw [enter, discard]
  split_ifs with hidle
  · have htr : c.status.tr = false := by
      obtain ⟨-, -, -, -, htr, -⟩ := h
      rw [htr, hidle]
      rfl
    rw [← htr]
  · rfl

/-- Settles O43: the seven rows are starts of budgeted codes, and R46 is none of the parameters they fetch. -/
theorem budgetedStarts : Obligations.BudgetedStarts := by
  intro s x start hinv hv hmode hstart
  have hrow : ∀ {i : Instr} {cm : Nibble} {op : Op}, commandByte (encode i) = some (cm ++ x) → opOf cm = some op →
      hostDriven op = false → exec i s = s.after (start cm op) .none := fun {i cm op} hi hcm hop => by
    have hok : (s.chip.setR 46 (cm ++ x)).ok .H := setR_ok (hv ▸ hinv) (by decide) (by decide) _
    rw [exec_of_commandByte_of_H hv hi, issue_budgeted (by rw [modeOf_setR46]; exact hmode) hcm hop, enter_of_ok hok,
      loadParams_setR46, hstart]
    rfl
  exact ⟨hrow rfl rfl rfl, hrow rfl rfl rfl, hrow rfl rfl rfl, hrow rfl rfl rfl, hrow rfl rfl rfl, hrow rfl rfl rfl,
    hrow rfl rfl rfl⟩

/-! ### PSET under each logical operation -/

theorem psetAt_setMmc (c : Chip) (m : Mmc) (f : Bool) (x y : Int) (col : Byte) (lo : Nibble) :
    psetAt (c.setMmc m) f x y col lo = (psetAt c f x y col lo).setMmc m := by
  have hplace : pixelPlace (c.setMmc m) f x y = pixelPlace c f x y := rfl
  have hmode : modeOf .H (c.setMmc m) = modeOf .H c := rfl
  rw [psetAt, psetAt, hplace, hmode, readAt_setMmc]
  split
  · cases pixelPlace c f x y <;> rfl
  · rfl

/-- PSET leaves the Command Unit State it loaded behind only to clear it. -/
theorem issuePSET_eq (lo : Nibble) (c : Chip) :
    issuePSET lo c = finish (psetAt c ((c.R 45).getLsbD 5) (pair c 36 9) (pair c 38 10)
      (c.R 44 &&& colourBits (modeOf .H c)) lo) :=
  (congrArg finish (psetAt_setMmc c (loadParams c 5 lo) ((c.R 45).getLsbD 5) (pair c 36 9) (pair c 38 10)
    (c.R 44 &&& colourBits (modeOf .H c)) lo)).trans rfl

/-- With R46 stored, PSET writes what the logical operation makes of the destination byte. -/
theorem issuePSET_setR46 (c : Chip) (b : Byte) (lo : Nibble) :
    issuePSET lo (c.setR 46 b) = c.afterPset b (psetByte (modeOf .H c) (pair c 36 9) (c.readAt c.destination)
      (c.R 44 &&& colourBits (modeOf .H c)) lo) := by
  have hR : ∀ n ≠ 46, (c.setR 46 b).R n = c.R n := fun n hn => R_setR_ne c b hn.symm
  have hpair : ∀ n k, n + 1 < 46 → pair (c.setR 46 b) n k = pair c n k := fun n k hn => by
    rw [pair, pair, hR n (by omega), hR (n + 1) (by omega)]
  have hplace : pixelPlace (c.setR 46 b) ((c.R 45).getLsbD 5) (pair c 36 9) (pair c 38 10) = c.destination := by
    rw [pixelPlace, modeOf_setR46]
    rfl
  rw [issuePSET_eq, hR 44 (by decide), hR 45 (by decide), hpair 36 9 (by decide), hpair 38 10 (by decide), psetAt, hplace,
    modeOf_setR46, readAt_setR]
  rfl

/-- Settles O41: the sixteen rows are PSET with their own operation, whose byte is a line of R440's table. -/
theorem logicalOperations : Obligations.LogicalOperations := by
  rintro s P C K M hv hmode rfl rfl rfl rfl
  have hrow : ∀ {i : Instr} (lo : Nibble), commandByte (encode i) = some (0x5#4 ++ lo) →
      exec i s = s.after (s.chip.afterPset (0x5#4 ++ lo) (psetByte (modeOf .H s.chip) (pair s.chip 36 9)
        (s.chip.readAt s.chip.destination) (s.chip.R 44 &&& colourBits (modeOf .H s.chip)) lo)) .none := fun lo hi => by
    rw [exec_of_commandByte_of_H hv hi, issue_pset (by rw [modeOf_setR46]; exact hmode), issuePSET_setR46]
  exact ⟨hrow 0 rfl, hrow 1 rfl, hrow 2 rfl, hrow 3 rfl, hrow 4 rfl, hrow 8 rfl, hrow 9 rfl, hrow 10 rfl, hrow 11 rfl,
    hrow 12 rfl, hrow 5 rfl, hrow 6 rfl, hrow 7 rfl, hrow 13 rfl, hrow 14 rfl, hrow 15 rfl⟩

end Sys2Proof.Machine
end

section
/-! PROOFS of 43_command_engine, the budget: what an update does, runs of updates, and that every budgeted command ends. -/

namespace Sys2Proof.Machine

/-! ### Steps and the budget -/

@[simp] theorem setBudget_engine (c : Chip) (b : Int) : (c.setBudget b).engine = c.engine := rfl

@[simp] theorem setBudget_budget (c : Chip) (b : Int) : (c.setBudget b).budget = b := rfl

@[simp] theorem setBudget_setBudget (c : Chip) (b d : Int) : (c.setBudget b).setBudget d = c.setBudget d := rfl

theorem iterate_stepOp_setBudget (op : Op) (n : Nat) (c : Chip) (b : Int) :
    (stepOp op)^[n] (c.setBudget b) = ((stepOp op)^[n] c).setBudget b :=
  (Function.Semiconj.iterate_right (f := fun d : Chip => d.setBudget b) (fun d => (stepOp_setBudget op d b).symm) n c).symm

/-- A step of a running command stops it or leaves it running. -/
theorem engine_stepOp {op : Op} {c : Chip} (h : c.engine = .running op) :
    (stepOp op c).engine = .idle ∨ (stepOp op c).engine = .running op :=
  (progress_stepOp op c).2.imp (fun hstopped => hstopped.engine) fun hgoing => hgoing.engine.trans h

/-- The command still runs before each of the first `n` steps. -/
def RunsFor (op : Op) (n : Nat) (c : Chip) : Prop := ∀ k < n, ((stepOp op)^[k] c).engine = .running op

theorem runsFor_zero (op : Op) (c : Chip) : RunsFor op 0 c := fun _ hk => absurd hk (Nat.not_lt_zero _)

theorem RunsFor.add {op : Op} {c : Chip} {m n : Nat} (hfirst : RunsFor op m c) (hthen : RunsFor op n ((stepOp op)^[m] c)) :
    RunsFor op (n + m) c := by
  intro k hk
  by_cases hkm : k < m
  · exact hfirst k hkm
  · obtain ⟨j, rfl⟩ := Nat.exists_eq_add_of_le' (Nat.le_of_not_lt hkm)
    rw [Function.iterate_add_apply]
    exact hthen j (by omega)

theorem runsFor_one {op : Op} {c : Chip} (h : c.engine = .running op) : RunsFor op 1 c := by
  intro k hk
  obtain rfl : k = 0 := by omega
  exact h

theorem runsFor_setBudget {op : Op} {n : Nat} {c : Chip} (b : Int) : RunsFor op n (c.setBudget b) ↔ RunsFor op n c := by
  simp only [RunsFor, iterate_stepOp_setBudget, setBudget_engine]

/-- The last of the steps may have stopped the command. -/
theorem RunsFor.engine {op : Op} {n : Nat} {c : Chip} (h : RunsFor op n c) (hn : n ≠ 0) :
    ((stepOp op)^[n] c).engine = .idle ∨ ((stepOp op)^[n] c).engine = .running op := by
  obtain ⟨k, rfl⟩ := Nat.exists_eq_succ_of_ne_zero hn
  rw [Function.iterate_succ_apply']
  exact engine_stepOp (h k (Nat.lt_succ_self k))

/-- A command stops after one number of steps only. -/
theorem RunsFor.unique {op : Op} {m n : Nat} {c : Chip} (hm : RunsFor op m c) (hn : RunsFor op n c)
    (hmi : ((stepOp op)^[m] c).engine = .idle) (hni : ((stepOp op)^[n] c).engine = .idle) : m = n := by
  rcases lt_trichotomy m n with hlt | heq | hlt
  · exact absurd (hmi.symm.trans (hn m hlt)) Engine.noConfusion
  · exact heq
  · exact absurd (hni.symm.trans (hm n hlt)) Engine.noConfusion

/-! ### The loop of an update -/

/-- The loop of R410, from a chip `c` whose budget is filled, makes `n` steps and leaves `d`: the budget pays for each,
and either the last one stops the command or one more is not paid for. -/
structure PaidRun (op : Op) (cost n : Nat) (c d : Chip) : Prop where
  running : RunsFor op n c
  paid : (n : Int) * cost < c.budget
  ends : ((stepOp op)^[n] c).engine = .idle ∧ d = ((stepOp op)^[n] c).setBudget (c.budget - n * cost) ∨
    ((stepOp op)^[n] c).engine = .running op ∧ c.budget ≤ (n + 1) * cost ∧
      d = ((stepOp op)^[n] c).setBudget (c.budget - (n + 1) * cost)

theorem paidRun_zero {op : Op} {cost : Nat} {c : Chip} (h : c.engine = .running op) (hpos : 0 < c.budget)
    (hspent : c.budget ≤ cost) : PaidRun op cost 0 c (c.setBudget (c.budget - cost)) :=
  ⟨runsFor_zero op c, by simpa using hpos, .inr ⟨h, by simpa using hspent, by simp⟩⟩

theorem paidRun_one {op : Op} {cost : Nat} {c : Chip} (h : c.engine = .running op) (hpaid : cost < c.budget)
    (hidle : (stepOp op c).engine = .idle) : PaidRun op cost 1 c ((stepOp op c).setBudget (c.budget - cost)) :=
  ⟨runsFor_one h, by simpa using hpaid, .inl ⟨hidle, by simp⟩⟩

/-- A paid step, then a paid run. -/
theorem PaidRun.succ {op : Op} {cost n : Nat} {c d : Chip} (h : c.engine = .running op)
    (hrun : PaidRun op cost n ((stepOp op c).setBudget (c.budget - cost)) d) : PaidRun op cost (n + 1) c d := by
  obtain ⟨hrunning, hpaid, hends⟩ := hrun
  rw [setBudget_budget] at hpaid
  have hspend : ∀ k : Int, c.budget - cost - k * cost = c.budget - (k + 1) * cost := fun k => by ring
  simp only [iterate_stepOp_setBudget, setBudget_engine, setBudget_budget, setBudget_setBudget, hspend,
    ← Function.iterate_succ_apply] at hends
  refine ⟨(runsFor_one h).add ((runsFor_setBudget _).mp hrunning), by push_cast; linarith, ?_⟩
  push_cast
  exact hends.imp_right fun ⟨hengine, hspent, heq⟩ => ⟨hengine, by linarith, heq⟩

theorem budgetLoop_succ (op : Op) (cost fuel : Nat) (c : Chip) :
    budgetLoop op cost (fuel + 1) c =
      if c.budget - cost ≤ 0 then c.setBudget (c.budget - cost)
      else if (stepOp op c).engine = .idle then (stepOp op c).setBudget (c.budget - cost)
      else budgetLoop op cost fuel ((stepOp op c).setBudget (c.budget - cost)) := by
  have hstep : stepOp op { c with budget := c.budget - cost } = (stepOp op c).setBudget (c.budget - cost) :=
    stepOp_setBudget op c _
  simp only [budgetLoop, hstep, setBudget_engine]
  rfl

/-- Each round costs at least one unit, so the rounds of the model reach the end of the loop. -/
theorem exists_paidRun {op : Op} {cost : Nat} (hcost : 0 < cost) (fuel : Nat) {c : Chip} (h : c.engine = .running op)
    (hpos : 0 < c.budget) (hfuel : c.budget ≤ fuel) : ∃ n, PaidRun op cost n c (budgetLoop op cost fuel c) := by
  induction fuel generalizing c with
  | zero => omega
  | succ fuel ih =>
    rw [budgetLoop_succ]
    split_ifs with hspent hidle
    · exact ⟨0, paidRun_zero h hpos (by omega)⟩
    · exact ⟨1, paidRun_one h (by omega) hidle⟩
    · have hgoing : (stepOp op c).engine = .running op := (engine_stepOp h).resolve_left hidle
      obtain ⟨n, hn⟩ := ih (c := (stepOp op c).setBudget (c.budget - cost)) hgoing (by simpa using hspent)
        (by rw [setBudget_budget]; omega)
      exact ⟨n + 1, hn.succ h⟩

/-! ### The update -/

/-- With no budgeted command running an update refills the budget and does nothing else (R410, R411). -/
theorem updateCommand_of_unbudgeted (cfg : Config) {c : Chip} (h : ∀ op, c.engine = .running op → hostDriven op = true) :
    updateCommand cfg c = c.setBudget cfg.budget := by
  unfold updateCommand
  extract_lets c0
  split
  · rfl
  · rename_i op hengine
    have hrow : costRow op = none := by
      have hhost : hostDriven op = true := h op hengine
      revert hhost
      cases op <;> decide
    rw [hrow]
    rfl

theorem updateCommand_of_budgeted {cfg : Config} {c : Chip} {op : Op} {row cost : Nat} (h : c.engine = .running op)
    (hrow : costRow op = some row) (hcost : cfg.cost[4 * row + timingClass c]? = some cost) :
    updateCommand cfg c = budgetLoop op cost cfg.budget (c.setBudget cfg.budget) := by
  unfold updateCommand
  extract_lets c0
  split
  · rename_i hidle
    exact absurd (h.symm.trans hidle) Engine.noConfusion
  · rename_i op' hengine
    obtain rfl : op = op' := Engine.running.inj (h.symm.trans hengine)
    have hclass : timingClass c0 = timingClass c := rfl
    simp only [hrow, hclass, hcost]
    rfl

theorem costRow_of_budgeted {op : Op} (h : hostDriven op = false) :
    ∃ row < 7, costRow op = some row ∧ [Op.srch, .line, .lmmv, .lmmm, .hmmv, .hmmm, .ymmm][row]? = some op := by
  cases op
  · exact ⟨0, by decide, rfl, rfl⟩
  · exact ⟨1, by decide, rfl, rfl⟩
  · exact ⟨2, by decide, rfl, rfl⟩
  · exact ⟨3, by decide, rfl, rfl⟩
  · cases h
  · cases h
  · exact ⟨4, by decide, rfl, rfl⟩
  · exact ⟨5, by decide, rfl, rfl⟩
  · exact ⟨6, by decide, rfl, rfl⟩
  · cases h

theorem timingClass_eq (c : Chip) :
    timingClass c = 2 * ((c.R 1).toNat / 64 % 2) + (1 - (c.R 8).toNat / 2 % 2) := by
  simp only [timingClass, getLsbD_iff_div_mod, Nat.reducePow]
  split_ifs <;> omega

theorem timingClass_lt (c : Chip) : timingClass c < 4 := by
  rw [timingClass_eq]
  omega

/-- A running budgeted command makes a paid run, at the positive cost of its row and of the timing class. -/
theorem exists_update_paidRun {cfg : Config} (hcfg : cfg.ok) {c : Chip} {op : Op} (h : c.engine = .running op) {row : Nat}
    (hlt : row < 7) (hrow : costRow op = some row) :
    ∃ n cost, cfg.cost[4 * row + timingClass c]? = some cost ∧ cost < cfg.budget ∧
      PaidRun op cost n (c.setBudget cfg.budget) (updateCommand cfg c) := by
  have hindex : 4 * row + timingClass c < 28 := by
    have := timingClass_lt c
    omega
  obtain ⟨hpos, hbudget⟩ := hcfg ⟨_, hindex⟩
  have hcost : cfg.cost[4 * row + timingClass c]? = some cfg.cost[4 * row + timingClass c] :=
    Vector.getElem?_eq_getElem hindex
  obtain ⟨n, hn⟩ := exists_paidRun hpos cfg.budget (c := c.setBudget cfg.budget) h
    (Int.natCast_pos.mpr (lt_trans hpos hbudget)) (le_refl _)
  exact ⟨n, _, hcost, hbudget, by rw [updateCommand_of_budgeted h hrow hcost]; exact hn⟩

/-- A run that pays for one step makes one. -/
theorem PaidRun.pos {op : Op} {cost n : Nat} {c d : Chip} (hrun : PaidRun op cost n c d) (h : c.engine = .running op)
    (hcost : cost < c.budget) : 1 ≤ n := by
  rcases Nat.eq_zero_or_pos n with rfl | hpos
  · rcases hrun.ends with ⟨hidle, -⟩ | ⟨-, hspent, -⟩
    · exact absurd (h.symm.trans hidle) Engine.noConfusion
    · simp only [Nat.cast_zero, zero_add, one_mul] at hspent
      omega
  · exact hpos

theorem exec_update {s : State} (hv : s.cfg.variant = .H) :
    exec .update s = s.after (updateCommand s.cfg s.chip) .none := only_of_eq _ hv

/-- Settles O51: the loop is a paid run on the refilled chip, and steps do not see the budget. -/
theorem updateRunsTheBudget : Obligations.UpdateRunsTheBudget := by
  intro s hv hcfg _
  rw [exec_update hv]
  refine ⟨fun hhost => by rw [updateCommand_of_unbudgeted _ hhost]; rfl, fun op hengine hop => ?_⟩
  obtain ⟨row, hlt, hrow, hlist⟩ := costRow_of_budgeted hop
  obtain ⟨n, cost, hcost, hbudget, hrun⟩ := exists_update_paidRun hcfg hengine hlt hrow
  have hpos := hrun.pos hengine (by simpa using hbudget)
  obtain ⟨hrunning, hpaid, hends⟩ := hrun
  rw [timingClass_eq] at hcost
  rw [runsFor_setBudget] at hrunning
  simp only [iterate_stepOp_setBudget, setBudget_engine, setBudget_budget, setBudget_setBudget] at hpaid hends
  refine ⟨row, _, _, n, cost, hlist, rfl, rfl, hcost, hpos, hrunning, hpaid, ?_⟩
  exact hends.imp (fun ⟨hidle, heq⟩ => ⟨hidle, by rw [heq]; rfl⟩)
    fun ⟨hgoing, hspent, heq⟩ => ⟨hgoing, hspent, by rw [heq]; rfl⟩

/-! ### Runs of updates -/

/-- `d` is `c` after some steps of `op`, none of them taken in Idle, with any budget. -/
def StepsTo (op : Op) (c d : Chip) : Prop :=
  ∃ (n : Nat) (b : Int), RunsFor op n c ∧ d = ((stepOp op)^[n] c).setBudget b

theorem stepsTo_setBudget (op : Op) (c : Chip) (b : Int) : StepsTo op c (c.setBudget b) := ⟨0, b, runsFor_zero op c, rfl⟩

theorem StepsTo.trans {op : Op} {c d e : Chip} (h : StepsTo op c d) (k : StepsTo op d e) : StepsTo op c e := by
  obtain ⟨m, b, hm, rfl⟩ := h
  obtain ⟨n, b', hn, rfl⟩ := k
  rw [runsFor_setBudget] at hn
  refine ⟨n + m, b', hm.add hn, ?_⟩
  rw [iterate_stepOp_setBudget, Function.iterate_add_apply, setBudget_setBudget]

theorem stepsTo_updateCommand {cfg : Config} (hcfg : cfg.ok) {c : Chip} {op : Op}
    (h : c.engine = .idle ∨ c.engine = .running op) : StepsTo op c (updateCommand cfg c) := by
  by_cases hbudgeted : c.engine = .running op ∧ hostDriven op = false
  · obtain ⟨hengine, hop⟩ := hbudgeted
    obtain ⟨row, hlt, hrow, -⟩ := costRow_of_budgeted hop
    obtain ⟨n, cost, -, -, hrunning, -, hends⟩ := exists_update_paidRun hcfg hengine hlt hrow
    simp only [runsFor_setBudget, iterate_stepOp_setBudget, setBudget_setBudget] at hrunning hends
    rcases hends with ⟨-, heq⟩ | ⟨-, -, heq⟩
    · exact ⟨n, _, hrunning, heq⟩
    · exact ⟨n, _, hrunning, heq⟩
  · rw [updateCommand_of_unbudgeted cfg]
    · exact stepsTo_setBudget op c _
    · intro op' hop'
      rcases h with hidle | hrunning
      · exact absurd (hidle.symm.trans hop') Engine.noConfusion
      · obtain rfl : op = op' := Engine.running.inj (hrunning.symm.trans hop')
        simpa [hrunning] using hbudgeted

/-- Steps of `op` leave the engine idle or running `op`. -/
theorem StepsTo.engine {op : Op} {c d : Chip} (h : StepsTo op c d) (hc : c.engine = .idle ∨ c.engine = .running op) :
    d.engine = .idle ∨ d.engine = .running op := by
  obtain ⟨n, b, hn, rfl⟩ := h
  by_cases hzero : n = 0
  · subst hzero
    exact hc
  · exact hn.engine hzero

theorem step_update {s : State} {rest : List Call} (hv : s.cfg.variant = .H) (hinput : s.input = .update :: rest) :
    step s = .next { s with input := rest, chip := updateCommand s.cfg s.chip, out := .none } := by
  have hdecode : decode s.cfg s.ctx .update = .ok .update :=
    decode_eq_ok_iff.mpr ⟨rfl, wf_iff.mpr ⟨by rw [hv]; rfl, rfl, rfl⟩⟩
  exact (step_of_decode_ok hinput hdecode).trans (exec_update (s := { s with input := rest }) hv)

/-- A run over updates alone makes steps of the running command and nothing else. -/
theorem stepsTo_of_run {op : Op} {n : Nat} {s t : State} (hv : s.cfg.variant = .H) (hcfg : s.cfg.ok)
    (hc : s.chip.engine = .idle ∨ s.chip.engine = .running op) (hinput : s.input = List.replicate n .update)
    (hrun : Host.Core.run Sys2Proof.core n s = .next t) : StepsTo op s.chip t.chip := by
  induction n generalizing s with
  | zero =>
    cases hrun
    exact stepsTo_setBudget op t.chip t.chip.budget
  | succ n ih =>
    have hstep := step_update hv (rest := List.replicate n .update) hinput
    have hupdate := stepsTo_updateCommand hcfg hc
    have hrest := (run_succ (M := Sys2Proof.core) hstep n).symm.trans hrun
    exact hupdate.trans (ih (s := { s with
      input := List.replicate n .update, chip := updateCommand s.cfg s.chip, out := .none })
      hv hcfg (hupdate.engine hc) rfl hrest)

/-- The chip in Idle is the same but for the budget, however its steps were spread over updates. -/
theorem StepsTo.unique {op : Op} {c d e : Chip} (hd : StepsTo op c d) (he : StepsTo op c e) (hdi : d.engine = .idle)
    (hei : e.engine = .idle) (b : Int) : d.setBudget b = e.setBudget b := by
  obtain ⟨m, _, hm, rfl⟩ := hd
  obtain ⟨n, _, hn, rfl⟩ := he
  obtain rfl : m = n := hm.unique hn hdi hei
  rfl

/-- Settles O52: both runs are steps of the same command from the same chip. -/
theorem budgetIndependence : Obligations.BudgetIndependence := by
  intro s₁ s₂ t₁ t₂ n₁ n₂ hv₁ hv₂ hcfg₁ hcfg₂ hchip _ hin₁ hin₂ hrun₁ hrun₂ hidle₁ hidle₂
  obtain ⟨op, hop⟩ : ∃ op, s₁.chip.engine = .idle ∨ s₁.chip.engine = .running op := by
    cases s₁.chip.engine with
    | idle => exact ⟨.srch, .inl rfl⟩
    | running op => exact ⟨op, .inr rfl⟩
  have h₁ := stepsTo_of_run hv₁ hcfg₁ hop hin₁ hrun₁
  have h₂ := stepsTo_of_run hv₂ hcfg₂ (hchip ▸ hop) hin₂ hrun₂
  rw [← hchip] at h₂
  exact h₁.unique h₂ hidle₁ hidle₂ 0

end Sys2Proof.Machine
end

section
/-! PROOFS of 43_command_engine, termination: every budgeted command ends (R413). -/

namespace Sys2Proof.Machine

/-! ### A rank that falls ends a command -/

/-- While the Command Unit State meets `I`, a step of `op` stops the command, or keeps `I` and lowers the rank. -/
def StepFalls (op : Op) (I : Mmc → Prop) (rank : Mmc → Nat) : Prop :=
  ∀ c : Chip, I c.mmc →
    (stepOp op c).engine = .idle ∨ I (stepOp op c).mmc ∧ rank (stepOp op c).mmc < rank c.mmc

theorem StepFalls.ends {op : Op} {I : Mmc → Prop} {rank : Mmc → Nat} (h : StepFalls op I rank) :
    ∀ c : Chip, I c.mmc → ∃ n, ((stepOp op)^[n] c).engine = .idle := by
  intro c hc
  induction hrank : rank c.mmc using Nat.strong_induction_on generalizing c with
  | _ r ih =>
    rcases h c hc with hidle | ⟨hkept, hlower⟩
    · exact ⟨1, hidle⟩
    · obtain ⟨n, hn⟩ := ih _ (hrank ▸ hlower) (stepOp op c) hkept rfl
      exact ⟨n + 1, hn⟩

/-! ### A coordinate that runs towards a border -/

/-- The step and the border of a command in G4 to G7: pixels or bytes, in either direction (R430, 44_command_ops R460). -/
structure Stride (m : Mmc) : Prop where
  step : m.TX ∈ [1, 2, 4, -1, -2, -4]
  border : m.MX = 256 ∨ m.MX = 512

/-- A column from which a step either crosses the border or lands on such a column. -/
def OnScreen (x : Int) : Prop := 0 ≤ x ∧ x < 768

/-- How far a column can still go in the direction of the step. -/
def columnsLeft (tx x : Int) : Nat := (if 0 < tx then 767 - x else x).toNat

theorem columnsLeft_lt {tx x : Int} (h : OnScreen x) : columnsLeft tx x < 768 := by
  obtain ⟨hlow, hhigh⟩ := h
  unfold columnsLeft
  split_ifs <;> omega

theorem crosses_iff (x : Int) {mx : Int} : crosses x mx = true ↔ x / mx % 2 ≠ 0 := by simp [crosses]

/-- Below column 0, and from column 768 to 1023, lies the odd side of either border. -/
theorem crosses_of_not_onScreen {x mx : Int} (hmx : mx = 256 ∨ mx = 512) (hlow : -256 ≤ x) (hhigh : x < 1024)
    (hoff : ¬ OnScreen x) : crosses x mx = true := by
  unfold OnScreen at hoff
  rw [crosses_iff]
  rcases hmx with rfl | rfl <;> omega

/-- A step that does not cross the border stays on screen and comes nearer to the border. -/
theorem Stride.columns {m : Mmc} (h : Stride m) {x : Int} (hx : OnScreen x) (hin : crosses (x + m.TX) m.MX = false) :
    OnScreen (x + m.TX) ∧ columnsLeft m.TX (x + m.TX) < columnsLeft m.TX x := by
  have hstep := h.step
  simp only [List.mem_cons, List.not_mem_nil, or_false] at hstep
  have hnext : OnScreen (x + m.TX) := by
    by_contra hoff
    obtain ⟨hlow, hhigh⟩ := hx
    rw [crosses_of_not_onScreen h.border (by omega) (by omega) hoff] at hin
    cases hin
  refine ⟨hnext, ?_⟩
  obtain ⟨hlow, hhigh⟩ := hx
  obtain ⟨hlow', hhigh'⟩ := hnext
  unfold columnsLeft
  split_ifs <;> omega

/-! ### SRCH -/

/-- SRCH moves its column by one step. -/
structure SearchKept (m : Mmc) : Prop where
  stride : Stride m
  column : OnScreen m.ASX

theorem stepFalls_srch : StepFalls .srch SearchKept fun m => columnsLeft m.TX m.ASX := by
  intro c hc
  rw [stepOp, stepSRCH_eq]
  split_ifs with hhit hborder
  · exact .inl rfl
  · exact .inl rfl
  · rw [Bool.not_eq_true] at hborder
    obtain ⟨hon, hfall⟩ := hc.stride.columns hc.column hborder
    exact .inr ⟨⟨⟨hc.stride.step, hc.stride.border⟩, hon⟩, hfall⟩

/-! ### LINE -/

/-- LINE counts its pixels in ADX up to NX. -/
def LineKept (m : Mmc) : Prop := m.ADX ≤ m.NX

theorem stepFalls_line : StepFalls .line LineKept fun m => (m.NX - m.ADX).toNat := by
  intro c hc
  unfold LineKept at hc
  rw [stepOp, stepLINE_eq]
  split_ifs with hend
  · exact .inl rfl
  · have hcount : c.mmc.ADX ≠ c.mmc.NX := fun h => hend (.inl h)
    refine .inr ?_
    simp only [setMmc_mmc, LineKept, lineCounters_eq]
    omega

/-! ### The block opcodes -/

/-- The block opcodes run ADX along a row from DX, and NY down over the rows. -/
structure BlockKept (m : Mmc) : Prop where
  stride : Stride m
  first : OnScreen m.DX
  column : OnScreen m.ADX

/-- The rows still to come, then the columns of this row. -/
def blockRank (m : Mmc) : Nat := ((m.NY - 1) % 1024).toNat * 768 + columnsLeft m.TX m.ADX

/-- `m'` follows `m` in a block: the next column of the row, or the first column of the next row. -/
structure BlockNext (m m' : Mmc) : Prop where
  tx : m'.TX = m.TX
  mx : m'.MX = m.MX
  dx : m'.DX = m.DX
  goesOn : m'.NY = m.NY ∧ m'.ADX = m.ADX + m.TX ∧ crosses (m.ADX + m.TX) m.MX = false ∨
    m'.NY = m.NY - 1 ∧ (m.NY - 1) % 1024 ≠ 0 ∧ m'.ADX = m.DX

theorem BlockNext.falls {m m' : Mmc} (h : BlockNext m m') (hm : BlockKept m) :
    BlockKept m' ∧ blockRank m' < blockRank m := by
  obtain ⟨htx, hmx, hdx, hgoes⟩ := h
  obtain ⟨hstride, hfirst, hcolumn⟩ := hm
  have hstride' : Stride m' := ⟨htx ▸ hstride.step, hmx ▸ hstride.border⟩
  unfold blockRank
  rcases hgoes with ⟨hny, hadx, hin⟩ | ⟨hny, hmore, hadx⟩
  · obtain ⟨hon, hfall⟩ := hstride.columns hcolumn hin
    exact ⟨⟨hstride', hdx ▸ hfirst, hadx ▸ hon⟩, by rw [hny, hadx, htx]; omega⟩
  · have hleft : columnsLeft m.TX m.DX < 768 := columnsLeft_lt hfirst
    exact ⟨⟨hstride', hdx ▸ hfirst, hadx ▸ hfirst⟩, by rw [hny, hadx, htx]; omega⟩

/-- A row end stops the command or goes on in the block. -/
def EndsOrNext (c d : Chip) : Prop := d.engine = .idle ∨ BlockNext c.mmc d.mmc

theorem endsOrNext_rowEndD (c : Chip) : EndsOrNext c (rowEndD c) := by
  unfold rowEndD
  extract_lets m anx adx rowEnd ny dy
  split_ifs with hrow hlast htop
  · exact .inl rfl
  · exact .inl rfl
  · exact .inr ⟨rfl, rfl, rfl, .inr ⟨rfl, hlast, rfl⟩⟩
  · simp only [rowEnd, not_or, Bool.not_eq_true] at hrow
    obtain ⟨hanx, hin⟩ := hrow
    have hadx : adx = m.ADX + m.TX := if_neg hanx
    exact .inr ⟨rfl, rfl, rfl, .inl ⟨rfl, hadx, hadx ▸ hin⟩⟩

theorem endsOrNext_rowEndSD (c : Chip) : EndsOrNext c (rowEndSD c) := by
  unfold rowEndSD
  extract_lets m anx asx adx rowEnd ny sy dy
  split_ifs with hrow hlast hsy hdy
  · exact .inl rfl
  · exact .inl rfl
  · exact .inl rfl
  · exact .inr ⟨rfl, rfl, rfl, .inr ⟨rfl, hlast, rfl⟩⟩
  · simp only [rowEnd, not_or] at hrow
    obtain ⟨hanx, hsource, hin⟩ := hrow
    rw [Bool.not_eq_true] at hin
    have hadx : adx = m.ADX + m.TX := if_neg (not_or.mpr ⟨hanx, hsource⟩)
    exact .inr ⟨rfl, rfl, rfl, .inl ⟨rfl, hadx, hadx ▸ hin⟩⟩

theorem endsOrNext_rowEndY (c : Chip) : EndsOrNext c (rowEndY c) := by
  unfold rowEndY
  extract_lets m adx ny sy dy
  split_ifs with hrow hlast hsy hdy
  · exact .inl rfl
  · exact .inl rfl
  · exact .inl rfl
  · exact .inr ⟨rfl, rfl, rfl, .inr ⟨rfl, hlast, rfl⟩⟩
  · rw [Bool.not_eq_true] at hrow
    exact .inr ⟨rfl, rfl, rfl, .inl ⟨rfl, rfl, hrow⟩⟩

@[simp] theorem psetAt_mmc (c : Chip) (f : Bool) (x y : Int) (col : Byte) (lo : Nibble) :
    (psetAt c f x y col lo).mmc = c.mmc := by
  rcases psetAt_eq c f x y col lo with h | ⟨b, h⟩ <;> rw [h]
  exact writeAt_mmc c _ b

/-- The opcodes that fill or copy a rectangle within an update. -/
def blockOp : Op → Bool
  | .lmmv | .lmmm | .hmmv | .hmmm | .ymmm => true
  | .srch | .line | .lmcm | .lmmc | .hmmc => false

/-- A step of a block opcode writes memory, which leaves the Command Unit State, and then runs the row end. -/
theorem endsOrNext_stepOp {op : Op} (hop : blockOp op = true) (c : Chip) : EndsOrNext c (stepOp op c) := by
  have key : ∀ {d e : Chip}, d.mmc = c.mmc → EndsOrNext d e → EndsOrNext c e := fun hd h => by
    rw [EndsOrNext, ← hd]
    exact h
  cases op with
  | lmmv => exact key (psetAt_mmc c _ _ _ _ _) (endsOrNext_rowEndD _)
  | lmmm => exact key (psetAt_mmc c _ _ _ _ _) (endsOrNext_rowEndSD _)
  | hmmv => exact key (writeAt_mmc c _ _) (endsOrNext_rowEndD _)
  | hmmm => exact key (writeAt_mmc c _ _) (endsOrNext_rowEndSD _)
  | ymmm => exact key (writeAt_mmc c _ _) (endsOrNext_rowEndY _)
  | srch | line | lmcm | lmmc | hmmc => cases hop

theorem stepFalls_block {op : Op} (hop : blockOp op = true) : StepFalls op BlockKept blockRank := fun c hc =>
  (endsOrNext_stepOp hop c).imp_right fun hnext => hnext.falls hc

/-! ### What a start loads -/

theorem mmc_enter (cm lo : Nibble) (op : Op) (c : Chip) : (enter cm lo op c).mmc = loadParams c cm lo := by
  show loadParams (discard c) cm lo = _
  unfold discard
  split_ifs <;> rfl

theorem onScreen_pair (c : Chip) (n : Nat) : OnScreen (pair c n 9) := by
  have hlt : pair c n 9 < 2 ^ 9 := Nat.mod_lt _ (by decide)
  unfold OnScreen
  omega

theorem stride_loadParams (c : Chip) (cm lo : Nibble) : Stride (loadParams c cm lo) := by
  have hppb : pixelsPerByte (modeOf .H c) ∈ [1, 2, 4] := by cases modeOf .H c <;> decide
  have hborder : borderX (modeOf .H c) = 256 ∨ borderX (modeOf .H c) = 512 := by cases modeOf .H c <;> decide
  refine ⟨?_, hborder⟩
  simp only [loadParams]
  generalize pixelsPerByte (modeOf .H c) = k at hppb
  simp only [List.mem_cons, List.not_mem_nil, or_false] at hppb ⊢
  split_ifs <;> omega

theorem searchKept_loadParams (c : Chip) (lo : Nibble) : SearchKept (loadParams c 6 lo) :=
  ⟨stride_loadParams c 6 lo, onScreen_pair c 32⟩

theorem lineKept_loadParams (c : Chip) (lo : Nibble) : LineKept (loadParams c 7 lo) :=
  Int.natCast_nonneg (pair c 40 10)

theorem blockKept_loadParams (c : Chip) {cm : Nibble} (hcm : cm ≠ 7) (lo : Nibble) : BlockKept (loadParams c cm lo) :=
  ⟨stride_loadParams c cm lo, onScreen_pair c 36, by
    rw [show (loadParams c cm lo).ADX = pair c 36 9 from if_neg hcm]
    exact onScreen_pair c 36⟩

theorem code_of_opOf {cm : Nibble} {op : Op} (h : opOf cm = some op) :
    op = .srch ∧ cm = 6 ∨ op = .line ∧ cm = 7 ∨ hostDriven op = true ∨ blockOp op = true ∧ cm ≠ 7 := by
  revert cm op
  decide

/-- Settles O53: SRCH runs out of columns, LINE out of pixels, a block out of rows. The mode is not needed: what the start
loads has a rank in every mode. -/
theorem commandsTerminate : Obligations.CommandsTerminate := by
  intro c cm lo op _ hcm hop
  have hload := mmc_enter cm lo op c
  rcases code_of_opOf hcm with ⟨rfl, rfl⟩ | ⟨rfl, rfl⟩ | hhost | ⟨hblock, hne⟩
  · exact stepFalls_srch.ends _ (hload ▸ searchKept_loadParams c lo)
  · exact stepFalls_line.ends _ (hload ▸ lineKept_loadParams c lo)
  · rw [hhost] at hop
    cases hop
  · exact (stepFalls_block hblock).ends _ (hload ▸ blockKept_loadParams c hne lo)

end Sys2Proof.Machine
end

section
/-! PROOFS of 43_command_engine, the pixels: addresses, shifts and colours as numbers, and a byte as the fields of its
pixels. -/

namespace Sys2Proof.Machine

/-! ### Addresses and shifts in numbers -/

theorem lowBits_cast (x : Int) (k : Nat) : (lowBits x k : Int) = x % 2 ^ k :=
  Int.toNat_of_nonneg (Int.emod_nonneg x (by positivity))

theorem vaddr_G4 (x y : Int) : (vaddr .G4 x y : Int) = y % 1024 * 128 + x % 256 / 2 := by
  simp [vaddr, lowBits_cast]

theorem vaddr_G5 (x y : Int) : (vaddr .G5 x y : Int) = y % 1024 * 128 + x % 512 / 4 := by
  simp [vaddr, lowBits_cast]

theorem vaddr_G6 (x y : Int) : (vaddr .G6 x y : Int) = x / 2 % 2 * 65536 + y % 512 * 128 + x % 512 / 4 := by
  simp [vaddr, lowBits_cast]

theorem vaddr_G7 (x y : Int) : (vaddr .G7 x y : Int) = x % 2 * 65536 + y % 512 * 128 + x / 2 % 128 := by
  simp [vaddr, lowBits_cast]

theorem pixelShift_G4 (x : Int) : pixelShift .G4 x = if x % 2 = 0 then 4 else 0 := by
  have hx : (lowBits x 1 : Int) = x % 2 := lowBits_cast x 1
  rw [pixelShift]
  split_ifs <;> omega

theorem pixelShift_G5 (x : Int) : pixelShift .G5 x = 2 * (3 - (x % 4).toNat) := by
  have hx : (lowBits x 2 : Int) = x % 4 := lowBits_cast x 2
  rw [pixelShift]
  omega

theorem pixelShift_G6 (x : Int) : pixelShift .G6 x = if x % 2 = 0 then 4 else 0 := pixelShift_G4 x

theorem pixelShift_G7 (x : Int) : pixelShift .G7 x = 0 := rfl

/-- The place of a pixel, from its byte address as a number. -/
theorem pixelPlace_of_vaddr {c : Chip} {m : Mode} (hm : modeOf .H c = m) {x y : Int} {a : Nat} (ha : (vaddr m x y : Int) = a)
    (f : Bool) : pixelPlace c f x y = if f then .exp (a % 65536) else .main (a % 131072) := by
  rw [pixelPlace, hm, Int.ofNat.inj ha, enginePlace]

/-! ### The colour of a pixel as a number -/

theorem pointAt_of_place {c : Chip} {m : Mode} (hm : modeOf .H c = m) {f : Bool} {x y : Int} {p : Place}
    (hp : pixelPlace c f x y = p) : pointAt c f x y = (c.readAt p >>> pixelShift m x) &&& colourBits m := by
  rw [pointAt, hp, hm]

/-- The two pixels of a byte of G4 and G6. -/
theorem toNat_halfByte (b : Byte) (p : Prop) [Decidable p] :
    ((b >>> (if p then 4 else 0)) &&& 0x0F).toNat = if p then b.toNat / 16 else b.toNat % 16 := by
  have hb := b.isLt
  rw [toNat_and_0x0F, BitVec.toNat_ushiftRight, Nat.shiftRight_eq_div_pow]
  split_ifs <;> omega

/-- The four pixels of a byte of G5. -/
theorem toNat_quarterByte (b : Byte) (k : Nat) : ((b >>> (2 * k)) &&& 0x03).toNat = b.toNat / 4 ^ k % 4 := by
  rw [toNat_and_0x03, BitVec.toNat_ushiftRight, Nat.shiftRight_eq_div_pow, Nat.pow_mul]

/-! ### The pixel write as a table -/

theorem psetAt_of_place {c : Chip} {f : Bool} {x y : Int} {p : Place} (hp : pixelPlace c f x y = p) (col : Byte)
    (lo : Nibble) :
    psetAt c f x y col lo = ((psetByte (modeOf .H c) x (c.readAt p) col lo).map (c.writeAt p)).getD c := by
  rw [psetAt, hp]
  cases psetByte (modeOf .H c) x (c.readAt p) col lo <;> rfl

theorem transparent_map {α : Type} (col b : Byte) (w : Byte → α) (a : α) :
    ((transparent col b).map w).getD a = if col = 0 then a else w b := by
  unfold transparent
  split_ifs <;> rfl

theorem commandMode_iff (m : Mode) : commandMode m = true ↔ m ∈ [Mode.G4, .G5, .G6, .G7] := by
  cases m <;> decide

/-- Settles O60: in each mode the place follows from the byte address as a number and the colour from the shift as one; the
pixel write is R440's table with the byte written or not. -/
theorem pixelLayout : Obligations.PixelLayout := by
  refine ⟨commandMode_iff, rfl, ?_⟩
  rintro c f x y m a p b hm hp rfl
  have hplace : (vaddr m x y : Int) = a → pixelPlace c f x y = p := fun ha => hp ▸ pixelPlace_of_vaddr hm.symm ha f
  refine ⟨?_, ?_, ?_, ?_, ?_⟩
  · rintro rfl ha
    have hat := hplace ((vaddr_G4 x y).trans ha.symm)
    refine ⟨hat, pixelShift_G4 x, ?_⟩
    rw [pointAt_of_place hm.symm hat, pixelShift_G4]
    exact toNat_halfByte _ _
  · rintro rfl ha
    have hat := hplace ((vaddr_G5 x y).trans ha.symm)
    refine ⟨hat, pixelShift_G5 x, ?_⟩
    rw [pointAt_of_place hm.symm hat, pixelShift_G5]
    exact toNat_quarterByte _ _
  · rintro rfl ha
    have hat := hplace ((vaddr_G6 x y).trans ha.symm)
    refine ⟨hat, pixelShift_G6 x, ?_⟩
    rw [pointAt_of_place hm.symm hat, pixelShift_G6]
    exact toNat_halfByte _ _
  · rintro rfl ha
    have hat := hplace ((vaddr_G7 x y).trans ha.symm)
    refine ⟨hat, pixelShift_G7 x, ?_⟩
    rw [pointAt_of_place hm.symm hat, pixelShift_G7]
    exact BitVec.and_allOnes
  · rintro col K M lo w hat rfl rfl hw
    obtain rfl : w = c.writeAt p := funext hw
    subst hm
    rw [psetAt_of_place hat]
    obtain ⟨⟨n, hn⟩⟩ := lo
    obtain hopaque | ⟨hlow, hhigh⟩ | hundefined : n < 8 ∨ 8 ≤ n ∧ n < 13 ∨ 13 ≤ n := by omega
    · interval_cases n <;> rfl
    · interval_cases n <;> exact transparent_map _ _ _ _
    · interval_cases n <;> rfl

/-! ### A byte as the fields of its pixels -/

/-- Where a logical operation writes, it writes one of the five results of R440. -/
theorem logOp_eq_some {lo : Nibble} {p k m col b : Byte} (h : logOp lo p k m col = some b) :
    b = logImp p k m ∨ b = logAnd p k m ∨ b = logOr p k ∨ b = logEor p k ∨ b = logNot p k m := by
  have htransparent : ∀ {r : Byte}, transparent col r = some b → b = r := fun hr => by
    unfold transparent at hr
    split_ifs at hr
    exact (Option.some.inj hr).symm
  unfold logOp at h
  split at h
  · exact .inl (Option.some.inj h).symm
  · exact .inr (.inl (Option.some.inj h).symm)
  · exact .inr (.inr (.inl (Option.some.inj h).symm))
  · exact .inr (.inr (.inr (.inl (Option.some.inj h).symm)))
  · exact .inr (.inr (.inr (.inr (Option.some.inj h).symm)))
  · exact .inl (htransparent h)
  · exact .inr (.inl (htransparent h))
  · exact .inr (.inr (.inl (htransparent h)))
  · exact .inr (.inr (.inr (.inl (htransparent h))))
  · exact .inr (.inr (.inr (.inr (htransparent h))))
  · cases h

/-- The bits of the other pixels stay, where the shifted colour has none of them. -/
theorem logOp_and_mask {lo : Nibble} {p k m col b : Byte} (hdisjoint : k &&& m = 0) (h : logOp lo p k m col = some b) :
    b &&& m = p &&& m := by
  apply BitVec.eq_of_getLsbD_eq
  intro i hi
  have hbit : (k.getLsbD i && m.getLsbD i) = false := by
    rw [← BitVec.getLsbD_and, hdisjoint]
    exact BitVec.getLsbD_zero
  rcases logOp_eq_some h with rfl | rfl | rfl | rfl | rfl <;>
    simp only [logImp, logAnd, logOr, logEor, logNot, BitVec.getLsbD_and, BitVec.getLsbD_or, BitVec.getLsbD_xor,
      BitVec.getLsbD_not] <;>
    grind

/-- A colour inside the mode's mask stays inside the bits of its pixel. -/
theorem shifted_and_others {col mask : Byte} (hcol : col &&& mask = col) (s : Nat) :
    (col <<< s) &&& ~~~(mask <<< s) = 0 := by
  rw [← hcol, BitVec.shiftLeft_and_distrib, BitVec.and_assoc]
  simp

/-- The pixel at distance `s` is read from the bits of its field alone. -/
theorem field_eq {mask : Byte} {s : Nat} (hfits : (mask <<< s) >>> s = mask) (b : Byte) :
    (b >>> s) &&& mask = (b &&& (mask <<< s)) >>> s := by
  rw [BitVec.ushiftRight_and_distrib, hfits]

/-- Two bytes with the same bits in `m` have the same pixel in a field inside `m`. -/
theorem field_congr {b p m mask : Byte} {s : Nat} (hfits : (mask <<< s) >>> s = mask)
    (hinside : (mask <<< s) &&& m = mask <<< s) (h : b &&& m = p &&& m) : (b >>> s) &&& mask = (p >>> s) &&& mask := by
  have hread : ∀ x : Byte, x &&& (mask <<< s) = (x &&& m) &&& (mask <<< s) := fun x => by
    rw [BitVec.and_assoc, BitVec.and_comm m, hinside]
  rw [field_eq hfits, field_eq hfits, hread b, hread p, h]

/-- No bit of a colour inside the mask is lost in the shift to its field. -/
theorem shift_back {col mask : Byte} {s : Nat} (hfits : (mask <<< s) >>> s = mask) (hcol : col &&& mask = col) :
    (col <<< s) >>> s = col := by
  apply BitVec.eq_of_getLsbD_eq
  intro i hi
  have hmask := congrArg (BitVec.getLsbD · i) hfits
  have hbit := congrArg (BitVec.getLsbD · i) hcol
  simp only [BitVec.getLsbD_ushiftRight, BitVec.getLsbD_shiftLeft, BitVec.getLsbD_and,
    Nat.add_sub_cancel_left] at hmask hbit ⊢
  grind

/-- The pixel that IMP writes is the colour. -/
theorem field_logImp {p col mask : Byte} {s : Nat} (hfits : (mask <<< s) >>> s = mask) (hcol : col &&& mask = col) :
    (logImp p (col <<< s) (~~~(mask <<< s)) >>> s) &&& mask = col := by
  have hinside : (col <<< s) &&& (mask <<< s) = col <<< s := by rw [← BitVec.shiftLeft_and_distrib, hcol]
  have hfield : logImp p (col <<< s) (~~~(mask <<< s)) &&& (mask <<< s) = col <<< s := by
    rw [logImp, BitVec.and_comm, BitVec.and_or_distrib_left, BitVec.and_comm p, ← BitVec.and_assoc, BitVec.and_not_self,
      BitVec.and_comm (mask <<< s), hinside]
    simp
  rw [field_eq hfits, hfield, shift_back hfits hcol]

/-- The distances of the pixels of a byte from its bit 0 (R434). -/
def pixelShifts (m : Mode) : List Nat :=
  match m with
  | .G4 | .G6 => [0, 4]
  | .G5 => [0, 2, 4, 6]
  | .G7 | .G1 | .G2 | .MC | .T1 | .BT | .BMC | .ILL | .T2 | .G3 => [0]

theorem pixelShift_mem (m : Mode) (x : Int) : pixelShift m x ∈ pixelShifts m := by
  have h4 : (if x % 2 = 0 then 4 else 0) ∈ [0, 4] := by split_ifs <;> decide
  cases m with
  | G4 => exact pixelShift_G4 x ▸ h4
  | G6 => exact pixelShift_G6 x ▸ h4
  | G5 =>
    rw [pixelShift_G5]
    simp only [pixelShifts, List.mem_cons, List.not_mem_nil, or_false]
    omega
  | _ => exact List.mem_singleton.mpr rfl

/-- A pixel's field lies inside its byte, and apart from the fields of the other pixels. -/
theorem fields_fit (m : Mode) : ∀ s ∈ pixelShifts m, (colourBits m <<< s) >>> s = colourBits m ∧
    ∀ s' ∈ pixelShifts m, s' ≠ s → (colourBits m <<< s) &&& ~~~(colourBits m <<< s') = colourBits m <<< s := by
  cases m <;> decide

/-! ### Reading a pixel after a pixel write -/

/-- A byte written to memory moves no pixel. -/
theorem pointAt_writeAt (c : Chip) (q : Place) (b : Byte) (f : Bool) (x y : Int) :
    pointAt (c.writeAt q b) f x y =
      ((c.writeAt q b).readAt (pixelPlace c f x y) >>> pixelShift (modeOf .H c) x) &&& colourBits (modeOf .H c) :=
  pointAt_of_place (modeOf_writeAt .H c q b) (pixelPlace_congr (writeAt_reg c q b) f x y)

theorem pointAt_psetAt_imp {c : Chip} (hok : c.ok .H) {col : Byte} (hcol : col &&& colourBits (modeOf .H c) = col) (f : Bool)
    (x y : Int) : pointAt (psetAt c f x y col 0) f x y = col := by
  obtain ⟨hmemory, -⟩ := (ok_iff _ _).mp hok
  obtain ⟨hfits, -⟩ := fields_fit _ _ (pixelShift_mem (modeOf .H c) x)
  rw [show psetAt c f x y col 0 = c.writeAt (pixelPlace c f x y) _ from rfl, pointAt_writeAt, readAt_writeAt_same hmemory]
  exact field_logImp hfits hcol

theorem pointAt_psetAt_of_ne {c : Chip} (hok : c.ok .H) {col : Byte} (hcol : col &&& colourBits (modeOf .H c) = col)
    (lo : Nibble) {f g : Bool} {x y x' y' : Int}
    (hne : pixelPlace c g x' y' ≠ pixelPlace c f x y ∨ pixelShift (modeOf .H c) x' ≠ pixelShift (modeOf .H c) x) :
    pointAt (psetAt c f x y col lo) g x' y' = pointAt c g x' y' := by
  obtain ⟨hmemory, -⟩ := (ok_iff _ _).mp hok
  cases hb : psetByte (modeOf .H c) x (c.readAt (pixelPlace c f x y)) col lo with
  | none => rw [psetAt, hb]
  | some b =>
    rw [psetAt, hb]
    show pointAt (c.writeAt (pixelPlace c f x y) b) g x' y' = _
    rw [pointAt_writeAt, pointAt]
    by_cases hplace : pixelPlace c g x' y' = pixelPlace c f x y
    · obtain ⟨hfits, hapart⟩ := fields_fit _ _ (pixelShift_mem (modeOf .H c) x')
      rw [hplace, readAt_writeAt_same hmemory]
      refine field_congr hfits (hapart _ (pixelShift_mem _ x) ?_) (logOp_and_mask (shifted_and_others hcol _) hb)
      exact (hne.resolve_left fun h => h hplace).symm
    · rw [readAt_writeAt_ne c b hplace]

/-- Settles O46: IMP fills the field of its pixel, and no operation touches a field apart from it. -/
theorem pixelReadBack : Obligations.PixelReadBack := fun _ _ _ _ _ _ _ _ lo hok _ hcol =>
  ⟨pointAt_psetAt_imp hok hcol _ _ _, pointAt_psetAt_of_ne hok hcol lo⟩

end Sys2Proof.Machine
end

section
/-! PROOFS of 44_command_ops, the row ends: how a row ends and what follows it, the write-back, the steps of the block
opcodes and the transfers of the host-driven ones. -/

namespace Sys2Proof.Machine

/-! ### The border and the write-back (R533) -/

theorem crosses_eq_decide (x mx : Int) : crosses x mx = decide (x / mx % 2 ≠ 0) := by
  rw [Bool.eq_iff_iff, crosses_iff, decide_eq_true_iff]

theorem toNat_ofNat_lowBits (x : Int) {k : Nat} (hk : k ≤ 8) :
    ((BitVec.ofNat 8 (lowBits x k)).toNat : Int) = x % 2 ^ k := by
  have hnonneg : 0 ≤ x % 2 ^ k := Int.emod_nonneg x (by positivity)
  have hlt : x % 2 ^ k < 2 ^ k := Int.emod_lt_of_pos x (by positivity)
  have hpow : (2 : Int) ^ k ≤ 2 ^ 8 := by gcongr; decide
  rw [BitVec.toNat_ofNat, Nat.mod_eq_of_lt, lowBits_cast]
  zify
  rw [lowBits_cast]
  exact hlt.trans_le hpow

theorem writeBack_R_low {r : Nat} (hr : r + 1 < 64) (x : Int) (c : Chip) :
    (((writeBack r x c).R r).toNat : Int) = x % 256 := by
  rw [writeBack, R_setR_ne _ _ (by omega), R_setR_self _ _ (by omega), toNat_ofNat_lowBits x (by decide)]
  rfl

theorem writeBack_R_high {r : Nat} (hr : r + 1 < 64) (x : Int) (c : Chip) :
    (((writeBack r x c).R (r + 1)).toNat : Int) = x / 256 % 4 := by
  rw [writeBack, R_setR_self _ _ hr, toNat_ofNat_lowBits _ (by decide)]
  rfl

theorem writeBack_R_ne {r n : Nat} (hlow : n ≠ r) (hhigh : n ≠ r + 1) (x : Int) (c : Chip) :
    (writeBack r x c).R n = c.R n := by
  rw [writeBack, R_setR_ne _ _ hhigh.symm, R_setR_ne _ _ hlow.symm]

theorem writeBack_setMmc (r : Nat) (x : Int) (c : Chip) (m : Mmc) :
    writeBack r x (c.setMmc m) = (writeBack r x c).setMmc m := rfl

/-- The end of a command clears whatever the Command Unit State was. -/
theorem finish_setMmc (c : Chip) (m : Mmc) : finish (c.setMmc m) = finish c := rfl

/-! ### When a row ends

The model leaves the column where it is when the count has run out, which changes neither whether the row ends nor what is
written back. -/

theorem rowEnd_iff (anx x tx mx : Int) :
    (anx - 1 = 0 ∨ crosses (if anx - 1 = 0 then x else x + tx) mx = true) ↔ anx = 1 ∨ crosses (x + tx) mx = true := by
  by_cases hanx : anx = 1
  · simp [hanx]
  · have hcount : anx - 1 ≠ 0 := by omega
    simp only [hanx, hcount, if_false]

/-- For the copies, where the source column is stepped first and the destination column only if that did not cross. -/
theorem copyRowEnd_iff (anx x x' tx mx : Int) :
    (anx - 1 = 0 ∨ crosses (if anx - 1 = 0 then x else x + tx) mx = true ∨
      crosses (if anx - 1 = 0 ∨ crosses (if anx - 1 = 0 then x else x + tx) mx = true then x' else x' + tx) mx = true) ↔
      anx = 1 ∨ crosses (x + tx) mx = true ∨ crosses (x' + tx) mx = true := by
  by_cases hanx : anx = 1
  · simp [hanx]
  · have hcount : anx - 1 ≠ 0 := by omega
    cases hsource : crosses (x + tx) mx <;> simp [hanx, hcount, hsource]

/-- A row count that is not a multiple of 1024 has not reached 0. -/
theorem ne_zero_of_emod_ne_zero {n : Int} (h : ¬ n % 1024 = 0) : n ≠ 0 := by
  rintro rfl
  exact h rfl

/-! ### `RowEndD()` (R530) -/

theorem endD_setMmc (c : Chip) (m : Mmc) : endD (c.setMmc m) =
    finish (writeBack 42 m.NY (writeBack 38 (if m.NY = 0 then m.DY + m.TY else m.DY) c)) := by
  simp only [endD, setMmc_mmc, writeBack_setMmc, finish_setMmc]
  rfl

/-- `EndD()` before NY has reached 0. -/
theorem endD_setMmc_of_ne (c : Chip) {m : Mmc} (hny : m.NY ≠ 0) :
    endD (c.setMmc m) = finish (writeBack 42 m.NY (writeBack 38 m.DY c)) := by
  rw [endD_setMmc, if_neg hny]

theorem rowEndD_of_inside {c : Chip} (hcount : c.mmc.ANX ≠ 1) (hin : crosses (c.mmc.ADX + c.mmc.TX) c.mmc.MX = false) :
    rowEndD c = c.setMmc { c.mmc with ANX := c.mmc.ANX - 1, ADX := c.mmc.ADX + c.mmc.TX } := by
  have hnot : ¬ (c.mmc.ANX = 1 ∨ crosses (c.mmc.ADX + c.mmc.TX) c.mmc.MX = true) := by simp [hcount, hin]
  have hne : c.mmc.ANX - 1 ≠ 0 := by omega
  rw [rowEndD]
  simp only [rowEnd_iff]
  rw [if_neg hnot, if_neg hne]

/-- The last row, a row end that leaves the top, and the next row. -/
theorem rowEndD_of_rowEnd {c : Chip} (hend : c.mmc.ANX = 1 ∨ crosses (c.mmc.ADX + c.mmc.TX) c.mmc.MX = true) :
    rowEndD c =
      if (c.mmc.NY - 1) % 1024 = 0 then
        finish (writeBack 42 (c.mmc.NY - 1)
          (writeBack 38 (if c.mmc.NY = 1 then c.mmc.DY + c.mmc.TY else c.mmc.DY) c))
      else if c.mmc.DY + c.mmc.TY = -1 then finish (writeBack 42 (c.mmc.NY - 1) (writeBack 38 (-1) c))
      else c.setMmc { c.mmc with
        ANX := c.mmc.NX, ADX := c.mmc.DX, NY := c.mmc.NY - 1, DY := c.mmc.DY + c.mmc.TY } := by
  rw [rowEndD]
  simp only [rowEnd_iff]
  rw [if_pos hend]
  refine ite_congr rfl (fun _ => ?_) fun hmore => ite_congr rfl (fun htop => ?_) fun _ => rfl
  · simp only [endD_setMmc, sub_eq_zero]
  · rw [endD_setMmc_of_ne _ (ne_zero_of_emod_ne_zero hmore), htop]

/-- Settles O47: the two equations of `rowEndD`, read in each case of the rows that remain. -/
theorem rowEndsD : Obligations.RowEndsD := by
  rintro c m rfl
  refine ⟨fun x => ⟨?_, ?_⟩, ?_, rfl, rowEndD_of_inside, fun hend => ⟨?_, ?_, ?_⟩⟩
  · rw [crosses_eq_decide, decide_eq_decide]
    omega
  · rw [crosses_eq_decide, decide_eq_decide]
    omega
  · exact fun r x hr => ⟨writeBack_R_low hr x c, writeBack_R_high hr x c, rfl,
      fun n hlow hhigh => writeBack_R_ne hlow hhigh x c⟩
  · intro hmore htop
    rw [rowEndD_of_rowEnd hend, if_neg hmore, if_neg htop]
  · intro hlast
    rw [rowEndD_of_rowEnd hend, if_pos hlast]
  · intro hmore htop
    rw [rowEndD_of_rowEnd hend, if_neg hmore, if_pos htop]

/-! ### `RowEndSD()` and `RowEndY()` (R531, R532) -/

theorem endSD_setMmc (c : Chip) (m : Mmc) : endSD (c.setMmc m) =
    finish (writeBack 42 m.NY
      (writeBack 38 (if m.NY = 0 then m.DY + m.TY else if m.SY = -1 then m.DY + m.TY else m.DY)
        (writeBack 34 (if m.NY = 0 then m.SY + m.TY else m.SY) c))) := by
  simp only [endSD, setMmc_mmc, writeBack_setMmc, finish_setMmc]
  rfl

/-- `EndSD()` before NY has reached 0. -/
theorem endSD_setMmc_of_ne (c : Chip) {m : Mmc} (hny : m.NY ≠ 0) : endSD (c.setMmc m) =
    finish (writeBack 42 m.NY (writeBack 38 (if m.SY = -1 then m.DY + m.TY else m.DY) (writeBack 34 m.SY c))) := by
  rw [endSD_setMmc, if_neg hny, if_neg hny]

/-- What follows the end of a row of a copy, with the columns of the next row in `next`: the last row, a source or a
destination row that leaves the top, and the next row. -/
def copyRowEnd (c : Chip) (next : Mmc) : Chip :=
  let m := c.mmc
  if (m.NY - 1) % 1024 = 0 then
    finish (writeBack 42 (m.NY - 1)
      (writeBack 38 (if m.NY = 1 then m.DY + m.TY else if m.SY = -1 then m.DY + m.TY else m.DY)
        (writeBack 34 (if m.NY = 1 then m.SY + m.TY else m.SY) c)))
  else if m.SY + m.TY = -1 then
    finish (writeBack 42 (m.NY - 1) (writeBack 38 (m.DY + m.TY) (writeBack 34 (-1) c)))
  else if m.DY + m.TY = -1 then
    finish (writeBack 42 (m.NY - 1) (writeBack 38 (-1) (writeBack 34 (m.SY + m.TY) c)))
  else c.setMmc { next with NY := m.NY - 1, SY := m.SY + m.TY, DY := m.DY + m.TY }

/-- The row end of the copies as the model writes it, whatever the columns of the row that ended. -/
theorem copyRowEnd_eq (c : Chip) (cols next : Mmc) (hrow : cols.SY = c.mmc.SY ∧ cols.DY = c.mmc.DY ∧ cols.TY = c.mmc.TY) :
    copyRowEnd c next =
      if (c.mmc.NY - 1) % 1024 = 0 then endSD (c.setMmc { cols with NY := c.mmc.NY - 1 })
      else if c.mmc.SY + c.mmc.TY = -1 then
        endSD (c.setMmc { cols with NY := c.mmc.NY - 1, SY := c.mmc.SY + c.mmc.TY })
      else if c.mmc.DY + c.mmc.TY = -1 then
        endSD (c.setMmc { cols with NY := c.mmc.NY - 1, SY := c.mmc.SY + c.mmc.TY, DY := c.mmc.DY + c.mmc.TY })
      else c.setMmc { next with NY := c.mmc.NY - 1, SY := c.mmc.SY + c.mmc.TY, DY := c.mmc.DY + c.mmc.TY } := by
  obtain ⟨hsy, hdy, hty⟩ := hrow
  rw [copyRowEnd]
  refine ite_congr rfl (fun _ => ?_) fun hmore => ite_congr rfl (fun hsource => ?_) fun hsource =>
    ite_congr rfl (fun hdest => ?_) fun _ => rfl
  · simp only [endSD_setMmc, sub_eq_zero, hsy, hdy, hty]
  · rw [endSD_setMmc_of_ne _ (ne_zero_of_emod_ne_zero hmore)]
    simp only [hsource, if_true, hdy, hty]
  · rw [endSD_setMmc_of_ne _ (ne_zero_of_emod_ne_zero hmore)]
    simp only [if_neg hsource, hdest]

theorem rowEndSD_of_inside {c : Chip} (hcount : c.mmc.ANX ≠ 1) (hsource : crosses (c.mmc.ASX + c.mmc.TX) c.mmc.MX = false)
    (hdest : crosses (c.mmc.ADX + c.mmc.TX) c.mmc.MX = false) :
    rowEndSD c = c.setMmc
      { c.mmc with ANX := c.mmc.ANX - 1, ASX := c.mmc.ASX + c.mmc.TX, ADX := c.mmc.ADX + c.mmc.TX } := by
  have hnot : ¬ (c.mmc.ANX = 1 ∨ crosses (c.mmc.ASX + c.mmc.TX) c.mmc.MX = true ∨
      crosses (c.mmc.ADX + c.mmc.TX) c.mmc.MX = true) := by simp [hcount, hsource, hdest]
  have hne : c.mmc.ANX - 1 ≠ 0 := by omega
  rw [rowEndSD]
  simp only [copyRowEnd_iff]
  rw [if_neg hnot]
  simp [hne, hsource]

theorem rowEndSD_of_rowEnd {c : Chip} (hend : c.mmc.ANX = 1 ∨ crosses (c.mmc.ASX + c.mmc.TX) c.mmc.MX = true ∨
    crosses (c.mmc.ADX + c.mmc.TX) c.mmc.MX = true) :
    rowEndSD c = copyRowEnd c { c.mmc with ANX := c.mmc.NX, ASX := c.mmc.SX, ADX := c.mmc.DX } := by
  unfold rowEndSD
  extract_lets m anx asx adx rowEnd ny sy dy
  rw [if_pos (show rowEnd from (copyRowEnd_iff m.ANX m.ASX m.ADX m.TX m.MX).mpr hend)]
  exact (copyRowEnd_eq c { m with ANX := anx, ASX := asx, ADX := adx }
    { m with ANX := m.NX, ASX := m.SX, ADX := m.DX } ⟨rfl, rfl, rfl⟩).symm

theorem rowEndY_of_inside {c : Chip} (hin : crosses (c.mmc.ADX + c.mmc.TX) c.mmc.MX = false) :
    rowEndY c = c.setMmc { c.mmc with ADX := c.mmc.ADX + c.mmc.TX } := by
  rw [rowEndY]
  simp only [hin]
  rfl

theorem rowEndY_of_rowEnd {c : Chip} (hend : crosses (c.mmc.ADX + c.mmc.TX) c.mmc.MX = true) :
    rowEndY c = copyRowEnd c { c.mmc with ADX := c.mmc.DX } := by
  unfold rowEndY
  extract_lets m adx ny sy dy
  rw [if_pos hend]
  exact (copyRowEnd_eq c { m with ADX := adx } { m with ADX := m.DX } ⟨rfl, rfl, rfl⟩).symm

/-- Settles O48: inside a row both row ends step their columns, and at its end both are `copyRowEnd`. -/
theorem rowEndsSDY : Obligations.RowEndsSDY := by
  rintro c m last rfl rfl
  have hboth : ∀ e : Chip, (∀ next, copyRowEnd c next = e) →
      (c.mmc.ANX = 1 ∨ crosses (c.mmc.ASX + c.mmc.TX) c.mmc.MX = true ∨
        crosses (c.mmc.ADX + c.mmc.TX) c.mmc.MX = true → rowEndSD c = e) ∧
      (crosses (c.mmc.ADX + c.mmc.TX) c.mmc.MX = true → rowEndY c = e) := fun e he =>
    ⟨fun hend => (rowEndSD_of_rowEnd hend).trans (he _), fun hend => (rowEndY_of_rowEnd hend).trans (he _)⟩
  refine ⟨rowEndSD_of_inside, rowEndY_of_inside, fun hlast => hboth _ fun next => ?_,
    fun hmore d => ⟨fun hsource hdest => ?_, fun hsource hd => hboth d fun next => ?_,
      fun hsource hdest hd => hboth d fun next => ?_⟩⟩
  · rw [copyRowEnd, if_pos hlast]
  · have hnext : ∀ next, copyRowEnd c next = c.setMmc
        { next with NY := c.mmc.NY - 1, SY := c.mmc.SY + c.mmc.TY, DY := c.mmc.DY + c.mmc.TY } := fun next => by
      rw [copyRowEnd, if_neg hmore, if_neg hsource, if_neg hdest]
    exact ⟨fun hend => (rowEndSD_of_rowEnd hend).trans (hnext _), fun hend => (rowEndY_of_rowEnd hend).trans (hnext _)⟩
  · rw [copyRowEnd, if_neg hmore, if_pos hsource, hd]
  · rw [copyRowEnd, if_neg hmore, if_neg hsource, if_pos hdest, hd]

/-! ### Steps of the block opcodes and what a step writes (R476, R479, R488, R489, R491) -/

/-- A step of LINE writes its point and nothing else. -/
theorem readAt_stepLINE_ne {c : Chip} {p : Place} (h : p ≠ pixelPlace c c.mmc.MXD c.mmc.DX c.mmc.DY) :
    (stepLINE c).readAt p = c.readAt p := by
  rw [stepLINE_eq]
  split_ifs
  · rw [readAt_finish, readAt_writeBack, readAt_psetAt_ne c _ _ _ _ _ h]
  · rw [readAt_setMmc, readAt_psetAt_ne c _ _ _ _ _ h]

/-- A step of SRCH reads pixels and writes none. -/
theorem readAt_stepSRCH (c : Chip) (p : Place) : (stepSRCH c).readAt p = c.readAt p := by
  obtain ⟨m, -, ⟨st, -, -, h⟩ | h⟩ := stepSRCH_cases c <;> rw [h]
  · exact readAt_congr rfl rfl p
  · exact readAt_setMmc c m p

/-- A step changes no byte but the one at its target. -/
theorem readAt_stepOp_ne {op : Op} {c : Chip} {p : Place} (h : c.target op ≠ some p) :
    (stepOp op c).readAt p = c.readAt p := by
  have hne : ∀ {q}, some q ≠ some p → p ≠ q := fun hq hpq => hq (congrArg some hpq.symm)
  cases op with
  | srch => exact readAt_stepSRCH c p
  | line => exact readAt_stepLINE_ne (hne h)
  | lmmv => exact (readAt_rowEndD _ p).trans (readAt_psetAt_ne c _ _ _ _ _ (hne h))
  | lmmm => exact (readAt_rowEndSD _ p).trans (readAt_psetAt_ne c _ _ _ _ _ (hne h))
  | hmmv => exact (readAt_rowEndD _ p).trans (readAt_writeAt_ne c _ (hne h))
  | hmmm => exact (readAt_rowEndSD _ p).trans (readAt_writeAt_ne c _ (hne h))
  | ymmm => exact (readAt_rowEndY _ p).trans (readAt_writeAt_ne c _ (hne h))
  | lmcm | lmmc | hmmc => rfl

/-- Settles O50: the five steps are their equations, and each frame is that of the one write before the row end. -/
theorem blockSteps : Obligations.BlockSteps := by
  rintro c m dst rfl rfl
  refine ⟨rfl, rfl, rfl, rfl, rfl, fun op p => readAt_stepOp_ne, fun p hp => ⟨?_, ?_⟩, readAt_transferLMCM c⟩
  · exact (readAt_rowEndD _ p).trans (readAt_psetAt_ne c _ _ _ _ _ hp)
  · exact (readAt_rowEndD _ p).trans (readAt_writeAt_ne c _ hp)

/-! ### The transfers of the host-driven opcodes (R484, R485, R487, R490) -/

/-- The place of a pixel after a write of a register that holds no mode bit. -/
theorem pixelPlace_setR (c : Chip) {n : Nat} (h : 2 ≤ n) (b : Byte) (f : Bool) (x y : Int) :
    pixelPlace (c.setR n b) f x y = pixelPlace c f x y := by
  rw [pixelPlace, pixelPlace, modeOf_setR .H c n b h]

theorem regWrite_44 {cfg : Config} (hv : cfg.variant = .H) (c : Chip) (b : Byte) :
    regWrite cfg c 44 b = writeR44 (c.setR 44 b) :=
  (regWrite_of_H hv c 44 b).trans (regWriteH_eq c (by decide) (by decide) b)

theorem writeR44_of_lmmc {c : Chip} (h : c.engine = .running .lmmc) : writeR44 c = transferLMMC c := by rw [writeR44, h]

theorem writeR44_of_hmmc {c : Chip} (h : c.engine = .running .hmmc) : writeR44 c = transferHMMC c := by rw [writeR44, h]

theorem transferLMMC_setR44 (c : Chip) (b : Byte) : transferLMMC (c.setR 44 b) =
    rowEndD (psetAt (c.setR 44 b) c.mmc.MXD c.mmc.ADX c.mmc.DY (b &&& colourBits (modeOf .H c)) c.mmc.LO) := by
  rw [transferLMMC, R_setR_self c b (by decide), modeOf_setR .H c 44 b (by decide), setR_mmc]

theorem transferHMMC_setR44 (c : Chip) (b : Byte) : transferHMMC (c.setR 44 b) =
    rowEndD ((c.setR 44 b).writeAt (pixelPlace c c.mmc.MXD c.mmc.ADX c.mmc.DY) b) := by
  rw [transferHMMC, R_setR_self c b (by decide), pixelPlace_setR c (by decide), setR_mmc]

theorem endLMCM_setMmc (c : Chip) (m : Mmc) : endLMCM (c.setMmc m) =
    finish (writeBack 42 m.NY (writeBack 34 (if m.NY = 0 then m.SY + m.TY else m.SY) c)) := by
  simp only [endLMCM, setMmc_mmc, writeBack_setMmc, finish_setMmc]
  rfl

theorem endLMCM_setMmc_of_ne (c : Chip) {m : Mmc} (hny : m.NY ≠ 0) :
    endLMCM (c.setMmc m) = finish (writeBack 42 m.NY (writeBack 34 m.SY c)) := by
  rw [endLMCM_setMmc, if_neg hny]

theorem transferLMCM_of_inside {c : Chip} (hcount : c.mmc.ANX ≠ 1)
    (hin : crosses (c.mmc.ASX + c.mmc.TX) c.mmc.MX = false) : transferLMCM c =
      loadPixelLMCM (c.setMmc { c.mmc with ANX := c.mmc.ANX - 1, ASX := c.mmc.ASX + c.mmc.TX }) := by
  have hnot : ¬ (c.mmc.ANX = 1 ∨ crosses (c.mmc.ASX + c.mmc.TX) c.mmc.MX = true) := by simp [hcount, hin]
  have hne : c.mmc.ANX - 1 ≠ 0 := by omega
  rw [transferLMCM]
  simp only [rowEnd_iff]
  rw [if_neg hnot, if_neg hne]

/-- The last row, a row end that leaves the top, and the next row. -/
theorem transferLMCM_of_rowEnd {c : Chip} (hend : c.mmc.ANX = 1 ∨ crosses (c.mmc.ASX + c.mmc.TX) c.mmc.MX = true) :
    transferLMCM c =
      if (c.mmc.NY - 1) % 1024 = 0 then
        finish (writeBack 42 (c.mmc.NY - 1)
          (writeBack 34 (if c.mmc.NY = 1 then c.mmc.SY + c.mmc.TY else c.mmc.SY) c))
      else if c.mmc.SY + c.mmc.TY = -1 then finish (writeBack 42 (c.mmc.NY - 1) (writeBack 34 (-1) c))
      else loadPixelLMCM (c.setMmc { c.mmc with
        ANX := c.mmc.NX, ASX := c.mmc.SX, NY := c.mmc.NY - 1, SY := c.mmc.SY + c.mmc.TY }) := by
  rw [transferLMCM]
  simp only [rowEnd_iff]
  rw [if_pos hend]
  refine ite_congr rfl (fun _ => ?_) fun hmore => ite_congr rfl (fun htop => ?_) fun _ => rfl
  · simp only [endLMCM_setMmc, sub_eq_zero]
  · rw [endLMCM_setMmc_of_ne _ (ne_zero_of_emod_ne_zero hmore), htop]

/-- Settles O45: a write of R44 is the transfer on the chip that holds the byte, and an LMCM transfer loads a pixel or
ends. -/
theorem hostTransfers : Obligations.HostTransfers := by
  rintro cfg c b m hv rfl
  refine ⟨fun hengine => ?_, fun hengine => ?_, fun load hload => ?_⟩
  · rw [regWrite_44 hv, writeR44_of_lmmc (c := c.setR 44 b) hengine, transferLMMC_setR44]
  · rw [regWrite_44 hv, writeR44_of_hmmc (c := c.setR 44 b) hengine, transferHMMC_setR44]
  · obtain rfl : load = fun n => loadPixelLMCM (c.setMmc n) := funext hload
    refine ⟨transferLMCM_of_inside, fun hend => ⟨fun hmore htop => ?_, fun hlast => ?_, fun hmore htop => ?_⟩⟩
    · rw [transferLMCM_of_rowEnd hend, if_neg hmore, if_neg htop]
    · rw [transferLMCM_of_rowEnd hend, if_pos hlast]
    · rw [transferLMCM_of_rowEnd hend, if_neg hmore, if_pos htop]

end Sys2Proof.Machine
end

section
/-! PROOFS of 44_command_ops, the issue: the parameter fetch, POINT, the frame of PSET and the start of the host-driven
opcodes. -/

namespace Sys2Proof.Machine

/-! ### The parameter fetch (R460) -/

/-- A register pair as an integer. -/
theorem pair_cast (c : Chip) (n k : Nat) :
    (pair c n k : Int) = ((c.R n).toNat + 256 * (c.R (n + 1)).toNat) % 2 ^ k := by
  rw [pair]
  push_cast
  rfl

/-- Settles O39: each field of the fetch is its line of R460, the pairs read as integers. -/
theorem parameterFetch : Obligations.ParameterFetch := by
  rintro c cm lo r m byteOp hr rfl rfl
  obtain rfl : r = fun n => ((c.R n).toNat : Int) := funext hr
  have hbyte : byteOpcode cm = decide (12 ≤ cm.toNat) := rfl
  refine ⟨rfl, rfl, pair_cast c 32 9, pair_cast c 34 10, pair_cast c 36 9, pair_cast c 38 10, ?_, pair_cast c 42 10, rfl, rfl,
    ?_, rfl, rfl, rfl, rfl, rfl, rfl, rfl⟩
  · show (if byteOpcode cm then _ else _) = _
    rw [hbyte, pair_cast]
    split_ifs
    · rfl
    · exact (Int.ediv_one _).symm
  · show (if byteOpcode cm then _ else _) = _
    rw [hbyte]
    split_ifs <;> simp

/-! ### R46 is no parameter -/

theorem pair_setR46 (c : Chip) (b : Byte) {n : Nat} (hn : n + 1 < 46) (k : Nat) : pair (c.setR 46 b) n k = pair c n k := by
  rw [pair, pair, R_setR_ne c b (by omega), R_setR_ne c b (by omega)]

/-- The colour of a pixel after a write of a register that holds no mode bit. -/
theorem pointAt_setR (c : Chip) {n : Nat} (h : 2 ≤ n) (b : Byte) (f : Bool) (x y : Int) :
    pointAt (c.setR n b) f x y = pointAt c f x y := by
  rw [pointAt, pointAt, pixelPlace_setR c h, modeOf_setR .H c n b h, readAt_setR]

/-! ### The issue of the codes that act at once

POINT, and the host-driven opcodes, which make a transfer with their start. -/

section
variable {c : Chip} (hmode : commandMode (modeOf .H c) = true)
include hmode

theorem issue_point (lo : Nibble) : issue ((4 : Nibble) ++ lo) c = issuePOINT lo c := by
  rw [issue, BitVec.extractLsb'_append_eq_left, BitVec.extractLsb'_append_eq_right, hmode]
  rfl

theorem issue_lmcm (lo : Nibble) : issue ((10 : Nibble) ++ lo) c = issueLMCM lo c := by
  rw [issue, BitVec.extractLsb'_append_eq_left, BitVec.extractLsb'_append_eq_right, hmode]
  rfl

theorem issue_lmmc (lo : Nibble) : issue ((11 : Nibble) ++ lo) c = issueLMMC lo c := by
  rw [issue, BitVec.extractLsb'_append_eq_left, BitVec.extractLsb'_append_eq_right, hmode]
  rfl

theorem issue_hmmc (lo : Nibble) : issue ((15 : Nibble) ++ lo) c = issueHMMC lo c := by
  rw [issue, BitVec.extractLsb'_append_eq_left, BitVec.extractLsb'_append_eq_right, hmode]
  rfl

end

/-! ### POINT (R464) -/

/-- The pixel that POINT and the start of LMCM read. -/
def Chip.sourcePoint (c : Chip) : Byte := pointAt c ((c.R 45).getLsbD 4) (pair c 32 9) (pair c 34 10)

theorem sourcePoint_setR46 (c : Chip) (b : Byte) : (c.setR 46 b).sourcePoint = c.sourcePoint := by
  rw [Chip.sourcePoint, pointAt_setR c (by decide), R_setR_ne c b (by decide), pair_setR46 c b (by decide),
    pair_setR46 c b (by decide)]
  rfl

/-- POINT leaves the Command Unit State it loaded behind only to clear it. -/
theorem issuePOINT_eq (lo : Nibble) (c : Chip) :
    issuePOINT lo c = finish { c.setR 44 c.sourcePoint with status := { c.status with s7 := c.sourcePoint } } := rfl

/-- Settles O40: the row issues POINT, whose operands R46 leaves. -/
theorem pointReads : Obligations.PointReads := by
  rintro s x p hv hmode rfl
  rw [exec_of_commandByte_of_H hv (b := (4 : Nibble) ++ x) rfl, issue_point (by rw [modeOf_setR46]; exact hmode), issuePOINT_eq,
    sourcePoint_setR46]
  rfl

/-! ### The frame of PSET (R466, R495) -/

theorem readAt_afterPset_ne (c : Chip) (b : Byte) (w : Option Byte) {p : Place} (h : p ≠ c.destination) :
    (c.afterPset b w).readAt p = c.readAt p := by
  cases w with
  | none => rfl
  | some x => exact (readAt_finish _ p).trans (readAt_writeAt_ne (c.setR 46 b) x h)

/-- Besides memory PSET changes R46, and it leaves the engine Idle. -/
theorem afterPset_eq (c : Chip) (b : Byte) (w : Option Byte) : c.afterPset b w =
    { c.setR 46 b with
      vram := (c.afterPset b w).vram, exp := (c.afterPset b w).exp, engine := .idle, mmc := mmcZero
      status := { c.status with ce := false, tr := false } } := by
  cases w with
  | none => rfl
  | some x =>
    rw [Chip.afterPset]
    cases c.destination <;> rfl

theorem exec_pset {s : State} (hv : s.cfg.variant = .H) (hmode : commandMode (modeOf .H s.chip) = true) (l : Nibble) :
    ∃ w, exec (.pset l) s = s.after (s.chip.afterPset (0x5#4 ++ l) w) .none := by
  rw [exec_of_commandByte_of_H hv (b := 0x5#4 ++ l) rfl, issue_pset (by rw [modeOf_setR46]; exact hmode), issuePSET_setR46]
  exact ⟨_, rfl⟩

/-- Settles O42: the row leaves `Chip.afterPset`, whatever the logical operation writes. -/
theorem psetFrame : Obligations.PsetFrame := by
  intro s l hv hmode
  obtain ⟨w, hexec⟩ := exec_pset hv hmode l
  exact ⟨_, hexec, fun p hp => readAt_afterPset_ne s.chip _ w hp,
    congrArg (fun c => { s with chip := c, out := .none }) (afterPset_eq s.chip _ w)⟩

/-! ### The start of the host-driven opcodes (R483, R486, R490) -/

/-- A chip on which a host-driven command has just started: the parameters are those of `c`, and of its registers and
memory at most R46 differs. -/
structure StartedFrom (c : Chip) (cm lo : Nibble) (d : Chip) : Prop where
  mmc : d.mmc = loadParams c cm lo
  reg : ∃ b, d.reg = (c.setR 46 b).reg
  vram : d.vram = c.vram
  exp : d.exp = c.exp

section
variable {c d : Chip} {cm lo : Nibble} (h : StartedFrom c cm lo d)
include h

theorem StartedFrom.mode : modeOf .H d = modeOf .H c := by
  obtain ⟨b, hreg⟩ := h.reg
  rw [modeOf_congr .H hreg, modeOf_setR46]

theorem StartedFrom.R44 : d.R 44 = c.R 44 := by
  obtain ⟨b, hreg⟩ := h.reg
  rw [R_congr hreg, R_setR_ne c b (by decide)]

theorem StartedFrom.place (f : Bool) (x y : Int) : pixelPlace d f x y = pixelPlace c f x y := by
  rw [pixelPlace, h.mode, pixelPlace]

theorem StartedFrom.point (f : Bool) (x y : Int) : pointAt d f x y = pointAt c f x y := by
  rw [pointAt, h.place, h.mode, readAt_congr h.vram h.exp, pointAt]

end

/-- The first pixel of LMCM is that at (SX, SY). -/
theorem loadPixelLMCM_of_started {c d : Chip} {lo : Nibble} (h : StartedFrom c 10 lo d) :
    loadPixelLMCM d = { d.setR 44 c.sourcePoint with status := { d.status with s7 := c.sourcePoint } } := by
  have hpoint : pointAt d d.mmc.MXS d.mmc.ASX d.mmc.SY = c.sourcePoint := by
    rw [h.point, h.mmc]
    rfl
  rw [loadPixelLMCM, hpoint]

/-- The first pixel of LMMC goes to (DX, DY). -/
theorem transferLMMC_of_started {c d : Chip} {lo : Nibble} (h : StartedFrom c 11 lo d) :
    transferLMMC d = rowEndD (psetAt d ((c.R 45).getLsbD 5) (pair c 36 9) (pair c 38 10)
      (c.R 44 &&& colourBits (modeOf .H c)) lo) := by
  rw [transferLMMC, h.R44, h.mode, h.mmc]
  rfl

/-- The first byte of HMMC goes to the byte of (DX, DY). -/
theorem transferHMMC_of_started {c d : Chip} {lo : Nibble} (h : StartedFrom c 15 lo d) :
    transferHMMC d = rowEndD (d.writeAt c.destination (c.R 44)) := by
  rw [transferHMMC, h.R44, h.place, h.mmc]
  rfl

/-- Settles O44: the three rows make the first transfer on the chip that the start leaves. -/
theorem hostDrivenStarts : Obligations.HostDrivenStarts := by
  rintro s x start ready p hinv hv hmode hstart hready rfl
  obtain rfl : ready = readyIfRunning := funext hready
  have hmode' : ∀ b, commandMode (modeOf .H (s.chip.setR 46 b)) = true := fun b => by rw [modeOf_setR46]; exact hmode
  have henter : ∀ (cm : Nibble) (op : Op), enter cm x op (s.chip.setR 46 (cm ++ x)) = start cm op := fun cm op => by
    rw [enter_of_ok (setR_ok (hv ▸ hinv) (by decide) (by decide) _), loadParams_setR46, hstart]
    rfl
  have hstarted : ∀ (cm : Nibble) (op : Op), StartedFrom s.chip cm x (start cm op) := fun cm op => by
    rw [hstart]
    exact ⟨rfl, ⟨cm ++ x, rfl⟩, rfl, rfl⟩
  refine ⟨?_, ?_, ?_⟩
  · rw [exec_of_commandByte_of_H hv (b := (10 : Nibble) ++ x) rfl, issue_lmcm (hmode' _), issueLMCM, henter,
      loadPixelLMCM_of_started (hstarted 10 .lmcm), hstart]
    rfl
  · rw [exec_of_commandByte_of_H hv (b := (11 : Nibble) ++ x) rfl, issue_lmmc (hmode' _), issueLMMC, henter,
      transferLMMC_of_started (hstarted 11 .lmmc)]
  · rw [exec_of_commandByte_of_H hv (b := (15 : Nibble) ++ x) rfl, issue_hmmc (hmode' _), issueHMMC, henter,
      transferHMMC_of_started (hstarted 15 .hmmc)]

end Sys2Proof.Machine
end

section
/-! PROOFS of 60_exceptions: no register write reaches the interrupt output or the event flags, and the interrupt output
after every instruction. -/

namespace Sys2Proof.Machine

/-! ### Register writes (R612) -/

/-- Settles O28: the interrupt output, S#0 and FH are in the frame of every register write. -/
theorem registerWritesKeepInterrupt : Obligations.RegisterWritesKeepInterrupt := fun cfg c n b =>
  have hframe := registerFrame_regWrite cfg c n b
  ⟨hframe.intLine, hframe.s0, hframe.fh⟩

/-! ### Operations that leave the interrupt output -/

theorem intLine_regWrite (cfg : Config) (c : Chip) (n : Nat) (b : Byte) : (regWrite cfg c n b).intLine = c.intLine :=
  (registerFrame_regWrite cfg c n b).intLine

@[simp] theorem intLine_advance (v : Variant) (c : Chip) : (advance v c).intLine = c.intLine := by
  obtain ⟨r, x, heq, -⟩ := advance_eq v c
  rw [heq]

theorem intLine_prefetchNext (v : Variant) (c : Chip) : (prefetchNext v c).intLine = c.intLine := intLine_advance v _

theorem intLine_paletteByteE (c : Chip) (b : Byte) : (paletteByteE c b).intLine = c.intLine := by
  obtain ⟨r, pal, ph, pend, heq, -⟩ := paletteByteE_eq c b
  rw [heq]

theorem intLine_paletteByteH (c : Chip) (b : Byte) : (paletteByteH c b).intLine = c.intLine := by
  obtain ⟨r, pal, ph, pend, heq, -⟩ := paletteByteH_eq c b
  rw [heq]

theorem intLine_afterReadS7 (c : Chip) : (afterReadS7 c).intLine = c.intLine := (progress_afterReadS7 c).1.intLine

theorem intLine_budgetLoop (op : Op) (cost fuel : Nat) (c : Chip) :
    (budgetLoop op cost fuel c).intLine = c.intLine := by
  induction fuel generalizing c with
  | zero => rfl
  | succ fuel ih =>
    have hstep : (stepOp op c).intLine = c.intLine := (progress_stepOp op c).1.intLine
    rw [budgetLoop_succ]
    split_ifs
    · rfl
    · exact hstep
    · exact (ih _).trans hstep

theorem intLine_updateCommand (cfg : Config) (c : Chip) : (updateCommand cfg c).intLine = c.intLine := by
  unfold updateCommand
  extract_lets c0
  split
  · rfl
  · split
    · rfl
    · exact intLine_budgetLoop _ _ _ c0

/-! ### The events of a rendered line (R610) -/

/-- A rendered line has an event whose enable is set: the line event of E and H at the line R19 names, or the frame event
at the last visible line. -/
def assertsIntLine (cfg : Config) (c : Chip) (l : Nat) : Bool :=
  (decide (cfg.variant ≠ .B) && decide (l = (c.R 19).toNat) && (c.R 0).getLsbD 4) ||
    (decide (l + 1 = visibleLines cfg.variant c) && (c.R 1).getLsbD 5)

theorem assertsIntLine_iff (cfg : Config) (c : Chip) (l : Nat) :
    assertsIntLine cfg c l = true ↔
      (cfg.variant ≠ .B ∧ l = (c.R 19).toNat ∧ (c.R 0).getLsbD 4 = true) ∨
        (l + 1 = visibleLines cfg.variant c ∧ (c.R 1).getLsbD 5 = true) := by
  simp only [assertsIntLine, Bool.or_eq_true, Bool.and_eq_true, decide_eq_true_iff, and_assoc]

/-- A rendered line only asserts the latch. -/
theorem intLine_renderLine (cfg : Config) (c : Chip) (l : Nat) :
    (renderLine cfg c l).1.intLine = (c.intLine || assertsIntLine cfg c l) := by
  rw [renderLine_intLine, beginLine_eq_flags]
  exact Bool.or_assoc _ _ _

/-! ### The chip of a next state -/

/-- The chip of every next state the outcome can be has the property. -/
def LeavesChip (P : Chip → Prop) (k : Host.Outcome State Fault Refusal) : Prop := ∀ t, k = .next t → P t.chip

theorem leavesChip_done {s : State} {c : Chip} {P : Chip → Prop} (o : Output) (h : P c) : LeavesChip P (s.done c o) := by
  rintro t ⟨⟩
  exact h

theorem leavesChip_doneDrawn {s : State} {c : Chip} {P : Chip → Prop} (o : Output) (h : P c) :
    LeavesChip P (s.doneDrawn c o) := by
  rintro t ⟨⟩
  exact h

theorem leavesChip_refused (P : Chip → Prop) (r : Refusal) : LeavesChip P (.refused r) := by
  rintro t ⟨⟩

theorem leavesChip_only {s : State} {v : Variant} {P : Chip → Prop} {k : Host.Outcome State Fault Refusal}
    (h : LeavesChip P k) : LeavesChip P (s.only v k) := fun t ht => h t (only_next ht).2

/-! ### The interrupt output after a call -/

/-- The interrupt output of every next state the outcome can be is `b`. -/
abbrev LeavesIntLine (b : Bool) : Host.Outcome State Fault Refusal → Prop := LeavesChip (·.intLine = b)

theorem leavesIntLine_command (s : State) (b : Byte) : LeavesIntLine s.chip.intLine (s.command b) :=
  leavesChip_done _ (intLine_regWrite _ _ _ b)

theorem leavesIntLine_wd (d : Byte) (s : State) : LeavesIntLine s.chip.intLine (execWd d s) := by
  refine leavesChip_done _ ?_
  rw [latchFirst_intLine, intLine_advance]
  split_ifs
  · exact writeAt_intLine _ _ d
  · exact writeAt_intLine _ _ d

theorem leavesIntLine_rsOtherH (s : State) : LeavesIntLine s.chip.intLine (execRsOtherH s) := by
  refine leavesChip_only ?_
  split_ifs
  · exact leavesChip_done _ rfl
  · exact leavesChip_done _ rfl
  · exact leavesChip_doneDrawn _ rfl

theorem leavesIntLine_rsE (s : State) : LeavesIntLine s.chip.intLine (execRsE s) := by
  refine leavesChip_only ?_
  split_ifs
  · exact leavesChip_done _ rfl
  · exact leavesChip_done _ rfl

theorem leavesIntLine_wi (d : Byte) (s : State) : LeavesIntLine s.chip.intLine (execWi d s) := by
  refine leavesChip_only (leavesChip_done _ ?_)
  rw [setR_intLine]
  split_ifs
  · rfl
  · exact intLine_regWrite _ _ _ d

theorem leavesIntLine_render (l : Nat) (s : State) :
    LeavesIntLine (s.chip.intLine || assertsIntLine s.cfg s.chip l) (exec (.render l) s) := by
  intro t hnext
  obtain rfl := exec_render_next hnext
  exact intLine_renderLine s.cfg s.chip l

/-- A saved state keeps its own interrupt output: a restore derives no more than the running opcode. -/
theorem leavesIntLine_restore (c : Chip) (s : State) : LeavesIntLine c.intLine (execRestore c s) := by
  unfold execRestore
  split_ifs with hok
  · exact leavesChip_done _ (by rw [rederive_of_ok hok])
  · exact leavesChip_refused _ _

theorem leavesIntLine_debugReadWrite (a : Nat) (w : Option Byte) (s : State) :
    LeavesIntLine s.chip.intLine (execDebugReadWrite a w s) := by
  cases w with
  | none => exact leavesChip_done _ rfl
  | some b => exact leavesChip_done _ (writeAt_intLine _ _ b)

/-- The interrupt output after an instruction: a render asserts it at its events, a read of S#0 and a reset clear it, a
restore loads it, and every other instruction leaves it (R610, R611). -/
def intLineAfter (s : State) : Instr → Bool
  | .render l => s.chip.intLine || assertsIntLine s.cfg s.chip l
  | .rsS0 | .reset => false
  | .restore c => c.intLine
  | _ => s.chip.intLine

/-- The four instructions that act on the latch; the port accesses, register writes and driver calls that leave it. -/
theorem leavesIntLine_exec (i : Instr) (s : State) : LeavesIntLine (intLineAfter s i) (exec i s) := by
  cases i with
  | waFirst _ | waSetwr _ | rsS0 | snapshot | debugDump => exact leavesChip_done _ rfl
  | waSetrd _ | rd => exact leavesChip_done _ (intLine_prefetchNext _ _)
  | waWreg _ _ => exact leavesChip_done _ (intLine_regWrite _ _ _ _)
  | wd d => exact leavesIntLine_wd d s
  | wdPaletteE d => exact leavesChip_only (leavesChip_done _ (intLine_paletteByteE _ d))
  | wdPaletteH d | wp d => exact leavesChip_only (leavesChip_done _ (intLine_paletteByteH _ d))
  | rsS1H => exact leavesChip_only (leavesChip_done _ rfl)
  | rsS2H => exact leavesChip_only (leavesChip_doneDrawn _ rfl)
  | rsS7H => exact leavesChip_only (leavesChip_done _ (intLine_afterReadS7 _))
  | rsOtherH => exact leavesIntLine_rsOtherH s
  | rsE => exact leavesIntLine_rsE s
  | wi d => exact leavesIntLine_wi d s
  | render l => exact leavesIntLine_render l s
  | update => exact leavesChip_only (leavesChip_done _ (intLine_updateCommand _ _))
  | reset => exact leavesChip_doneDrawn _ rfl
  | restore c => exact leavesIntLine_restore c s
  | debugReadWrite a w => exact leavesIntLine_debugReadWrite a w s
  | stop _ | undefined1 _ | undefined2 _ | undefined3 _ | point _ | pset _ | srch _ | line _ | lmmv _ | lmmm _ | lmcm _
  | lmmc _ | hmmv _ | hmmm _ | ymmm _ | hmmc _ => exact leavesIntLine_command s _
  | loImp _ | loAnd _ | loOr _ | loEor _ | loNot _ | loTimp _ | loTand _ | loTor _ | loTeor _ | loTnot _
  | loUndefined5 _ | loUndefined6 _ | loUndefined7 _ | loUndefined13 _ | loUndefined14 _ | loUndefined15 _ =>
    exact leavesIntLine_command s _

/-- Settles O34: of the four instructions that act on the latch, a render changes it only where it asserts it; every other
instruction leaves it. -/
theorem interruptLine : Obligations.InterruptLine := by
  intro i s t hnext hchange
  have hafter : t.chip.intLine = intLineAfter s i := leavesIntLine_exec i s t hnext
  cases i with
  | render l =>
    have hline : t.chip.intLine = (s.chip.intLine || assertsIntLine s.cfg s.chip l) := hafter
    have hasserts : assertsIntLine s.cfg s.chip l = true :=
      Bool.of_not_eq_false fun hquiet => hchange (by rw [hline, hquiet, Bool.or_false])
    exact .inl ⟨by rw [hline, hasserts, Bool.or_true], l, rfl, (assertsIntLine_iff _ _ _).mp hasserts⟩
  | rsS0 => exact .inr (.inl ⟨hafter, .inl rfl⟩)
  | reset => exact .inr (.inl ⟨hafter, .inr rfl⟩)
  | restore c => exact .inr (.inr ⟨c, rfl, hafter⟩)
  | _ => exact absurd hafter hchange

end Sys2Proof.Machine
end

section
/-! PROOFS of 70_reset_and_hazards: the values after a reset, the saved states, and the debug path. -/

namespace Sys2Proof.Machine

/-! ### The values after a reset (R700, R701) -/

/-- R701: every register is 0 but R48 of variant E. -/
theorem getElem_resetRegs (v : Variant) (n : Fin 64) :
    (resetRegs v)[n] = if v = .E ∧ n = 48 then 0x01 else 0x00 := by
  revert n
  cases v with
  | B => decide
  | E => decide
  | H => decide

/-- The values R700 and R701 give after a reset, in every field but those a reset draws. -/
abbrev Chip.HasResetValues (v : Variant) (c : Chip) : Prop :=
  (∀ n : Fin 64, c.reg[n] = if v = .E ∧ n = 48 then 0x01 else 0x00) ∧
  c.cursor = 0 ∧ c.phase = .first ∧ c.pending = 0 ∧ c.palPhase = .first ∧ c.palPending = 0 ∧
  c.status = { s0 := 0, fh := false, tr := false, bd := false, ce := false, s7 := 0, s8 := 0, s9 := 0xFE } ∧
  c.intLine = false ∧ c.lock = { unlocked := false, unlockCount := 0 } ∧ c.engine = .idle ∧ c.mmc = mmcZero ∧
  c.budget = 0 ∧ c.collisionReported = false

theorem resetWith_hasResetValues (v : Variant) (vram exp : Memory) (pre : Byte) (palE : Vector (BitVec 12) 64)
    (palH : Vector Rgb 16) : (Chip.resetWith v vram exp pre palE palH).HasResetValues v :=
  ⟨getElem_resetRegs v, rfl, rfl, rfl, rfl, rfl, rfl, rfl, rfl, rfl, rfl, rfl, rfl⟩

/-- The start state draws empty arrays, and these are in canonical form. -/
theorem start_inv (v : Variant) : (State.start v).Inv := resetWith_ok v (nil_wf _) (nil_wf _) _ _ _

/-- Settles O32: the start chip is a chip after a reset, whatever the model takes for the open values. -/
theorem resetState : Obligations.ResetState := by
  refine ⟨rfl, fun v => ⟨start_inv v, ?_⟩⟩
  rintro c rfl
  exact resetWith_hasResetValues v _ _ _ _ _

/-- RESET in one equation: the draw leaves a chip after a reset. -/
theorem exec_reset (s : State) :
    exec .reset s = .next { s with chip := resetDrawn s.cfg.variant s.draws, out := .none, draws := s.draws + 1 } :=
  doneDrawn_eq s _ _

/-- Settles O35: the drawn chip is a chip after a reset, whatever it draws. -/
theorem resetCall : Obligations.ResetCall := fun s =>
  ⟨_, exec_reset s, resetDrawn_ok _ _, rfl, rfl, rfl, resetWith_hasResetValues _ _ _ _ _ _⟩

/-! ### Saved states (R710, R711) -/

theorem exec_snapshot (s : State) : exec .snapshot s = s.after s.chip (.saved s.chip) := rfl

/-- A good chip is restored as it stands: its running opcode is the one its own CM names. -/
theorem exec_restore_of_ok {c : Chip} {s : State} (hok : c.ok s.cfg.variant) :
    exec (.restore c) s = s.after c .none := by
  have hrestore : exec (.restore c) s = s.after (rederive c) .none := if_pos hok
  rw [hrestore, rederive_of_ok hok]

theorem exec_restore_of_not_ok {c : Chip} {s : State} (hbad : ¬ c.ok s.cfg.variant) :
    exec (.restore c) s = .refused .notASavedState := if_neg hbad

/-- Settles O36: the invariant of `s` is the check a restore makes, on any machine of the variant. -/
theorem snapshotRestore : Obligations.SnapshotRestore := by
  refine fun s => ⟨exec_snapshot s, fun u hvariant => ⟨fun hinv => ?_, fun hbad => ?_⟩⟩
  · exact exec_restore_of_ok (hvariant ▸ hinv)
  · exact exec_restore_of_not_ok (hvariant ▸ hbad)

/-! ### The debug path (R716, R717) -/

theorem exec_debugRead (a : Nat) (s : State) :
    exec (.debugReadWrite a none) s = s.after s.chip (.byte (s.byteAt (debugPlace s.cfg.variant a))) := rfl

theorem exec_debugWrite (a : Nat) (b : Byte) (s : State) :
    exec (.debugReadWrite a (some b)) s = s.after (s.chip.writeAt (debugPlace s.cfg.variant a) b) .none := rfl

theorem exec_debugDump (s : State) :
    exec .debugDump s = s.after s.chip (.dump (s.chip.reg.toList.take (nreg s.cfg.variant)) s.chip.status
      (geometry s.cfg.variant s.chip)) := rfl

/-- A byte written to a place changes no field but the two arrays. -/
theorem writeAt_frame (c : Chip) (p : Place) (b : Byte) :
    c.writeAt p b = { c with vram := (c.writeAt p b).vram, exp := (c.writeAt p b).exp } := by
  cases p with
  | main a => rfl
  | exp a => rfl

/-- Settles O37: the place of the statement is `debugPlace`, and a write there is read back there and nowhere else. -/
theorem debugAccess : Obligations.DebugAccess := by
  intro s a k p b hinv hk hp
  have hplace : p = debugPlace s.cfg.variant a := by rw [hp, hk, debugPlace]
  obtain ⟨hmemory, -, -⟩ := (ok_iff _ _).mp hinv
  refine ⟨?_, ⟨_, exec_debugWrite a b s, ?_, fun q hq => ?_, ?_⟩, exec_debugDump s⟩
  · rw [hplace, exec_debugRead]
  · rw [← hplace]
    exact readAt_writeAt_same hmemory p b
  · rw [← hplace]
    exact readAt_writeAt_ne s.chip b hq
  · exact congrArg (fun c : Chip => { s with chip := c, out := .none }) (writeAt_frame s.chip _ b)

end Sys2Proof.Machine
end
